-- ==== Sys2Proof/Word.lean ====
section
/-! DEFINITION. The word type of the block: every chip register and every buffer element is 8 bits wide
(00_scope.md R8), bytes are unsigned (R9). -/
namespace Sys2Proof

/-- An 8-bit value, 0..255 (00_scope.md R9). -/
abbrev Byte := BitVec 8

end Sys2Proof
end

