-- ==== Sys2Proof/Config.lean ====
section
/-! DEFINITION. The implementation parameters of 00_scope.md R8, and the free values: constants without a body, so that nothing can be proved of
the value they take. The parameters whose values no source states are a record that the machine takes as an argument; it is held in State, and no
step changes it. UNVERIFIED (log entry 1): its default values are the spec's general-knowledge values. -/
namespace Sys2Proof

/-- The parameters of R8 with general-knowledge defaults (92_eei_decisions.md D2, D3, D21, 93_implementation_defined.md I2, I5): the command
constants, the register address fields and the guard mask. The layout of the command byte is theirs too: it is what the constants and the fields
make it (30_encoding.md R70, R71). -/
structure Params where
  cmdWriteBit : Byte
  cmdReadBit : Byte
  aSec : Byte
  aMin : Byte
  aHour : Byte
  aDate : Byte
  aMonth : Byte
  aWday : Byte
  aYear : Byte
  aWp : Byte
  aBurst : Byte
  wpGuardMask : Byte
  deriving DecidableEq, Repr

/-- The defaults of R8. -/
def Params.default : Params where
  cmdWriteBit := 0x80#8
  cmdReadBit := 0x81#8
  aSec := 0x00#8
  aMin := 0x02#8
  aHour := 0x04#8
  aDate := 0x06#8
  aMonth := 0x08#8
  aWday := 0x0A#8
  aYear := 0x0C#8
  aWp := 0x0E#8
  aBurst := 0x3E#8
  wpGuardMask := 0x80#8

end Sys2Proof

namespace Sys2Proof.Config

open Sys2Proof

/-- `HOUR12_MODE_BIT` and `HOUR12_PM_BIT` (R8, 30_encoding.md R81). -/
def hour12ModeBit : Nat := 7
def hour12PmBit : Nat := 5
/-- `BURST_FILLER` (R8, 41_calendar_codec.md R171). -/
def burstFiller : Byte := 0x00#8
/-- `YEAR_BASE` (R8, 41_calendar_codec.md R160): years since 1900. -/
def yearBase : Int := 100

/-- The four delays in ns, OPEN in the spec (R8, 40_transfer_engine.md R118, 92_eei_decisions.md D10; log entry 19). -/
opaque tCeSetup : Nat
opaque tDataSetup : Nat
opaque tClkHigh : Nat
opaque tClkLow : Nat

/-- Free values (log entry 5): the `k`-th bit and the `k`-th byte drawn where the spec says "a draw" or "any value" (10_state.md R40,
20_memory.md R59, R60, 93_implementation_defined.md I13 to I15, I22). -/
opaque freeBit : Nat → Bool
opaque freeByte : Nat → Byte

end Sys2Proof.Config
end

