-- ==== Sys2Proof/Syntax.lean ====
section
/-! DEFINITION. The instructions: one constructor per row of spec/opcode_table.json (30_encoding.md R74). The data bytes of a write are the
instruction's operand (R70); a read has none. -/
namespace Sys2Proof

/-- The eight chip registers, in index order 0..7 (20_memory.md R50, R51). -/
inductive Reg where
  | sec | min | hour | date | month | wday | year | wp
  deriving DecidableEq, Repr

/-- A transaction's direction (10_state.md R28, 30_encoding.md R88). -/
inductive Direction where
  | read | write
  deriving DecidableEq, Repr

/-- A transaction's data length, 1 or 8 bytes and no other (10_state.md R28, 20_memory.md R52). -/
inductive DataLen where
  | one | eight
  deriving DecidableEq, Repr

/-- What an admitted command byte asks for (30_encoding.md R70, R74). -/
inductive Command where
  | read (r : Reg)
  | write (r : Reg)
  | readBurst
  | writeBurst
  deriving DecidableEq, Repr

/-- The 18 instructions. `wrBurst` carries its data bytes as a list, since a request may carry the wrong number of them
(40_transfer_engine.md R123): WellFormed says that there are eight. -/
inductive Instr where
  | wrSec (v : Byte)
  | rdSec
  | wrMin (v : Byte)
  | rdMin
  | wrHour (v : Byte)
  | rdHour
  | wrDate (v : Byte)
  | rdDate
  | wrMonth (v : Byte)
  | rdMonth
  | wrWday (v : Byte)
  | rdWday
  | wrYear (v : Byte)
  | rdYear
  | wrWp (v : Byte)
  | rdWp
  | wrBurst (bytes : List Byte)
  | rdBurst
  deriving DecidableEq, Repr

end Sys2Proof
end

