-- ==== Sys2Proof/WellFormed.lean ====
section
/-! DEFINITION. Well-formed instructions: a burst write carries exactly 8 data bytes (20_memory.md R52, 40_transfer_engine.md R123);
every other instruction's operands are bounded by their type. -/
namespace Sys2Proof

/-- The check on an instruction's operands. -/
def Instr.wellFormed : Instr → Bool
  | .wrBurst bytes => bytes.length == 8
  | .wrSec _ | .wrMin _ | .wrHour _ | .wrDate _ | .wrMonth _ | .wrWday _ | .wrYear _ | .wrWp _ => true
  | .rdSec | .rdMin | .rdHour | .rdDate | .rdMonth | .rdWday | .rdYear | .rdWp | .rdBurst => true

/-- `i` is well formed. -/
abbrev WellFormed (i : Instr) : Prop := i.wellFormed = true

end Sys2Proof
end

