-- ==== Sys2Proof/Decode.lean ====
section
/-! DEFINITION. The command byte and the frame of a transaction (30_encoding.md R70 to R76): the decoder, total on any bytes and refusing
every byte outside the table, and after it the encoder, written from the framing rule R71. -/
namespace Sys2Proof

/-- Index k of a register in the burst order (20_memory.md R50, R51). -/
def Reg.index : Reg → Nat
  | .sec => 0 | .min => 1 | .hour => 2 | .date => 3 | .month => 4 | .wday => 5 | .year => 6 | .wp => 7

/-- The eight registers in burst order (20_memory.md R51). -/
def Reg.all : List Reg := [.sec, .min, .hour, .date, .month, .wday, .year, .wp]

/-- The seven calendar registers in register order: `A(k)`, k = 0..6 (42_rtc_facade.md R204, R206). -/
def Reg.calendar : List Reg := [.sec, .min, .hour, .date, .month, .wday, .year]

/-- The register address field of a register (20_memory.md R50). -/
def Reg.field (p : Params) : Reg → Byte
  | .sec => p.aSec | .min => p.aMin | .hour => p.aHour | .date => p.aDate
  | .month => p.aMonth | .wday => p.aWday | .year => p.aYear | .wp => p.aWp

/-- The number by which the model keeps register `CR[k]` in the chip's register space: k itself (10_state.md R37). A request reaches it through its
address field, a parameter (20_memory.md R50). -/
def Reg.addr (r : Reg) : Nat := r.index

/-- Bytes of data a length stands for. -/
def DataLen.count : DataLen → Nat
  | .one => 1
  | .eight => 8

/-- `cmdRead(a)` (30_encoding.md R71). -/
def cmdRead (p : Params) (a : Byte) : Byte := a ||| p.cmdReadBit
/-- `cmdWrite(a)` (30_encoding.md R71). -/
def cmdWrite (p : Params) (a : Byte) : Byte := a ||| p.cmdWriteBit
/-- `BURST_READ_ADDR` (30_encoding.md R71). -/
def burstReadAddr (p : Params) : Byte := cmdRead p p.aBurst
/-- `BURST_WRITE_ADDR` (30_encoding.md R71). -/
def burstWriteAddr (p : Params) : Byte := cmdWrite p p.aBurst

/-- The 18 admitted commands (30_encoding.md R74). -/
def Command.all : List Command := Reg.all.map .read ++ (Reg.all.map .write ++ [.readBurst, .writeBurst])

/-- The command byte of an admitted command (30_encoding.md R71, R74). -/
def Command.byte (p : Params) : Command → Byte
  | .read r => cmdRead p (r.field p)
  | .write r => cmdWrite p (r.field p)
  | .readBurst => burstReadAddr p
  | .writeBurst => burstWriteAddr p

/-- The direction of an admitted command (30_encoding.md R72, R74). -/
def Command.direction : Command → Direction
  | .read _ => .read
  | .readBurst => .read
  | .write _ => .write
  | .writeBurst => .write

/-- The data length of an admitted command (30_encoding.md R74, R75). -/
def Command.len : Command → DataLen
  | .read _ => .one
  | .write _ => .one
  | .readBurst => .eight
  | .writeBurst => .eight

/-- Parameters that tell the 18 commands apart (30_encoding.md R74): no two of their bytes are equal. -/
def Params.wf (p : Params) : Bool := decide (Command.all.map (Command.byte p)).Nodup

/-- Decoding of a command byte: the admitted command whose byte it is, by R71 and the parameters. Every other byte is refused (R74, R76). -/
def decodeCommand (p : Params) (c : Byte) : Option Command := Command.all.find? fun k => k.byte p == c

/-- `isRead(c)` (30_encoding.md R72). Under the default parameters this is bit 0 of an admitted command byte. -/
def isRead (p : Params) (c : Byte) : Bool :=
  match decodeCommand p c with
  | some k => k.direction == .read
  | none => false
/-- `isBurst(c)` (30_encoding.md R73). -/
def isBurst (p : Params) (c : Byte) : Bool := c == burstReadAddr p || c == burstWriteAddr p
/-- `n(c)` (30_encoding.md R75): the data length is a function of the command byte. -/
def dataLen (p : Params) (c : Byte) : DataLen := if isBurst p c then .eight else .one
/-- The direction the command byte carries (30_encoding.md R72). -/
def dirOf (p : Params) (c : Byte) : Direction := if isRead p c then .read else .write

/-- The field `A`, bits 5:1 of a command byte in the default layout (30_encoding.md R70). -/
def regSelect (c : Byte) : Nat := (c.extractLsb 5 1).toNat

/-- The instruction that reads register `r` (40_transfer_engine.md R120). -/
def Instr.readOf : Reg → Instr
  | .sec => .rdSec | .min => .rdMin | .hour => .rdHour | .date => .rdDate
  | .month => .rdMonth | .wday => .rdWday | .year => .rdYear | .wp => .rdWp

/-- The instruction that writes `v` to register `r` (40_transfer_engine.md R121). -/
def Instr.writeOf (r : Reg) (v : Byte) : Instr :=
  match r with
  | .sec => .wrSec v | .min => .wrMin v | .hour => .wrHour v | .date => .wrDate v
  | .month => .wrMonth v | .wday => .wrWday v | .year => .wrYear v | .wp => .wrWp v

/-- The decoder: one instruction from the front of a byte list, and the bytes after it. A write's data bytes follow the command byte (R70);
a read's come from the chip. -/
def decode (p : Params) : List Byte → Option (Instr × List Byte)
  | [] => none
  | c :: rest =>
    match decodeCommand p c with
    | none => none
    | some (.read r) => some (.readOf r, rest)
    | some .readBurst => some (.rdBurst, rest)
    | some (.write r) =>
      match rest with
      | [] => none
      | v :: rest' => some (.writeOf r v, rest')
    | some .writeBurst => if 8 ≤ rest.length then some (.wrBurst (rest.take 8), rest.drop 8) else none

/-- The encoder: command byte by R71, then the data bytes of a write. -/
def encode (p : Params) : Instr → List Byte
  | .wrSec v => [cmdWrite p p.aSec, v]
  | .rdSec => [cmdRead p p.aSec]
  | .wrMin v => [cmdWrite p p.aMin, v]
  | .rdMin => [cmdRead p p.aMin]
  | .wrHour v => [cmdWrite p p.aHour, v]
  | .rdHour => [cmdRead p p.aHour]
  | .wrDate v => [cmdWrite p p.aDate, v]
  | .rdDate => [cmdRead p p.aDate]
  | .wrMonth v => [cmdWrite p p.aMonth, v]
  | .rdMonth => [cmdRead p p.aMonth]
  | .wrWday v => [cmdWrite p p.aWday, v]
  | .rdWday => [cmdRead p p.aWday]
  | .wrYear v => [cmdWrite p p.aYear, v]
  | .rdYear => [cmdRead p p.aYear]
  | .wrWp v => [cmdWrite p p.aWp, v]
  | .rdWp => [cmdRead p p.aWp]
  | .wrBurst bytes => burstWriteAddr p :: bytes
  | .rdBurst => [burstReadAddr p]

/-- The bytes of a table word: `nbits` bits of `w`, every higher bit 0, up to the longest instruction (9 bytes), the first at the lowest
place. -/
def tableBytes (nbits w : Nat) : List Byte :=
  (List.range 9).map fun k => BitVec.ofNat 8 ((w % 2 ^ nbits) / 2 ^ (8 * k))

/-- Bytes a frame with command byte `c` has when the host hands it over: the command byte, and a write's data bytes (R70, R75). -/
def frameLength (p : Params) (c : Byte) : Nat := 1 + (if isRead p c then 0 else (dataLen p c).count)

/-- The bytes of exactly one instruction at the front of `bytes`. -/
def oneFrame (p : Params) : List Byte → List Byte
  | [] => []
  | c :: rest => (c :: rest).take (frameLength p c)

/-- The instruction the decoder reads from a row of spec/opcode_table.json, whose bytes are those of the default parameters. -/
def decodeTableWord (nbits w : Nat) : Option Instr := (decode .default (tableBytes nbits w)).map Prod.fst

end Sys2Proof
end

