-- ==== Sys2Proof/Machine/State.lean ====
section
/-! DEFINITION. The machine's state as plain data (10_state.md R20 to R40), the reasons a step can stop, and the state after reset. -/
namespace Sys2Proof.Machine

open Sys2Proof

/-! ## Lines and events (00_scope.md R10, 10_state.md R21) -/

/-- One of the three lines. -/
inductive LineId where
  | ce | clk | data
  deriving DecidableEq, Repr

/-- A line's direction: `In` or `Out`. -/
inductive LineDir where
  | inp | out
  deriving DecidableEq, Repr

/-- A line handle (10_state.md R21). `level` is the driven level when `dir = out`, the last sampled one when `dir = inp`. -/
structure Line where
  dir : LineDir
  level : Bool
  deriving DecidableEq, Repr

/-- The four named delays (00_scope.md R8). -/
inductive Delay where
  | ceSetup | dataSetup | clkHigh | clkLow
  deriving DecidableEq, Repr

/-- An event as the test double records it (00_scope.md R10, 60_exceptions.md R247): `get` carries the level it returned. -/
inductive Event where
  | dir (l : LineId) (d : LineDir)
  | set (l : LineId) (v : Bool)
  | get (l : LineId) (v : Bool)
  | wait (T : Delay)
  deriving DecidableEq, Repr

/-- A micro-op: an event still to be emitted. `sample k i` is `s <- GET(DATA); buf[k] <- buf[k] | (s << i)`
(40_transfer_engine.md R109). -/
inductive MicroOp where
  | dir (l : LineId) (d : LineDir)
  | set (l : LineId) (v : Bool)
  | sample (k i : Nat)
  | wait (T : Delay)
  deriving DecidableEq, Repr

/-! ## Control and status items (10_state.md R26 to R35) -/

inductive Phase where
  | idle | busy
  deriving DecidableEq, Repr

/-- The hour encoding (10_state.md R32). -/
inductive HourMode where
  | h24 | h12
  deriving DecidableEq, Repr

/-- 10_state.md R33. -/
inductive DevState where
  | unbound | initialising | ready | failed
  deriving DecidableEq, Repr

/-- 10_state.md R34. -/
inductive WpRecord where
  | unknown | wasSet | wasClear
  deriving DecidableEq, Repr

/-! ## The calendar's data (10_state.md R30, 41_calendar_codec.md R152) -/

/-- Wall-Clock Time in the caller's convention: unbounded integers (10_state.md R30). -/
structure WallClock where
  sec : Int
  min : Int
  hour : Int
  mday : Int
  mon : Int
  wday : Int
  year : Int
  deriving DecidableEq, Repr

/-- The seven calendar register bytes `raw[0..6]` (41_calendar_codec.md R152). -/
structure RawTime where
  sec : Byte
  min : Byte
  hour : Byte
  date : Byte
  month : Byte
  wday : Byte
  year : Byte
  deriving DecidableEq, Repr

/-! ## The chip (10_state.md R37, R39, 20_memory.md R50 to R61) -/

/-- The chip's register space: (address field, byte) pairs, addresses strictly rising, none that holds what an unlisted address reads as. -/
abbrev Memory := List Host.Cell

/-- Who answers `GET(DATA)` (20_memory.md R60, R61, 60_exceptions.md R247): the unconstrained oracle, which may return any level; the reference
oracle, which answers from the registers and whose time stands still; `running`, which answers from them too and whose time goes on (what tearing
needs, 70_reset_and_hazards.md R269); or a test double that replays the given levels. -/
inductive Oracle where
  | unconstrained
  | reference
  | running
  | replay (levels : List Bool)
  deriving DecidableEq, Repr

/-- The Chip agent. `ticks` holds a premise on what the chip's timekeeping does before each of the transactions to come (20_memory.md R61):
nothing, or new contents of `CR[0..6]`; past its end that is a draw, and under the reference oracle it is nothing. `bitPos` counts the CLK rising edges
since CE rose (10_state.md R39 (c)). -/
structure Chip where
  oracle : Oracle
  cr : Memory
  ticks : List (Option RawTime)
  bitPos : Nat
  deriving DecidableEq, Repr

/-! ## Requests and their outcomes (30_encoding.md R87, 60_exceptions.md R230) -/

/-- A line binding offered to INIT: an opaque handle, and whether the external binding mechanism can acquire and configure it
(42_rtc_facade.md R202, 60_exceptions.md R231, R243). -/
structure Binding where
  handle : Nat
  acquirable : Bool
  deriving DecidableEq, Repr

/-- The requests of 30_encoding.md R87, unbind (42_rtc_facade.md R210), and the host's power cycle (60_exceptions.md R248). -/
inductive Request where
  | transact (c : Byte) (d : Direction) (n : Nat) (bytes : List Byte)
  | rdb (a : Byte)
  | wrb (a v : Byte)
  | rdBurst
  | wrBurst (bytes : List Byte)
  | decode (raw : RawTime)
  | encode (t : WallClock)
  | clrWp
  | init (ce clk data : Binding) (burst : Bool) (hourMode : HourMode)
  | readTime
  | setTime (t : WallClock)
  | unbind
  | powerCycle
  deriving DecidableEq, Repr

/-- What waits for the engine: a request of 30_encoding.md R87, or one instruction as its frame of raw bytes (R70), which step decodes and gives to exec
(log entry 6). -/
inductive Waiting where
  | frame (bytes : List Byte)
  | request (r : Request)
  deriving DecidableEq, Repr

/-- The facade request in progress, and what of it is still to come (42_rtc_facade.md R202 to R206, R211): INIT's idle-setting events; the read and
the write of the write-protect clear, INIT's or a CLRWP's; READTIME's discrete reads, `got` so far and the register of the one that comes or runs,
or its burst; SETTIME's discrete writes, the one that comes or runs first, or its burst. -/
inductive Task where
  | lines (op : MicroOp) (rest : List MicroOp)
  | readWp (init : Bool)
  | clearWp (init : Bool)
  | gather (got : List Byte) (r : Reg) (rest : List Reg)
  | gatherBurst
  | spread (r : Reg) (v : Byte) (rest : List (Reg × Byte))
  | spreadBurst (bytes : List Byte)
  deriving DecidableEq, Repr

/-- The refusal reasons of 60_exceptions.md R234. -/
inductive RefusalReason where
  | notBound | notReady | notUnbound | unknownCommand | directionMismatch | lengthMismatch | negativeEncode
  deriving DecidableEq, Repr

/-- The value a request returns. -/
inductive Result where
  | none
  | bytes (bs : List Byte)
  | time (t : WallClock)
  deriving DecidableEq, Repr

/-- A request's outcome (60_exceptions.md R230). A refusal is recorded with its reason (R234), and the device accepts the next request
(R238). -/
inductive Reply where
  | ok (r : Result)
  | bindingError
  | invalidArgument
  | refused (why : RefusalReason)
  deriving DecidableEq, Repr

/-- What admission says of a request (40_transfer_engine.md R102). -/
inductive Admission where
  | accept
  | hold
  | refuse (why : RefusalReason)
  deriving DecidableEq, Repr

/-! ## The state -/

structure State where
  /-- The implementation parameters (00_scope.md R8): an argument of the machine, which no step changes. -/
  params : Params
  /-- The three line handles (10_state.md R21). -/
  ce : Line
  clk : Line
  data : Line
  /-- Sequencing state (10_state.md R26, R27). -/
  phase : Phase
  mpc : Nat
  /-- Transaction registers `cmd`, `dir`, `n`, `buf[0..7]` (10_state.md R28). -/
  cmd : Byte
  dir : Direction
  len : DataLen
  buf : Vector Byte 8
  /-- Configuration and control (10_state.md R31 to R34); `none` is the table's "unset" (R40). -/
  burstMode : Option Bool
  hourMode : Option HourMode
  devState : DevState
  wpRecord : WpRecord
  /-- The acquired line bindings; `none` is not acquired (42_rtc_facade.md R202, R210). -/
  ceBinding : Option Nat
  clkBinding : Option Nat
  dataBinding : Option Nat
  /-- The Chip agent (10_state.md R37, R39). -/
  chip : Chip
  /-- The facade request in progress (42_rtc_facade.md R211, 60_exceptions.md R242); `none` when there is none. -/
  task : Option Task
  /-- Host requests that wait, in the order they proceed (10_state.md R39 (a), 60_exceptions.md R242): those that were made while another ran, and
  those the host makes when their turn comes. -/
  pending : List Waiting
  /-- What other callers ask in each step to come in which the engine or a facade request is at work: nothing, or one request (60_exceptions.md R236,
  R242). -/
  arrivals : List (Option Waiting)
  /-- The observation (60_exceptions.md R247), newest first. -/
  trace : List Event
  replies : List Reply
  /-- The model's own: how many free values have been drawn (log entry 5). -/
  draws : Nat
  deriving DecidableEq, Repr

/-- Why the machine stops. No run from reset reaches one of these. All are safe: the model stops where the spec asks for a fault or gives
no meaning. -/
inductive Fault where
  /-- Raised by a `SET` on a line that is an input (40_transfer_engine.md R100, 93_implementation_defined.md I20). Safe. -/
  | setOnInput (l : LineId)
  /-- Raised by a `GET` on a line that is an output (R100, I20). Safe. -/
  | getOnOutput (l : LineId)
  /-- Raised by an engine step of a Busy engine whose `mpc` is not the index of an event (10_state.md R27). Safe. -/
  | noEvent (mpc : Nat)
  deriving DecidableEq, Repr

/-- Why the machine gives an instruction no meaning. -/
inductive Refusal where
  /-- Raised by exec's arm of an instruction that has no meaning yet (none has this arm). Safe. -/
  | notModelled (mnemonic : String)
  deriving DecidableEq, Repr

/-- The machine right after reset: the creation of a binding (70_reset_and_hazards.md R260, 10_state.md R40). DESIGN CHOICE (log entries 2, 3, 4,
5, 12, 21, 25): the values of the items R40 calls unspecified. -/
def State.reset : State where
  params := .default
  ce := ⟨.inp, false⟩
  clk := ⟨.inp, false⟩
  data := ⟨.inp, false⟩
  phase := .idle
  mpc := 0
  cmd := 0#8
  dir := .read
  len := .one
  buf := #v[0#8, 0#8, 0#8, 0#8, 0#8, 0#8, 0#8, 0#8]
  burstMode := none
  hourMode := none
  devState := .unbound
  wpRecord := .unknown
  ceBinding := none
  clkBinding := none
  dataBinding := none
  chip := ⟨.unconstrained, [], [], 0⟩
  task := none
  pending := []
  arrivals := []
  trace := []
  replies := []
  draws := 0

end Sys2Proof.Machine
end

