-- ==== Sys2Proof/Machine/Flags.lean ====
section
/-! DEFINITION. The bits the block tests. It has no status flags and no condition codes (10_state.md R38): what it tests is the write-protect
guard bit and the bits of the 12-hour hours byte; a request's outcome stands in for a status and has a code. -/
namespace Sys2Proof.Machine

open Sys2Proof

/-- Is the guard bit set in the write-protect byte `w` (30_encoding.md R86, 41_calendar_codec.md R174)? -/
def guardSet (p : Params) (w : Byte) : Bool := (w &&& p.wpGuardMask) != 0#8

/-- The AM/PM bit of a 12-hour hours byte (30_encoding.md R81): 1 is PM. -/
def pmBit (h : Byte) : Bool := h.getLsbD Config.hour12PmBit

/-- The 12-hour mode flag as a byte (30_encoding.md R81). -/
def hour12Flag : Byte := 1#8 <<< Config.hour12ModeBit

/-- The AM/PM bit put in its place (30_encoding.md R81, 41_calendar_codec.md R166). -/
def pmField (pm : Bool) : Byte := (if pm then 1#8 else 0#8) <<< Config.hour12PmBit

/-- The outcome codes of 60_exceptions.md R230; a refusal has none. -/
def Reply.code : Reply → Option Nat
  | .ok _ => some 0
  | .bindingError => some 1
  | .invalidArgument => some 2
  | .refused _ => none

end Sys2Proof.Machine
end

