-- ==== Sys2Proof/Machine/Operands.lean ====
section
/-! DEFINITION. Operand forms: the register address field of `RDB`/`WRB`, the latched data bytes of a transaction, and the seven calendar
bytes as a list. -/
namespace Sys2Proof.Machine

open Sys2Proof

/-- The register a register address field names; any other byte names none (20_memory.md R56, 40_transfer_engine.md R120). The check is on the
field itself, before framing. -/
def regOfField (p : Params) (a : Byte) : Option Reg := Reg.all.find? fun r => r.field p == a

/-- The eight buffer entries, given one by one. -/
def bufOf (f : Nat → Byte) : Vector Byte 8 := #v[f 0, f 1, f 2, f 3, f 4, f 5, f 6, f 7]

/-- The byte `buf[k]` (10_state.md R28). -/
def bufByte (b : Vector Byte 8) (k : Nat) : Byte := b[k]?.getD 0#8

/-- The buffer as acceptance leaves it (40_transfer_engine.md R102): a write latches the caller's bytes, a read clears, and bytes `n..7` stay. -/
def latch (d : Direction) (n : DataLen) (bytes : List Byte) (b : Vector Byte 8) : Vector Byte 8 :=
  bufOf fun k =>
    if k < n.count then
      match d with
      | .write => bytes.getD k 0#8
      | .read => 0#8
    else bufByte b k

/-- The first `n` buffer bytes: what a read returns (40_transfer_engine.md R101). -/
def bufBytes (b : Vector Byte 8) (n : DataLen) : List Byte := (List.range n.count).map (bufByte b)

/-- `buf[k] <- buf[k] | (s << i)` (40_transfer_engine.md R109). -/
def orBit (b : Vector Byte 8) (k i : Nat) (s : Bool) : Vector Byte 8 :=
  bufOf fun j => if j = k then bufByte b j ||| ((if s then 1#8 else 0#8) <<< i) else bufByte b j

/-- `raw[0..6]` in register order (41_calendar_codec.md R152). -/
def RawTime.toList (t : RawTime) : List Byte := [t.sec, t.min, t.hour, t.date, t.month, t.wday, t.year]

/-- The first seven bytes of a list as `raw[0..6]`. -/
def RawTime.ofList (bs : List Byte) : RawTime :=
  ⟨bs.getD 0 0#8, bs.getD 1 0#8, bs.getD 2 0#8, bs.getD 3 0#8, bs.getD 4 0#8, bs.getD 5 0#8, bs.getD 6 0#8⟩

/-- `raw[k]` of the calendar register `r`; the write-protect register is no part of it. -/
def RawTime.get (t : RawTime) : Reg → Option Byte
  | .sec => some t.sec | .min => some t.min | .hour => some t.hour | .date => some t.date
  | .month => some t.month | .wday => some t.wday | .year => some t.year | .wp => none

end Sys2Proof.Machine
end

