-- ==== Sys2Proof/Machine/Events.lean ====
section
/-! DEFINITION. The fixed event sequence of a transaction (40_transfer_engine.md R103 to R113) as a list of micro-ops, indexed by `mpc`, and the
idle-setting events of INIT. -/
namespace Sys2Proof.Machine

open Sys2Proof

/-- The bits of a byte in wire order, least-significant first (20_memory.md R53). -/
def byteBits (v : Byte) : List Bool := (List.range 8).map fun i => v.getLsbD i

/-- Start phase, `mpc` 0..4 (40_transfer_engine.md R103). -/
def startOps : List MicroOp :=
  [.dir .data .out, .set .data false, .set .clk false, .set .ce true, .wait .ceSetup]

/-- `SHIFTBIT(b)`, six events (40_transfer_engine.md R106). -/
def shiftBit (b : Bool) : List MicroOp :=
  [.set .data b, .wait .dataSetup, .set .clk true, .wait .clkHigh, .set .clk false, .wait .clkLow]

/-- Shifting out the bytes `bs`, each LSB first, in order (40_transfer_engine.md R105, R107, 20_memory.md R54). -/
def shiftBytes (bs : List Byte) : List MicroOp := (bs.flatMap byteBits).flatMap shiftBit

/-- One bit of the read data phase, four events (40_transfer_engine.md R109). -/
def readBit (k i : Nat) : List MicroOp :=
  [.set .clk false, .wait .clkLow, .set .clk true, .sample k i]

/-- Byte and bit index of each sample of a read of `n` bytes, in order (40_transfer_engine.md R109, R110). -/
def samplePlaces (n : Nat) : List (Nat × Nat) :=
  (List.range n).flatMap fun k => (List.range 8).map fun i => (k, i)

/-- The read data phase (40_transfer_engine.md R109). -/
def readOps (n : Nat) : List MicroOp := (samplePlaces n).flatMap fun p => readBit p.1 p.2

/-- Stop phase, four events, the same for both directions (40_transfer_engine.md R111). -/
def stopOps : List MicroOp :=
  [.set .ce false, .set .clk false, .dir .data .out, .set .data false]

/-- The data phase: shift out the buffer, or turn DATA around and sample (40_transfer_engine.md R107 to R109). -/
def dataOps (d : Direction) (n : DataLen) (b : Vector Byte 8) : List MicroOp :=
  match d with
  | .write => shiftBytes (bufBytes b n)
  | .read => .dir .data .inp :: readOps n.count

/-- `ev(0) .. ev(L-1)`: the whole transaction (40_transfer_engine.md R112, R113). -/
def transactionOps (c : Byte) (d : Direction) (n : DataLen) (b : Vector Byte 8) : List MicroOp :=
  startOps ++ (shiftBytes [c] ++ (dataOps d n b ++ stopOps))

/-- Length of the event sequence (10_state.md R27, 40_transfer_engine.md R113). -/
def transactionLength (d : Direction) (n : DataLen) : Nat :=
  match d with
  | .write => 57 + 48 * n.count
  | .read => 58 + 32 * n.count

/-- Index of the first stop event (40_transfer_engine.md R111). -/
def stopIndex (d : Direction) (n : DataLen) : Nat :=
  match d with
  | .write => 53 + 48 * n.count
  | .read => 54 + 32 * n.count

/-- The six idle-setting events of INIT (42_rtc_facade.md R202): CE first. -/
def initOps : List MicroOp :=
  [.dir .ce .out, .set .ce false, .dir .clk .out, .set .clk false, .dir .data .out, .set .data false]

end Sys2Proof.Machine
end

