-- ==== Sys2Proof/Machine/Ops.lean ====
section
/-! DEFINITION. The named operations over the chip's register space, the lines and the engine: one event (40_transfer_engine.md R100), one engine
step (R114), admission (R102), the whole transaction (R112), and a request's outcome (60_exceptions.md R230), which stands where another
machine takes an exception: an error saves nothing and vectors nowhere (R237), and there is no return (R238). -/
namespace Sys2Proof.Machine

open Sys2Proof

/-! ## The chip's register space (20_memory.md R50) -/

/-- Reading one register byte; an unlisted address reads as 0x00 (DESIGN CHOICE, log entry 3). -/
def Memory.read : Memory → Nat → Byte
  | [], _ => 0#8
  | (b, w) :: m, a => if a = b then w else Memory.read m a

/-- Writing one register byte, keeping the canonical form. -/
def Memory.write : Memory → Nat → Byte → Memory
  | [], a, v => if v = 0#8 then [] else [(a, v)]
  | (b, w) :: m, a, v =>
    if a < b then (if v = 0#8 then (b, w) :: m else (a, v) :: (b, w) :: m)
    else if a = b then (if v = 0#8 then m else (a, v) :: m)
    else (b, w) :: Memory.write m a v

/-- Is `a` an address of the register space (20_memory.md R50, R62)? -/
def isRegAddr (a : Nat) : Bool := Reg.all.any fun r => r.addr == a

/-- The canonical form from address `lo` on: addresses rise, no entry holds 0x00, and every address exists. -/
def Memory.wfFrom : Nat → Memory → Bool
  | _, [] => true
  | lo, (a, v) :: m => decide (lo ≤ a) && (v != 0#8) && isRegAddr a && Memory.wfFrom (a + 1) m

/-- The canonical form. -/
def Memory.wf (m : Memory) : Bool := Memory.wfFrom 0 m

/-- `CR[k]` of register `r`. -/
def Memory.reg (m : Memory) (r : Reg) : Byte := m.read r.addr

/-- `CR[k] <- v` for register `r`. -/
def Memory.setReg (m : Memory) (r : Reg) (v : Byte) : Memory := m.write r.addr v

/-- `CR[k] <- f k` for each register of `rs` in turn. -/
def Memory.setRegs (f : Nat → Byte) : List Reg → Memory → Memory
  | [], m => m
  | r :: rs, m => Memory.setRegs f rs (m.setReg r (f r.index))

/-- Is the chip write-protected: `CR[7] & WP_GUARD_MASK != 0` (20_memory.md R59)? -/
def Memory.guarded (p : Params) (m : Memory) : Bool := guardSet p (m.reg .wp)

/-! ## The chip agent -/

/-- Does the chip's time stand still under this oracle (20_memory.md R61)? -/
def Oracle.frozen : Oracle → Bool
  | .reference => true
  | .unconstrained => false
  | .running => false
  | .replay _ => false

/-- The chip's timekeeping before a transaction, and the number of draws after it (20_memory.md R61; log entry 12): nothing under the reference
oracle; else what `ticks` says, and past its end a draw: a free value in each of `CR[0..6]`. -/
def Chip.tick (c : Chip) (draws : Nat) : Chip × Nat :=
  if c.oracle.frozen then (c, draws)
  else
    match c.ticks with
    | [] => ({ c with cr := c.cr.setRegs (fun k => Config.freeByte (draws + k)) Reg.calendar }, draws + 7)
    | none :: ts => ({ c with ticks := ts }, draws)
    | some t :: ts => ({ c with ticks := ts, cr := c.cr.setRegs (fun k => t.toList.getD k 0#8) Reg.calendar }, draws)

/-- The response R of the reference oracle to command `c` (20_memory.md R60). -/
def response (p : Params) (m : Memory) (c : Byte) : List Byte :=
  match decodeCommand p c with
  | some (.read r) => [m.reg r]
  | some .readBurst => Reg.all.map m.reg
  | some (.write _) => []
  | some .writeBurst => []
  | none => []

/-- The level the reference oracle answers: bit `j mod 8` of byte `j div 8` of R. The `j`-th read bit follows the chip's
`j + 1`-th rising edge after the 8 of the command (20_memory.md R60). -/
def referenceBit (p : Params) (m : Memory) (c : Byte) (bitPos : Nat) : Bool :=
  ((response p m c).getD ((bitPos - 9) / 8) 0#8).getLsbD ((bitPos - 9) % 8)

/-- The level a `GET(DATA)` returns, with the chip and the number of draws after it (20_memory.md R60, 60_exceptions.md R247). A draw takes the
next free value. -/
def Chip.answer (x : Chip) (p : Params) (cmd : Byte) (draws : Nat) : Bool × Chip × Nat :=
  match x.oracle with
  | .reference => (referenceBit p x.cr cmd x.bitPos, x, draws)
  | .running => (referenceBit p x.cr cmd x.bitPos, x, draws)
  | .replay (b :: bs) => (b, { x with oracle := .replay bs }, draws)
  | .replay [] => (Config.freeBit draws, x, draws + 1)
  | .unconstrained => (Config.freeBit draws, x, draws + 1)

/-- The registers, and the number of draws, after a write transaction with command `cmd` and buffer `buf` (20_memory.md R58, R59, R60): a
discrete write is blocked by the guard bit but for register 7; a burst write while the guard bit is set leaves a free value in every
register. -/
def Memory.takeWrite (m : Memory) (p : Params) (cmd : Byte) (buf : Vector Byte 8) (draws : Nat) : Memory × Nat :=
  match decodeCommand p cmd with
  | some (.write r) => if m.guarded p && r != .wp then (m, draws) else (m.setReg r (bufByte buf 0), draws)
  | some .writeBurst =>
    if m.guarded p then (m.setRegs (fun k => Config.freeByte (draws + k)) Reg.all, draws + 8)
    else (m.setRegs (bufByte buf) Reg.all, draws)
  | some (.read _) => (m, draws)
  | some .readBurst => (m, draws)
  | none => (m, draws)

/-- The chip's side of a driven level: it counts CLK rising edges while CE is high (40_transfer_engine.md R117), and when CE falls at the end of
a write transaction it takes the bytes in (20_memory.md R60). Its bit position does not survive CE low (10_state.md R39). The result is the
chip and the number of draws. -/
def State.chipSees (s : State) (l : LineId) (v : Bool) : Chip × Nat :=
  match l, v with
  | .clk, true =>
    (if s.ce.level && !s.clk.level then { s.chip with bitPos := s.chip.bitPos + 1 } else s.chip, s.draws)
  | .ce, true => ({ s.chip with bitPos := 0 }, s.draws)
  | .ce, false =>
    if s.ce.level && s.phase == .busy && s.dir == .write then
      let (m, k) := s.chip.cr.takeWrite s.params s.cmd s.buf s.draws
      ({ s.chip with cr := m, bitPos := 0 }, k)
    else ({ s.chip with bitPos := 0 }, s.draws)
  | _, _ => (s.chip, s.draws)

/-! ## Lines and events (40_transfer_engine.md R100) -/

def State.line (s : State) : LineId → Line
  | .ce => s.ce
  | .clk => s.clk
  | .data => s.data

def State.setLine (s : State) (l : LineId) (x : Line) : State :=
  match l with
  | .ce => { s with ce := x }
  | .clk => { s with clk := x }
  | .data => { s with data := x }

/-- The event enters the observation (60_exceptions.md R247). -/
def State.emit (s : State) (e : Event) : State := { s with trace := e :: s.trace }

/-- One event, with its preconditions (40_transfer_engine.md R100, R109). -/
def perform (op : MicroOp) (s : State) : Except Fault State :=
  match op with
  | .dir l d => .ok ((s.setLine l ⟨d, (s.line l).level⟩).emit (.dir l d))
  | .set l v =>
    match (s.line l).dir with
    | .inp => .error (.setOnInput l)
    | .out =>
      let (x, k) := s.chipSees l v
      .ok (({ s with chip := x, draws := k }.setLine l ⟨.out, v⟩).emit (.set l v))
  | .sample k i =>
    match s.data.dir with
    | .out => .error (.getOnOutput .data)
    | .inp =>
      let (b, x, n) := s.chip.answer s.params s.cmd s.draws
      .ok ({ s with chip := x, draws := n, data := ⟨.inp, b⟩, buf := orBit s.buf k i b }.emit (.get .data b))
  | .wait T => .ok (s.emit (.wait T))

/-! ## The engine -/

/-- Event `op` at index `mpc`: emit it, then `mpc <- mpc + 1` (40_transfer_engine.md R114). -/
def engineOp (op : MicroOp) (s : State) : Except Fault State :=
  match perform op s with
  | .ok s1 => .ok { s1 with mpc := s1.mpc + 1 }
  | .error f => .error f

/-- Events of a transaction, in `mpc` order. -/
def runOps : List MicroOp → State → Except Fault State
  | [], s => .ok s
  | op :: ops, s =>
    match engineOp op s with
    | .ok s1 => runOps ops s1
    | .error f => .error f

/-- The event sequence of the latched transaction (40_transfer_engine.md R114). -/
def State.ops (s : State) : List MicroOp := transactionOps s.cmd s.dir s.len s.buf

/-- One engine step while Busy (40_transfer_engine.md R114): emit `ev(mpc)`, advance, and turn Idle after the last event. -/
def engineStep (s : State) : Except Fault State :=
  match s.ops[s.mpc]? with
  | none => .error (.noEvent s.mpc)
  | some op =>
    match engineOp op s with
    | .error f => .error f
    | .ok s1 => .ok (if s1.mpc = transactionLength s1.dir s1.len then { s1 with phase := .idle } else s1)

/-- `k` engine steps. -/
def engineSteps : Nat → State → Except Fault State
  | 0, s => .ok s
  | k + 1, s =>
    match engineStep s with
    | .ok s1 => engineSteps k s1
    | .error f => .error f

/-- Is a transaction admitted in this device state: A0 (40_transfer_engine.md R102, 10_state.md R33)? -/
def State.bound (s : State) : Bool :=
  match s.devState with
  | .initialising => true
  | .ready => true
  | .unbound => false
  | .failed => false

/-- Is a request in progress, a transaction or a facade request (60_exceptions.md R242)? A CLRWP on its own counts as one until it has ended, between its
read and its write too: the model's choice (DESIGN CHOICE, log entry 31). -/
def State.engaged (s : State) : Bool := s.phase == .busy || s.task.isSome

/-- Checks A2 to A5 on a request's own operands (40_transfer_engine.md R102). -/
def operandCheck (p : Params) (c : Byte) (d : Direction) (n : Nat) (bytes : List Byte) : Option RefusalReason :=
  if (decodeCommand p c).isNone then some .unknownCommand
  else if d ≠ dirOf p c then some .directionMismatch
  else if n ≠ (dataLen p c).count then some .lengthMismatch
  else if d = .write ∧ bytes.length ≠ n then some .lengthMismatch
  else none

/-- Admission of `transact`, A0 to A5 in order (40_transfer_engine.md R102, 60_exceptions.md R236). -/
def admission (c : Byte) (d : Direction) (n : Nat) (bytes : List Byte) (s : State) : Admission :=
  if s.bound = false then .refuse .notBound
  else if s.engaged then .hold
  else
    match operandCheck s.params c d n bytes with
    | some why => .refuse why
    | none => .accept

/-- Acceptance (40_transfer_engine.md R102): latch and turn Busy. What the chip's timekeeping does between two transactions happens here
(20_memory.md R61). -/
def accept (c : Byte) (d : Direction) (bytes : List Byte) (s : State) : State :=
  { s with
    chip := (s.chip.tick s.draws).1
    draws := (s.chip.tick s.draws).2
    cmd := c
    dir := d
    len := dataLen s.params c
    buf := latch d (dataLen s.params c) bytes s.buf
    phase := .busy
    mpc := 0 }

/-- `transact` in full, from acceptance to Idle (40_transfer_engine.md R112), as one function: the reference for the engine's own steps, by which the
machine runs it (R114). The bytes read are in `buf`. -/
def transact (c : Byte) (d : Direction) (bytes : List Byte) (s : State) : Except Fault State :=
  match runOps (accept c d bytes s).ops (accept c d bytes s) with
  | .ok s1 => .ok { s1 with phase := .idle }
  | .error f => .error f

/-! ## Outcomes (60_exceptions.md R230, R234) -/

/-- A request ends with outcome `r`. -/
def State.reply (s : State) (r : Reply) : State := { s with replies := r :: s.replies }

/-- A refused request: a mark with its reason, no event, no other change (60_exceptions.md R234; log entry 7). -/
def State.refuse (s : State) (why : RefusalReason) : State := s.reply (.refused why)

/-- A request held while another is in progress: it stays the next to proceed (60_exceptions.md R242; log entry 11). -/
def State.hold (s : State) (w : Waiting) : State := { s with pending := w :: s.pending }

/-- What a finished transaction delivers: `buf[0..n-1]` after a read, nothing after a write (40_transfer_engine.md R114). -/
def State.result (s : State) : Result :=
  match s.dir with
  | .read => .bytes (bufBytes s.buf s.len)
  | .write => .none

/-- Deliver the result to the requester (40_transfer_engine.md R114). -/
def State.deliver (s : State) : State := s.reply (.ok s.result)

/-- The machine's outcome of an operation. -/
def toOutcome : Except Fault State → Host.Outcome State Fault Refusal
  | .ok s => .next s
  | .error f => .fault f

/-- A request that is one transaction: admission, and acceptance alone (40_transfer_engine.md R102). The engine's events follow, one a step, and the
last of them delivers the result (00_scope.md R7, R114; log entry 6). `w` is the request itself, held while another is in progress. -/
def serveEngine (w : Waiting) (c : Byte) (d : Direction) (n : Nat) (bytes : List Byte) (s : State) : Except Fault State :=
  match admission c d n bytes s with
  | .refuse why => .ok (s.refuse why)
  | .hold => .ok (s.hold w)
  | .accept => .ok (accept c d bytes s)

/-- One instruction, the framed command `c` with its data bytes (30_encoding.md R70, 40_transfer_engine.md R120 to R123). -/
def engineCommand (c : Byte) (d : Direction) (n : Nat) (bytes : List Byte) (s : State) : Except Fault State :=
  serveEngine (.frame (c :: bytes)) c d n bytes s

/-! ## Line state (10_state.md R24, R40) -/

/-- The idle state of the lines (10_state.md R24). -/
def State.linesIdle (s : State) : Bool :=
  s.ce == ⟨.out, false⟩ && s.clk == ⟨.out, false⟩ && s.data == ⟨.out, false⟩

/-- A free direction. -/
def freeDir (k : Nat) : LineDir := if Config.freeBit k then .out else .inp

/-- Handles no one has configured: any direction, any level (10_state.md R40): six free values. -/
def State.freeLines (s : State) : State :=
  { s with
    ce := ⟨freeDir s.draws, Config.freeBit (s.draws + 1)⟩
    clk := ⟨freeDir (s.draws + 2), Config.freeBit (s.draws + 3)⟩
    data := ⟨freeDir (s.draws + 4), Config.freeBit (s.draws + 5)⟩
    draws := s.draws + 6 }

/-- No line is acquired. -/
def State.release (s : State) : State := { s with ceBinding := none, clkBinding := none, dataBinding := none }

end Sys2Proof.Machine
end

