-- ==== Sys2Proof/Machine/Burst.lean ====
section
/-! DEFINITION. The burst transfers: all eight registers in one transaction (40_transfer_engine.md R122, R123). The meaning is
its acceptance, or what admission says instead; the engine's 314 or 441 steps that follow emit its events and deliver what was read (R114). -/
namespace Sys2Proof.Machine

open Sys2Proof

/-- RD_BURST: `transact(BURST_READ_ADDR, Read, 8, -)` (R122). -/
def execRdBurst (s : State) : Host.Outcome State Fault Refusal := toOutcome (engineCommand (burstReadAddr s.params) .read 8 [] s)
/-- WR_BURST: `transact(BURST_WRITE_ADDR, Write, 8, bytes)` (R123); any other number of bytes is refused (R102 A5). -/
def execWrBurst (bytes : List Byte) (s : State) : Host.Outcome State Fault Refusal := toOutcome (engineCommand (burstWriteAddr s.params) .write 8 bytes s)

end Sys2Proof.Machine
end

