-- ==== Sys2Proof/Machine/Reads.lean ====
section
/-! DEFINITION. The discrete reads RD_SEC .. RD_WP: each is `transact(a | CMD_READ_BIT, Read, 1, -)` (40_transfer_engine.md R120).
The meaning is its acceptance, or what admission says instead; the engine's 90 steps that follow emit its events and deliver the byte (R114). -/
namespace Sys2Proof.Machine

open Sys2Proof

/-- RD_SEC (R120). -/
def execRdSec (s : State) : Host.Outcome State Fault Refusal := toOutcome (engineCommand (cmdRead s.params s.params.aSec) .read 1 [] s)
/-- RD_MIN (R120). -/
def execRdMin (s : State) : Host.Outcome State Fault Refusal := toOutcome (engineCommand (cmdRead s.params s.params.aMin) .read 1 [] s)
/-- RD_HOUR (R120). -/
def execRdHour (s : State) : Host.Outcome State Fault Refusal := toOutcome (engineCommand (cmdRead s.params s.params.aHour) .read 1 [] s)
/-- RD_DATE (R120). -/
def execRdDate (s : State) : Host.Outcome State Fault Refusal := toOutcome (engineCommand (cmdRead s.params s.params.aDate) .read 1 [] s)
/-- RD_MONTH (R120). -/
def execRdMonth (s : State) : Host.Outcome State Fault Refusal := toOutcome (engineCommand (cmdRead s.params s.params.aMonth) .read 1 [] s)
/-- RD_WDAY (R120). -/
def execRdWday (s : State) : Host.Outcome State Fault Refusal := toOutcome (engineCommand (cmdRead s.params s.params.aWday) .read 1 [] s)
/-- RD_YEAR (R120). -/
def execRdYear (s : State) : Host.Outcome State Fault Refusal := toOutcome (engineCommand (cmdRead s.params s.params.aYear) .read 1 [] s)
/-- RD_WP (R120). -/
def execRdWp (s : State) : Host.Outcome State Fault Refusal := toOutcome (engineCommand (cmdRead s.params s.params.aWp) .read 1 [] s)

end Sys2Proof.Machine
end

