-- ==== Sys2Proof/Machine/Writes.lean ====
section
/-! DEFINITION. The discrete writes WR_SEC .. WR_WP: each is `transact(a | CMD_WRITE_BIT, Write, 1, [v])` (40_transfer_engine.md R121).
The meaning is its acceptance, or what admission says instead; the engine's 105 steps that follow emit its events (R114). -/
namespace Sys2Proof.Machine

open Sys2Proof

/-- WR_SEC (R121). -/
def execWrSec (v : Byte) (s : State) : Host.Outcome State Fault Refusal := toOutcome (engineCommand (cmdWrite s.params s.params.aSec) .write 1 [v] s)
/-- WR_MIN (R121). -/
def execWrMin (v : Byte) (s : State) : Host.Outcome State Fault Refusal := toOutcome (engineCommand (cmdWrite s.params s.params.aMin) .write 1 [v] s)
/-- WR_HOUR (R121). -/
def execWrHour (v : Byte) (s : State) : Host.Outcome State Fault Refusal := toOutcome (engineCommand (cmdWrite s.params s.params.aHour) .write 1 [v] s)
/-- WR_DATE (R121). -/
def execWrDate (v : Byte) (s : State) : Host.Outcome State Fault Refusal := toOutcome (engineCommand (cmdWrite s.params s.params.aDate) .write 1 [v] s)
/-- WR_MONTH (R121). -/
def execWrMonth (v : Byte) (s : State) : Host.Outcome State Fault Refusal := toOutcome (engineCommand (cmdWrite s.params s.params.aMonth) .write 1 [v] s)
/-- WR_WDAY (R121). -/
def execWrWday (v : Byte) (s : State) : Host.Outcome State Fault Refusal := toOutcome (engineCommand (cmdWrite s.params s.params.aWday) .write 1 [v] s)
/-- WR_YEAR (R121). -/
def execWrYear (v : Byte) (s : State) : Host.Outcome State Fault Refusal := toOutcome (engineCommand (cmdWrite s.params s.params.aYear) .write 1 [v] s)
/-- WR_WP (R121): writes the write-protect register, whatever the guard bit (20_memory.md R59). -/
def execWrWp (v : Byte) (s : State) : Host.Outcome State Fault Refusal := toOutcome (engineCommand (cmdWrite s.params s.params.aWp) .write 1 [v] s)

end Sys2Proof.Machine
end

