-- ==== Sys2Proof/Machine/Dispatch.lean ====
section
/-! DEFINITION. exec: one arm per row of spec/opcode_table.json. -/
namespace Sys2Proof.Machine

open Sys2Proof

def exec (i : Instr) (s : State) : Host.Outcome State Fault Refusal :=
  match i with
  | .wrSec v => Sys2Proof.Machine.execWrSec v s
  | .rdSec => Sys2Proof.Machine.execRdSec s
  | .wrMin v => Sys2Proof.Machine.execWrMin v s
  | .rdMin => Sys2Proof.Machine.execRdMin s
  | .wrHour v => Sys2Proof.Machine.execWrHour v s
  | .rdHour => Sys2Proof.Machine.execRdHour s
  | .wrDate v => Sys2Proof.Machine.execWrDate v s
  | .rdDate => Sys2Proof.Machine.execRdDate s
  | .wrMonth v => Sys2Proof.Machine.execWrMonth v s
  | .rdMonth => Sys2Proof.Machine.execRdMonth s
  | .wrWday v => Sys2Proof.Machine.execWrWday v s
  | .rdWday => Sys2Proof.Machine.execRdWday s
  | .wrYear v => Sys2Proof.Machine.execWrYear v s
  | .rdYear => Sys2Proof.Machine.execRdYear s
  | .wrWp v => Sys2Proof.Machine.execWrWp v s
  | .rdWp => Sys2Proof.Machine.execRdWp s
  | .wrBurst bytes => Sys2Proof.Machine.execWrBurst bytes s
  | .rdBurst => Sys2Proof.Machine.execRdBurst s

end Sys2Proof.Machine
end

