-- ==== Sys2Proof/Machine/Codec.lean ====
section
/-! DEFINITION. The calendar codec: BCD primitives, `decode`, `encode` (41_calendar_codec.md R150 to R172) and field validation
(42_rtc_facade.md R201). Pure functions of their operands and the configuration (R176). -/
namespace Sys2Proof.Machine

open Sys2Proof

/-- `bcd2bin(b)` (R150): exact, and total on all 256 bytes. -/
def bcd2bin (b : Byte) : Int := (b.extractLsb 7 4).toNat * 10 + (b.extractLsb 3 0).toNat

/-- `bin2bcd(v)` for v >= 0 (R151). For v < 0 the spec leaves it undefined, and `bcdOf` refuses before it gets here. -/
def bin2bcd (v : Nat) : Byte := (BitVec.ofNat 8 (v / 10 % 16) <<< 4) ||| BitVec.ofNat 8 (v % 10)

/-- `bin2bcd` on an integer: nothing for a negative one (R151, R172). -/
def bcdOf (v : Int) : Option Byte := if 0 ≤ v then some (bin2bcd v.toNat) else none

/-- Hours byte to hour (R155, R156), by the configured encoding and never by the data (R176). -/
def decodeHour (m : HourMode) (h : Byte) : Int :=
  match m with
  | .h24 => bcd2bin h
  | .h12 => 12 * (if pmBit h then 1 else 0) + bcd2bin (h &&& 0x1F#8) - 1

/-- `decode(raw[0..6])` (R161). -/
def decodeTime (m : HourMode) (raw : RawTime) : WallClock where
  sec := bcd2bin raw.sec
  min := bcd2bin raw.min
  hour := decodeHour m raw.hour
  mday := bcd2bin raw.date
  mon := bcd2bin raw.month - 1
  wday := bcd2bin raw.wday - 1
  year := Config.yearBase + bcd2bin raw.year

/-- `h12` of R166: 1..12 for an hour 0..23. -/
def hour12 (hour : Int) : Int := hour - 12 * (if 12 ≤ hour then 1 else 0) + 1

/-- Hour to hours byte (R165, R166). -/
def encodeHour (m : HourMode) (hour : Int) : Option Byte :=
  match m with
  | .h24 => bcdOf hour
  | .h12 => (bcdOf (hour12 hour)).map fun b => hour12Flag ||| pmField (decide (12 ≤ hour)) ||| b

/-- `encode(t)[0..6]` (R163 to R170); nothing when a value passed to `bin2bcd` would be negative (R172). -/
def encodeTime (m : HourMode) (t : WallClock) : Option RawTime :=
  match bcdOf t.sec, bcdOf t.min, encodeHour m t.hour, bcdOf t.mday, bcdOf (t.mon + 1), bcdOf (t.wday + 1),
    bcdOf (t.year - Config.yearBase) with
  | some s, some mi, some h, some d, some mo, some w, some y => some ⟨s, mi, h, d, mo, w, y⟩
  | _, _, _, _, _, _, _ => none

/-- The bytes of `encode`: 7, or 8 with the filler when burst mode is used (R162, R171). -/
def encodedBytes (burst : Bool) (raw : RawTime) : List Byte :=
  if burst then raw.toList ++ [Config.burstFiller] else raw.toList

/-- `valid(t)` (42_rtc_facade.md R201): each field alone. -/
def WallClock.valid (t : WallClock) : Bool :=
  decide (0 ≤ t.sec ∧ t.sec ≤ 59) && decide (0 ≤ t.min ∧ t.min ≤ 59) && decide (0 ≤ t.hour ∧ t.hour ≤ 23)
    && decide (1 ≤ t.mday ∧ t.mday ≤ 31) && decide (0 ≤ t.mon ∧ t.mon ≤ 11) && decide (0 ≤ t.wday ∧ t.wday ≤ 6)
    && decide (100 ≤ t.year ∧ t.year ≤ 199)

end Sys2Proof.Machine
end

