-- ==== Sys2Proof/Machine/Facade.lean ====
section
/-! DEFINITION. The write-protect clear (41_calendar_codec.md R174) and the RTC facade: INIT, READTIME, SETTIME, unbind (42_rtc_facade.md). A
composite is a request in progress: one step starts it, each step after that emits one event or accepts its next transaction, and nothing of another
request comes between (R211 for READTIME and SETTIME, R263 for INIT; for a CLRWP on its own the model's choice, log entry 31). -/
namespace Sys2Proof.Machine

open Sys2Proof

/-- The configured hour encoding; before INIT latches one, the default H24 (00_scope.md R8, 10_state.md R32; log entry 17). -/
def State.hours (s : State) : HourMode := s.hourMode.getD .h24

/-- Is `BURST_MODE` = 1 (10_state.md R31)? Unset is not 1 (log entry 17). -/
def State.burst (s : State) : Bool := s.burstMode.getD false

/-! ## The request in progress -/

/-- The request in progress ends with a result (60_exceptions.md R230). -/
def State.finish (s : State) (r : Result) : State := { s with task := none }.reply (.ok r)

/-- The transaction that comes next, or runs: its command byte, direction and bytes to send (40_transfer_engine.md R120 to R123). -/
def Task.transaction (p : Params) : Task → Option (Byte × Direction × List Byte)
  | .lines _ _ => none
  | .readWp _ => some (cmdRead p p.aWp, .read, [])
  | .clearWp _ => some (cmdWrite p p.aWp, .write, [0x00#8])
  | .gather _ r _ => some (cmdRead p (r.field p), .read, [])
  | .gatherBurst => some (burstReadAddr p, .read, [])
  | .spread r v _ => some (cmdWrite p (r.field p), .write, [v])
  | .spreadBurst bytes => some (burstWriteAddr p, .write, bytes)

/-- The next transaction of the request in progress is accepted (40_transfer_engine.md R102). -/
def State.proceed (s : State) (k : Task) : State :=
  match k.transaction s.params with
  | some (c, d, bytes) => accept c d bytes s
  | none => s

/-- A facade request starts with its first transaction. -/
def State.start (s : State) (k : Task) : State := { s with task := some k }.proceed k

/-- The write-protect clear ends (41_calendar_codec.md R174), and with it CLRWP or INIT (42_rtc_facade.md R202). -/
def State.cleared (s : State) (w : WpRecord) (init : Bool) : State :=
  { s with wpRecord := w, devState := if init then .ready else s.devState }.finish .none

/-- The seven bytes of a READTIME are there (41_calendar_codec.md R161). -/
def State.timeRead (s : State) (bytes : List Byte) : State := s.finish (.time (decodeTime s.hours (RawTime.ofList bytes)))

/-- What the end of a transaction of the request in progress brings: its next transaction, or its end. -/
def Task.after (k : Task) (s : State) : State :=
  match k with
  | .lines _ _ => s
  | .readWp init =>
    if guardSet s.params (bufByte s.buf 0) then { s with task := some (.clearWp init) } else s.cleared .wasClear init
  | .clearWp init => s.cleared .wasSet init
  | .gather got _ [] => s.timeRead (got ++ [bufByte s.buf 0])
  | .gather got _ (r :: rest) => { s with task := some (.gather (got ++ [bufByte s.buf 0]) r rest) }
  | .gatherBurst => s.timeRead (bufBytes s.buf .eight)
  | .spread _ _ [] => s.finish .none
  | .spread _ _ ((r, v) :: rest) => { s with task := some (.spread r v rest) }
  | .spreadBurst _ => s.finish .none

/-- INIT's idle-setting events still to come; after the last the device is Initialising and the write-protect clear comes (42_rtc_facade.md
R202). -/
def State.linesLeft (s : State) (ops : List MicroOp) : State :=
  match ops with
  | [] => { s with phase := .idle, devState := .initialising, task := some (.readWp true) }
  | op :: rest => { s with task := some (.lines op rest) }

/-- A step of the request in progress while the engine is Idle: one idle-setting event, or the acceptance of the next transaction. -/
def taskTurn (k : Task) (s : State) : Except Fault State :=
  match k with
  | .lines op rest =>
    match perform op s with
    | .ok s1 => .ok (s1.linesLeft rest)
    | .error f => .error f
  | .readWp _ => .ok (s.proceed k)
  | .clearWp _ => .ok (s.proceed k)
  | .gather _ _ _ => .ok (s.proceed k)
  | .gatherBurst => .ok (s.proceed k)
  | .spread _ _ _ => .ok (s.proceed k)
  | .spreadBurst _ => .ok (s.proceed k)

/-- A transaction has ended: its result goes to the host, or to the request in progress (40_transfer_engine.md R114). -/
def State.settle (s : State) : State :=
  match s.task with
  | none => s.deliver
  | some k => k.after s

/-- One step of a Busy engine: an event, and after the last one the result (40_transfer_engine.md R114). -/
def engineTurn (s : State) : Except Fault State :=
  match engineStep s with
  | .error f => .error f
  | .ok s1 => .ok (if s1.phase = .idle then s1.settle else s1)

/-! ## Write-protect clear -/

/-- Request `CLRWP` (41_calendar_codec.md R174): it runs transactions, so it needs a bound device (R102 A0) and waits while another request is in
progress (60_exceptions.md R242). R174 and 20_memory.md R66 call its read and its write not atomic as a pair, and R211 speaks of facade requests: that no
other request's transaction comes between the two is the model's choice (DESIGN CHOICE, log entry 31). -/
def serveClrWp (s : State) : Except Fault State :=
  if s.bound = false then .ok (s.refuse .notBound)
  else if s.engaged then .ok (s.hold (.request .clrWp))
  else .ok (s.start (.readWp false))

/-! ## INIT and unbind -/

/-- A line cannot be acquired or configured (60_exceptions.md R231): everything acquired is released, no event is issued, and the device has
failed for good. It is Idle and no mode is set (10_state.md R40). R40 calls the handles, `mpc`, `cmd`, `dir`, `n` and `buf` unspecified there: the handles
take free values, and that the others keep what they held is the model's choice (DESIGN CHOICE, log entry 16). An INIT still in progress, whose lines are
released with the rest, ends in the same outcome (DEDUCED, log entry 32). -/
def State.bindingFails (s : State) : State :=
  { s.freeLines.release with
    phase := .idle
    task := none
    burstMode := none
    hourMode := none
    devState := .failed
    replies := .bindingError :: if s.engaged then .bindingError :: s.replies else s.replies }

/-- The three lines are acquired and the modes latched (42_rtc_facade.md R202). -/
def State.latchInit (s : State) (ce clk data : Binding) (burst : Bool) (h : HourMode) : State :=
  { s with
    ceBinding := some ce.handle
    clkBinding := some clk.handle
    dataBinding := some data.handle
    burstMode := some burst
    hourMode := some h }

/-- Request `INIT` (42_rtc_facade.md R202, 70_reset_and_hazards.md R262). Acquisition goes CE, CLK, DATA, and any failure ends it the same way
(60_exceptions.md R236). Its idle-setting events and the write-protect clear follow. -/
def serveInit (ce clk data : Binding) (burst : Bool) (h : HourMode) (s : State) : Except Fault State :=
  if s.devState ≠ .unbound then .ok (s.refuse .notUnbound)
  else if !(ce.acquirable && clk.acquirable && data.acquirable) then .ok s.bindingFails
  else if s.engaged then .ok (s.hold (.request (.init ce clk data burst h)))
  else .ok ((s.latchInit ce clk data burst h).linesLeft initOps)

/-- The control block is destroyed, and the next one starts as R40 says (42_rtc_facade.md R210, 70_reset_and_hazards.md R260; log entry 15). -/
def State.unbound (s : State) : State :=
  { s.freeLines.release with
    phase := .idle
    task := none
    devState := .unbound
    wpRecord := .unknown
    burstMode := none
    hourMode := none }

/-- Unbind: admitted only when Idle, no transaction (42_rtc_facade.md R210). That it is answered with Ok is the model's choice (DESIGN CHOICE, log
entry 15). -/
def serveUnbind (s : State) : Except Fault State :=
  if s.engaged then .ok (s.hold (.request .unbind)) else .ok (s.unbound.reply (.ok .none))

/-- A host power cycle (60_exceptions.md R248): the engine starts from Unbound, and the chip holds whatever it retained, a free value in every
register (log entry 28). -/
def servePowerCycle (s : State) : Except Fault State :=
  let s1 := s.unbound
  .ok { s1 with
    chip := { s1.chip with cr := s1.chip.cr.setRegs (fun k => Config.freeByte (s1.draws + k)) Reg.all, bitPos := 0 }
    draws := s1.draws + 8 }

/-! ## READTIME and SETTIME -/

/-- Request `READTIME` (42_rtc_facade.md R203, R204, R208): the seven calendar bytes by one burst, whose eighth byte is discarded, or by seven discrete
reads. -/
def serveReadTime (s : State) : Except Fault State :=
  if s.devState ≠ .ready then .ok (s.refuse .notReady)
  else if s.engaged then .ok (s.hold (.request .readTime))
  else .ok (s.start (if s.burst then .gatherBurst else .gather [] .sec [.min, .hour, .date, .month, .wday, .year]))

/-- How SETTIME writes the encoded bytes: by one burst with the filler, or by seven discrete writes (42_rtc_facade.md R205, R206). -/
def RawTime.writes (raw : RawTime) (burst : Bool) : Task :=
  if burst then .spreadBurst (encodedBytes true raw)
  else .spread .sec raw.sec [(.min, raw.min), (.hour, raw.hour), (.date, raw.date), (.month, raw.month), (.wday, raw.wday), (.year, raw.year)]

/-- Request `SETTIME t` (42_rtc_facade.md R205 to R207, 60_exceptions.md R236): validation comes before encoding. -/
def serveSetTime (t : WallClock) (s : State) : Except Fault State :=
  if s.devState ≠ .ready then .ok (s.refuse .notReady)
  else if s.engaged then .ok (s.hold (.request (.setTime t)))
  else if t.valid = false then .ok (s.reply .invalidArgument)
  else
    match encodeTime s.hours t with
    | none => .ok (s.refuse .negativeEncode)
    | some raw => .ok (s.start (raw.writes s.burst))

end Sys2Proof.Machine
end

