-- ==== Sys2Proof/Machine/Requests.lean ====
section
/-! DEFINITION. Serving the requests of 30_encoding.md R87. -/
namespace Sys2Proof.Machine

open Sys2Proof

/-- `RDB`/`WRB`: device state, then wait, then the check on the field itself (40_transfer_engine.md R120, R121, 60_exceptions.md R236), then `go` with
the register named. -/
def serveField (a : Byte) (w : Request) (go : Reg → State → Except Fault State) (s : State) : Except Fault State :=
  if s.bound = false then .ok (s.refuse .notBound)
  else if s.engaged then .ok (s.hold (.request w))
  else
    match regOfField s.params a with
    | none => .ok (s.refuse .unknownCommand)
    | some r => go r s

/-- Request `DECODE b0..b6` (41_calendar_codec.md R152, R161): pure. -/
def serveDecode (raw : RawTime) (s : State) : State := s.reply (.ok (.time (decodeTime s.hours raw)))

/-- Request `ENCODE t` (41_calendar_codec.md R162, R172): pure. -/
def serveEncode (t : WallClock) (s : State) : State :=
  match encodeTime s.hours t with
  | some raw => s.reply (.ok (.bytes (encodedBytes s.burst raw)))
  | none => s.refuse .negativeEncode

/-- One request of 30_encoding.md R87. -/
def serveRequest (r : Request) (s : State) : Except Fault State :=
  match r with
  | .transact c d n bytes => serveEngine (.request r) c d n bytes s
  | .rdb a => serveField a r (fun q => serveEngine (.request r) (cmdRead s.params (q.field s.params)) .read 1 []) s
  | .wrb a v => serveField a r (fun q => serveEngine (.request r) (cmdWrite s.params (q.field s.params)) .write 1 [v]) s
  | .rdBurst => serveEngine (.request r) (burstReadAddr s.params) .read 8 [] s
  | .wrBurst bytes => serveEngine (.request r) (burstWriteAddr s.params) .write 8 bytes s
  | .decode raw => .ok (serveDecode raw s)
  | .encode t => .ok (serveEncode t s)
  | .clrWp => serveClrWp s
  | .init ce clk data burst h => serveInit ce clk data burst h s
  | .readTime => serveReadTime s
  | .setTime t => serveSetTime t s
  | .unbind => serveUnbind s
  | .powerCycle => servePowerCycle s

/-! ## Requests made while another is in progress (60_exceptions.md R236, R242) -/

/-- A transaction needs a bound device, a facade request a Ready one, INIT an Unbound one (60_exceptions.md R234). -/
def State.lacksBinding (s : State) : Option RefusalReason := if s.bound then none else some .notBound
def State.lacksInit (s : State) : Option RefusalReason := if s.devState = .ready then none else some .notReady
def State.alreadyBound (s : State) : Option RefusalReason := if s.devState = .unbound then none else some .notUnbound

/-- The refusal of a request for the device state, which comes before every other check and before the wait (60_exceptions.md R236). -/
def Waiting.stateRefusal (w : Waiting) (s : State) : Option RefusalReason :=
  match w with
  | .frame _ => s.lacksBinding
  | .request (.transact _ _ _ _) => s.lacksBinding
  | .request (.rdb _) => s.lacksBinding
  | .request (.wrb _ _) => s.lacksBinding
  | .request .rdBurst => s.lacksBinding
  | .request (.wrBurst _) => s.lacksBinding
  | .request .clrWp => s.lacksBinding
  | .request (.init _ _ _ _ _) => s.alreadyBound
  | .request .readTime => s.lacksInit
  | .request (.setTime _) => s.lacksInit
  | .request (.decode _) => none
  | .request (.encode _) => none
  | .request .unbind => none
  | .request .powerCycle => none

/-- Is it an INIT with a line that cannot be acquired (60_exceptions.md R231)? No other request asks for lines. -/
def Waiting.lacksLine (w : Waiting) : Bool :=
  match w with
  | .request (.init ce clk data _ _) => !(ce.acquirable && clk.acquirable && data.acquirable)
  | _ => false

/-- Does what another caller asks in this step end in BindingError: an INIT that the device state admits, as it does while another INIT sets its lines,
with a line that cannot be acquired? R236 puts that after the refusal for the device state and before the wait (60_exceptions.md). -/
def State.arrivalFails (s : State) : Bool :=
  match s.arrivals with
  | [] => false
  | none :: _ => false
  | some w :: _ => s.devState == .unbound && w.lacksLine

/-- What another caller asks in this step, if anything and unless it fails the binding (`State.arrivalFails`): refused at once for the device state, or
made to wait, last of those that wait (60_exceptions.md R236, R242; log entry 25). -/
def State.arrive (s : State) : State :=
  match s.arrivals with
  | [] => s
  | none :: as => { s with arrivals := as }
  | some w :: as =>
    match w.stateRefusal s with
    | some why => { s with arrivals := as }.refuse why
    | none => { s with arrivals := as, pending := s.pending ++ [w] }

/-- One step of what is in progress: an event of the transaction, or the next move of the facade request (00_scope.md R7, 40_transfer_engine.md
R114). -/
def turn (s : State) : Except Fault State :=
  match s.phase, s.task with
  | .busy, _ => engineTurn s
  | .idle, some k => taskTurn k s
  | .idle, none => .ok s

/-- One step while a request is in progress: what arrives is taken first, and what is in progress goes on, unless the binding fails; then no event is
issued any more (60_exceptions.md R231, R236). -/
def State.advance (s : State) : Except Fault State :=
  if s.arrivalFails then .ok { s with arrivals := s.arrivals.tail }.bindingFails else turn s.arrive

/-- A frame that is no well-formed instruction (log entry 26): the device state first, then the command byte, then the byte count
(40_transfer_engine.md R102, 60_exceptions.md R236). -/
def refuseFrame (bytes : List Byte) (s : State) : State :=
  if s.bound = false then s.refuse .notBound
  else
    match bytes with
    | [] => s.refuse .unknownCommand
    | c :: _ => if (decodeCommand s.params c).isNone then s.refuse .unknownCommand else s.refuse .lengthMismatch

/-- The block as INIT leaves it when nothing has to be cleared: Ready, Idle, lines idle, discrete mode and H24 (42_rtc_facade.md R202; log entry 8). -/
def State.asInitialised (s : State) : State :=
  { s with
    ce := ⟨.out, false⟩
    clk := ⟨.out, false⟩
    data := ⟨.out, false⟩
    phase := .idle
    task := none
    burstMode := some (s.burstMode.getD false)
    hourMode := some (s.hourMode.getD .h24)
    devState := .ready
    wpRecord := .wasClear
    ceBinding := some (s.ceBinding.getD 0)
    clkBinding := some (s.clkBinding.getD 1)
    dataBinding := some (s.dataBinding.getD 2)
    chip := { s.chip with bitPos := 0 } }

/-- The block ready for its next transaction: as it stands where it is, else as INIT leaves it. -/
def State.readied (s : State) : State :=
  if s.bound && !s.engaged && s.linesIdle then s else s.asInitialised

end Sys2Proof.Machine
end

