-- ==== Sys2Proof/Machine/Step.lean ====
section
/-! DEFINITION. One step: what is in progress goes on by one event, or the next waiting request is served, or nothing happens. -/
namespace Sys2Proof.Machine

open Sys2Proof

/-- One step (00_scope.md R7, 40_transfer_engine.md R114, 60_exceptions.md R242). While a transaction or a facade request is in progress it goes on.
Else the next waiting request is served. A frame is decoded and its instruction goes to exec, which accepts its transaction; its events are the steps that
follow (log entry 6). -/
def step (s : State) : Host.Outcome State Fault Refusal :=
  if s.engaged then toOutcome s.advance
  else
    match s.pending with
    | [] => .next s
    | .frame bytes :: rest =>
      match decode s.params bytes with
      | some (i, []) => exec i { s with pending := rest }
      | some (_, _ :: _) => .next (refuseFrame bytes { s with pending := rest })
      | none => .next (refuseFrame bytes { s with pending := rest })
    | .request r :: rest => toOutcome (serveRequest r { s with pending := rest })

/-- `s` with one framed command as the next request to proceed, on a device that admits transactions and has the opcode table's command bytes
(log entry 8). -/
def State.withFetchWord (s : State) (nbits w : Nat) : State :=
  let s1 := s.readied
  { s1 with params := .default, pending := .frame (oneFrame .default (tableBytes nbits w)) :: s1.pending }

end Sys2Proof.Machine
end

