-- ==== Sys2Proof/Machine/Observe.lean ====
section
/-! DEFINITION. What the test double reads off an event list (60_exceptions.md R247, 95_test_vectors.md), oldest event first: events emitted,
levels at the rising edges, samples, counts, and the least time the waits take. -/
namespace Sys2Proof.Machine

open Sys2Proof

/-- The events micro-ops leave when the samples come out as `ss`, in order. -/
def eventsOf : List MicroOp → List Bool → List Event
  | [], _ => []
  | .dir l d :: ops, ss => .dir l d :: eventsOf ops ss
  | .set l v :: ops, ss => .set l v :: eventsOf ops ss
  | .wait T :: ops, ss => .wait T :: eventsOf ops ss
  | .sample _ _ :: ops, ss => .get .data (ss.headD false) :: eventsOf ops ss.tail

/-- The events of a transaction that sends `bytes` and whose samples come out as `ss` (40_transfer_engine.md R112, R113). -/
def transactionEvents (c : Byte) (d : Direction) (n : DataLen) (bytes : List Byte) (ss : List Bool) : List Event :=
  eventsOf (transactionOps c d n (bufOf fun k => bytes.getD k 0#8)) ss

/-- The events of the discrete read of register `r` whose samples come out as `ss`, and of the discrete write of `v` to it (40_transfer_engine.md R120,
R121). -/
def readEvents (p : Params) (r : Reg) (ss : List Bool) : List Event := transactionEvents (cmdRead p (r.field p)) .read .one [] ss
def writeEvents (p : Params) (r : Reg) (v : Byte) : List Event := transactionEvents (cmdWrite p (r.field p)) .write .one [v] []

/-- `DATA@rise` (95_test_vectors.md): DATA's level at each CLK rising edge, from DATA level `d` and CLK level `k` on. -/
def dataAtRise : Bool → Bool → List Event → List Bool
  | _, _, [] => []
  | _, k, .set .data v :: es => dataAtRise v k es
  | _, k, .get .data v :: es => dataAtRise v k es
  | d, k, .set .clk v :: es => if v && !k then d :: dataAtRise d v es else dataAtRise d v es
  | d, k, .set .ce _ :: es => dataAtRise d k es
  | d, k, .get .clk _ :: es => dataAtRise d k es
  | d, k, .get .ce _ :: es => dataAtRise d k es
  | d, k, .dir _ _ :: es => dataAtRise d k es
  | d, k, .wait _ :: es => dataAtRise d k es

/-- The levels `GET` returned, in order. -/
def samplesOf : List Event → List Bool
  | [] => []
  | .get _ v :: es => v :: samplesOf es
  | .dir _ _ :: es => samplesOf es
  | .set _ _ :: es => samplesOf es
  | .wait _ :: es => samplesOf es

/-- The byte whose bits, first one least significant, are the eight levels `bs` (40_transfer_engine.md R110). -/
def byteOf (bs : List Bool) : Byte :=
  (List.range 8).foldl (fun v i => v ||| ((if bs.getD i false then 1#8 else 0#8) <<< i)) 0#8

/-- The command bytes of an event list's transactions, in order: the first eight DATA bits at CLK rising edges after CE rises
(30_encoding.md R75, 40_transfer_engine.md R104, R117). `acc` holds the bits of the command byte under way. -/
def commandsFrom : Bool → Bool → Option (List Bool) → List Event → List Byte
  | _, _, _, [] => []
  | d, k, acc, .set .clk v :: es =>
    match v && !k, acc with
    | true, some bs =>
      if bs.length = 7 then byteOf (bs ++ [d]) :: commandsFrom d v none es else commandsFrom d v (some (bs ++ [d])) es
    | true, none => commandsFrom d v none es
    | false, acc => commandsFrom d v acc es
  | d, k, acc, .set .ce v :: es => commandsFrom d k (if v then some [] else acc) es
  | _, k, acc, .set .data v :: es => commandsFrom v k acc es
  | _, k, acc, .get .data v :: es => commandsFrom v k acc es
  | d, k, acc, .get .clk _ :: es => commandsFrom d k acc es
  | d, k, acc, .get .ce _ :: es => commandsFrom d k acc es
  | d, k, acc, .dir _ _ :: es => commandsFrom d k acc es
  | d, k, acc, .wait _ :: es => commandsFrom d k acc es

/-- The command bytes of an event list that begins with idle lines. -/
def commandsOf (es : List Event) : List Byte := commandsFrom false false none es

/-- `CR[0..6]` as calendar bytes (20_memory.md R50). -/
def Memory.calendar (m : Memory) : RawTime :=
  ⟨m.reg .sec, m.reg .min, m.reg .hour, m.reg .date, m.reg .month, m.reg .wday, m.reg .year⟩

def Event.isDir : Event → Bool
  | .dir _ _ => true
  | _ => false

def Event.isSet : Event → Bool
  | .set _ _ => true
  | _ => false

def Event.isGet : Event → Bool
  | .get _ _ => true
  | _ => false

def Event.isWait : Event → Bool
  | .wait _ => true
  | _ => false

/-- Transactions in an event list: each begins with CE rising (40_transfer_engine.md R104, 60_exceptions.md R247). -/
def transactionCount (es : List Event) : Nat := es.countP fun e => e == .set .ce true

/-- The bytes read from samples: byte `k` is samples `8k .. 8k+7` (40_transfer_engine.md R110). -/
def bytesOfSamples (n : Nat) (ss : List Bool) : List Byte := (List.range n).map fun k => byteOf (ss.drop (8 * k))

/-- The named delay in ns (00_scope.md R8). -/
def Delay.ns : Delay → Nat
  | .ceSetup => Config.tCeSetup
  | .dataSetup => Config.tDataSetup
  | .clkHigh => Config.tClkHigh
  | .clkLow => Config.tClkLow

/-- Least time an event takes: a wait's lower bound, nothing else (40_transfer_engine.md R118, 70_reset_and_hazards.md R273). -/
def Event.minNs : Event → Nat
  | .wait T => T.ns
  | _ => 0

/-- Least duration of an event list, counting the waits alone (70_reset_and_hazards.md R273). -/
def minDuration (es : List Event) : Nat := (es.map Event.minNs).sum

end Sys2Proof.Machine
end

