-- ==== Sys2Proof/Safety.lean ====
section
/-! DEFINITION. What counts as a safe run, in the terms the statements use: the invariant of the machine's states, what a transaction leaves
alone, and a run without refusal marks (60_exceptions.md R234). -/
namespace Sys2Proof.Machine

open Sys2Proof

/-- CE and CLK are outputs (10_state.md R22). -/
def State.outputs (s : State) : Bool := s.ce.dir == .out && s.clk.dir == .out

/-- A state in which a transaction is accepted and runs: the device bound (40_transfer_engine.md R102 A0), nothing in progress (A1, 60_exceptions.md
R242), CE and CLK outputs (10_state.md R22), and parameters that tell the commands apart (30_encoding.md R74). -/
def State.canTransact (s : State) : Bool := s.bound && !s.engaged && s.outputs && s.params.wf

/-- DATA's direction while Busy with event `mpc` next: an input from the turnaround event to the third stop event of a read
(10_state.md R23). -/
def State.dataDirAt (s : State) : LineDir :=
  match s.dir with
  | .write => .out
  | .read => if 54 ≤ s.mpc ∧ s.mpc ≤ stopIndex s.dir s.len + 2 then .inp else .out

/-- A Busy engine in the middle of a transaction (10_state.md R22, R23, R27, 40_transfer_engine.md R102, R104, R111), one of the request in progress if
there is one. -/
structure BusyInv (s : State) : Prop where
  bound : s.bound = true
  command : (decodeCommand s.params s.cmd).isSome = true
  direction : s.dir = dirOf s.params s.cmd
  length : s.len = dataLen s.params s.cmd
  mpc_lt : s.mpc < transactionLength s.dir s.len
  outputs : s.outputs = true
  data_dir : s.data.dir = s.dataDirAt
  ce_level : s.ce.level = decide (4 ≤ s.mpc ∧ s.mpc ≤ stopIndex s.dir s.len)
  clk_low : stopIndex s.dir s.len + 2 ≤ s.mpc → s.clk.level = false
  task : ∀ k, s.task = some k → ∃ bytes, k.transaction s.params = some (s.cmd, s.dir, bytes)

/-- The lines after the first `n` of INIT's idle-setting events (42_rtc_facade.md R202). -/
structure InitLines (n : Nat) (s : State) : Prop where
  ce_dir : 1 ≤ n → s.ce.dir = .out
  ce_low : 2 ≤ n → s.ce.level = false
  clk_dir : 3 ≤ n → s.clk.dir = .out
  clk_low : 4 ≤ n → s.clk.level = false
  data_dir : 5 ≤ n → s.data.dir = .out

/-- The device state in which a facade request is in progress (10_state.md R33, 42_rtc_facade.md R202, R211). -/
def Task.devState : Task → DevState
  | .lines _ _ => .unbound
  | .readWp init => if init then .initialising else .ready
  | .clearWp init => if init then .initialising else .ready
  | .gather _ _ _ => .ready
  | .gatherBurst => .ready
  | .spread _ _ _ => .ready
  | .spreadBurst _ => .ready

/-- The modes are latched and the lines acquired (10_state.md R40, 42_rtc_facade.md R202). -/
def State.latched (s : State) : Prop :=
  s.burstMode.isSome = true ∧ s.hourMode.isSome = true ∧ s.ceBinding.isSome = true ∧ s.clkBinding.isSome = true ∧ s.dataBinding.isSome = true

/-- No mode is set and no line held (10_state.md R40, 60_exceptions.md R231). -/
def State.unlatched (s : State) : Prop :=
  s.burstMode = none ∧ s.hourMode = none ∧ s.ceBinding = none ∧ s.clkBinding = none ∧ s.dataBinding = none

/-- The invariant that every step keeps. -/
structure Inv (s : State) : Prop where
  /-- The parameters tell the 18 commands apart. -/
  params : s.params.wf = true
  /-- The chip's register space is in canonical form. -/
  memory : s.chip.cr.wf = true
  /-- An Idle bound device has its lines idle (10_state.md R24). -/
  idle : s.phase = .idle → s.bound = true → s.linesIdle = true
  busy : s.phase = .busy → BusyInv s
  /-- INIT's idle-setting events come in order, before anything else. -/
  starting : ∀ op rest, s.task = some (.lines op rest) → ∃ n, initOps.drop n = op :: rest ∧ InitLines n s
  /-- A facade request is in progress in its own device state. -/
  task : ∀ k, s.task = some k → s.devState = k.devState
  /-- Only INIT's write-protect clear runs in Initialising (10_state.md R33). -/
  initialising : s.devState = .initialising → s.task.isSome = true
  /-- The modes are latched and the lines held on a bound device, and by an INIT in progress; on no other. -/
  latched : s.bound = true ∨ s.task.isSome = true → s.latched
  unlatched : s.bound = false → s.task = none → s.unlatched
  /-- The write-protect record is made by the time the device is Ready (10_state.md R34). -/
  record : s.wpRecord ≠ .unknown ↔ s.devState = .ready

/-- The control block's items that no transaction writes, the requests that wait, and what is in progress (10_state.md R35, R40). -/
def SameControl (s t : State) : Prop :=
  t.burstMode = s.burstMode ∧ t.hourMode = s.hourMode ∧ t.devState = s.devState ∧ t.wpRecord = s.wpRecord ∧
    t.ceBinding = s.ceBinding ∧ t.clkBinding = s.clkBinding ∧ t.dataBinding = s.dataBinding ∧ t.pending = s.pending ∧
    t.params = s.params ∧ t.task = s.task ∧ t.arrivals = s.arrivals

/-- `s` with request `r` the next to proceed. -/
def State.ask (s : State) (r : Request) : State := { s with pending := .request r :: s.pending }

/-- A refusal mark. -/
def Reply.isRefusal : Reply → Bool
  | .refused _ => true
  | _ => false

/-- A state whose run so far has no refusal mark: only such a run may be called free of refusals (60_exceptions.md R234). -/
def State.unrefused (s : State) : Bool := s.replies.all fun r => !r.isRefusal

end Sys2Proof.Machine
end

