-- ==== Sys2Proof/Certificates/Slice0/Obligations.lean ====
section
/-! DEFINITION. The statements for the provers. Each docstring names the rule of spec/ it formalises; what is the model's own choice is said there
with its log entry. -/

open Sys2Proof Sys2Proof.Machine

/-! ## Encoding -/

/-- Decoding an encoded well-formed instruction, any bytes after it, gives it back and leaves those bytes, under all parameters that tell the 18 commands
apart (30_encoding.md R70, R71, R74, 00_scope.md R8). -/
def Obligations.DecodeInvertsEncode : Prop :=
  ∀ (p : Params) (i : Instr) (rest : List Byte), p.wf = true → WellFormed i → decode p (encode p i ++ rest) = some (i, rest)

/-- Whatever decodes is the encoding of the well-formed instruction it decodes to, and what is left over, under all parameters. -/
def Obligations.DecodedBytesAreAnEncoding : Prop :=
  ∀ (p : Params) (bs rest : List Byte) (i : Instr), decode p bs = some (i, rest) → WellFormed i ∧ bs = encode p i ++ rest

/-- R74, under the default parameters: the 18 admitted command bytes, each with its register, length and direction, and the instruction it
decodes to; every other byte is refused. -/
def Obligations.AdmittedCommandSet : Prop :=
  let rows : List (Byte × Command × Nat × Direction × List Byte × Instr) :=
    [(0x80, .write .sec, 1, .write, [0x5A], .wrSec 0x5A), (0x81, .read .sec, 1, .read, [], .rdSec),
     (0x82, .write .min, 1, .write, [0x5A], .wrMin 0x5A), (0x83, .read .min, 1, .read, [], .rdMin),
     (0x84, .write .hour, 1, .write, [0x5A], .wrHour 0x5A), (0x85, .read .hour, 1, .read, [], .rdHour),
     (0x86, .write .date, 1, .write, [0x5A], .wrDate 0x5A), (0x87, .read .date, 1, .read, [], .rdDate),
     (0x88, .write .month, 1, .write, [0x5A], .wrMonth 0x5A), (0x89, .read .month, 1, .read, [], .rdMonth),
     (0x8A, .write .wday, 1, .write, [0x5A], .wrWday 0x5A), (0x8B, .read .wday, 1, .read, [], .rdWday),
     (0x8C, .write .year, 1, .write, [0x5A], .wrYear 0x5A), (0x8D, .read .year, 1, .read, [], .rdYear),
     (0x8E, .write .wp, 1, .write, [0x5A], .wrWp 0x5A), (0x8F, .read .wp, 1, .read, [], .rdWp),
     (0xBE, .writeBurst, 8, .write, [1, 2, 3, 4, 5, 6, 7, 8], .wrBurst [1, 2, 3, 4, 5, 6, 7, 8]),
     (0xBF, .readBurst, 8, .read, [], .rdBurst)]
  (∀ row ∈ rows, decodeCommand .default row.1 = some row.2.1 ∧ (dataLen .default row.1).count = row.2.2.1 ∧ dirOf .default row.1 = row.2.2.2.1 ∧
      decode .default (row.1 :: row.2.2.2.2.1) = some (row.2.2.2.2.2, [])) ∧
    ∀ c : Byte, c ∉ rows.map Prod.fst → decodeCommand .default c = none ∧ ∀ bs : List Byte, decode .default (c :: bs) = none

/-- R76, under the default parameters: the refused command bytes are those with bit 7 = 0, those with bit 6 = 1 and those with `c[5:1]` in 8..30, 238 of
256; a bound device with nothing in progress refuses a transaction with one of them, with no event and nothing but the mark. -/
def Obligations.UnknownCommandBytesAreRefused : Prop :=
  (∀ c : Byte, decodeCommand .default c = none ↔
      (c.getLsbD 7 = false ∨ c.getLsbD 6 = true ∨ (8 ≤ regSelect c ∧ regSelect c ≤ 30))) ∧
    ((List.range 256).countP fun k => (decodeCommand .default (BitVec.ofNat 8 k)).isNone) = 238 ∧
    ∀ (c : Byte) (d : Direction) (n : Nat) (bytes : List Byte) (s : State), s.params = .default → decodeCommand .default c = none →
      s.bound = true → s.engaged = false →
        step (s.ask (.transact c d n bytes)) = .next { s with replies := .refused .unknownCommand :: s.replies }

/-- R75, under the default parameters: the data length is 8 for the burst commands and 1 for every other admitted one, a function of the command
byte. -/
def Obligations.LengthFollowsFromCommand : Prop :=
  ∀ (c : Byte) (k : Command), decodeCommand .default c = some k →
    (dataLen .default c).count = (if c &&& 0xFE = 0xBE then 8 else 1) ∧
      ((dataLen .default c).count = 8 ↔ k = .readBurst ∨ k = .writeBurst) ∧
      (dirOf .default c = .read ↔ c.getLsbD 0 = true)

/-- Words written out bit by bit from R70 and R74 decode to the instructions they stand for. -/
def Obligations.WrittenOutWordsDecode : Prop :=
  decode .default [0b10000000, 0b10110000] = some (.wrSec 0xB0, []) ∧ decode .default [0b10001111] = some (.rdWp, []) ∧
    decode .default [0b10001011] = some (.rdWday, []) ∧ decode .default [0b10111111] = some (.rdBurst, []) ∧
    decode .default [0b10111110, 5, 0x33, 0x19, 0x11, 0x11, 4, 0x26, 0] = some (.wrBurst [5, 0x33, 0x19, 0x11, 0x11, 4, 0x26, 0], []) ∧
    decode .default [0b11000001] = none ∧ decode .default [0b10010001] = none ∧ decode .default [0b00000001] = none

/-! ## The step -/

/-- When nothing is in progress and the next waiting request is a frame that decodes to `i`, step is exec of `i` on the state without that frame. Exec
accepts its transaction, and its events are the steps that follow (00_scope.md R7, 40_transfer_engine.md R114); that the acceptance is a step of its own,
without an event, is the model's reading (log entry 6). -/
def Obligations.StepRunsTheDecodedFrame : Prop :=
  ∀ (s : State) (bytes : List Byte) (rest : List Waiting) (i : Instr), s.engaged = false → s.pending = .frame bytes :: rest →
    decode s.params bytes = some (i, []) → step s = exec i { s with pending := rest }

/-- A frame that is no well-formed instruction is refused with nothing but the mark: NotBound first, whatever the frame, on an Unbound or Failed device;
then UnknownCommand, for a frame of no bytes or one whose command byte no command has; then LengthMismatch, for any number of data bytes but the one the
command asks for (40_transfer_engine.md R102 A0, A2, A4, A5, 60_exceptions.md R234, R236, 30_encoding.md R75). That these checks apply to a frame of raw
bytes in this way is the model's reading (log entry 26). -/
def Obligations.IllFormedFramesAreRefused : Prop :=
  ∀ (s : State) (bytes : List Byte) (rest : List Waiting), s.engaged = false → s.pending = .frame bytes :: rest →
    let refusedFor := fun why => step s = .next { s with pending := rest, replies := .refused why :: s.replies }
    (s.devState = .unbound ∨ s.devState = .failed → refusedFor .notBound) ∧
      (s.devState = .initialising ∨ s.devState = .ready →
        (bytes = [] → refusedFor .unknownCommand) ∧
          ∀ (c : Byte) (bs : List Byte), bytes = c :: bs →
            (decodeCommand s.params c = none → refusedFor .unknownCommand) ∧
              ∀ k, decodeCommand s.params c = some k →
                bs.length ≠ (match k with | .read _ => 0 | .readBurst => 0 | .write _ => 1 | .writeBurst => 8) → refusedFor .lengthMismatch)

/-- R114: a Busy step performs `ev(mpc)`, advances `mpc`, and after the last event turns Idle and delivers, to the caller or to the facade request in
progress (`Task.after`). The last clause is the model's choice and no part of R114, which gives no step there (log entry 10): with nothing in progress
and no request waiting the step changes nothing. -/
def Obligations.BusyStepPerformsTheNextEvent : Prop :=
  (∀ (s s1 : State) (op : MicroOp), s.phase = .busy → s.arrivals = [] → s.ops[s.mpc]? = some op → perform op s = .ok s1 →
      (s.mpc + 1 ≠ transactionLength s.dir s.len → step s = .next { s1 with mpc := s.mpc + 1 }) ∧
        (s.mpc + 1 = transactionLength s.dir s.len →
          (s.task = none → step s = .next { s1 with
            mpc := s.mpc + 1
            phase := .idle
            replies := .ok (match s.dir with | .read => .bytes (bufBytes s1.buf s.len) | .write => .none) :: s1.replies }) ∧
          ∀ k, s.task = some k → step s = .next (k.after { s1 with mpc := s.mpc + 1, phase := .idle }))) ∧
    ∀ s : State, s.engaged = false → s.pending = [] → step s = .next s

/-- R100: what one event does to the line state, and where its precondition fails. A `GET` yields the level it leaves on DATA, and a read's
sample enters `buf`. That the failed precondition stops the machine with a fault of its own is the model's reading (log entry 23), for R100 lets a model
treat it as unreachable. -/
def Obligations.OneEventChangesLineState : Prop :=
  ∀ s : State,
    (∀ l d, ∃ t, perform (.dir l d) s = .ok t ∧ t.line l = ⟨d, (s.line l).level⟩ ∧ (∀ l', l' ≠ l → t.line l' = s.line l') ∧
        t.trace = .dir l d :: s.trace) ∧
      (∀ l v, (s.line l).dir = .out → ∃ t, perform (.set l v) s = .ok t ∧ t.line l = ⟨.out, v⟩ ∧
        (∀ l', l' ≠ l → t.line l' = s.line l') ∧ t.trace = .set l v :: s.trace) ∧
      (∀ l v, (s.line l).dir = .inp → perform (.set l v) s = .error (.setOnInput l)) ∧
      (∀ k i, s.data.dir = .inp → ∃ t v, perform (.sample k i) s = .ok t ∧ t.data = ⟨.inp, v⟩ ∧ t.ce = s.ce ∧ t.clk = s.clk ∧
        t.trace = .get .data v :: s.trace ∧ t.buf = orBit s.buf k i v) ∧
      (∀ k i, s.data.dir = .out → perform (.sample k i) s = .error (.getOnOutput .data)) ∧
      ∀ T, ∃ t, perform (.wait T) s = .ok t ∧ t = { s with trace := .wait T :: s.trace }

/-- One event a step: a step of a Busy engine emits exactly one event (00_scope.md R7, 40_transfer_engine.md R114), and each of INIT's idle-setting events
is a step (R7). The steps without an event are no part of R7, by which each step emits exactly one: that one serves a request or a frame, and one accepts a
facade request's next transaction, is the model's reading (log entry 6, DEDUCED), and that a step with nothing to do changes nothing is its choice (log
entry 10). While an event is emitted the control block and what is in progress stay (60_exceptions.md R242), the parameters always, and no chip register
changes but when CE falls (20_memory.md R60). The step in which an INIT that arrives fails the binding, on an Unbound device alone, emits nothing
(60_exceptions.md R231, R236). -/
def Obligations.BusyStepEmitsOneEvent : Prop :=
  ∀ s t : State, step s = .next t →
    (s.phase = .busy → s.arrivalFails = false → ∃ e : Event, t.trace = e :: s.trace ∧ (e ≠ .set .ce false → t.chip.cr = s.chip.cr) ∧
      (s.mpc + 1 ≠ transactionLength s.dir s.len → SameControl s.arrive t)) ∧
      (s.phase = .idle → s.engaged = true → t.trace = s.trace ∨
        ∃ e : Event, t.trace = e :: s.trace ∧ t.chip.cr = s.chip.cr ∧ ∃ op rest, s.task = some (.lines op rest)) ∧
      (s.engaged = true → s.arrivalFails = true → t.trace = s.trace ∧ s.devState = .unbound) ∧
      (s.engaged = false → t.trace = s.trace)

/-- 60_exceptions.md R236 and R242: what another caller asks while a request is in progress is refused in that very step when the device state forbids it
(NotBound, NotReady, NotUnbound: the first check of R236, before the wait), and the step is otherwise the one in which nobody asks. An INIT that the device
state admits, as it does while another INIT sets its lines, ends in BindingError in that very step if a line cannot be acquired (the second check of R236,
before the wait): the device is Failed, no line is held, no event is issued, the chip is left alone, and no transaction is admitted any more (R231,
10_state.md R40). That the INIT in progress ends there too, in BindingError as well, is the model's reading (DEDUCED, log entry 32). Else the request
waits, and none that waits is served before what is in progress has ended. Its place, behind the requests that wait already, is the model's choice: R242
leaves the order among waiting requests open (DESIGN CHOICE, log entry 25 for the place, log entry 9 for the list order). That DECODE, ENCODE, unbind and a
power cycle wait too is the model's reading (DEDUCED, log entry 25). That a request made between the two transactions of a CLRWP waits is the model's
choice too (log entry 31). -/
def Obligations.ArrivingRequestsAreRefusedOrWait : Prop :=
  ∀ (w : Waiting) (as : List (Option Waiting)) (s : State), s.engaged = true → s.arrivals = some w :: as →
    let transacts := (∃ bytes, w = .frame bytes) ∨ (∃ c d n bytes, w = .request (.transact c d n bytes)) ∨ (∃ a, w = .request (.rdb a)) ∨
      (∃ a v, w = .request (.wrb a v)) ∨ w = .request .rdBurst ∨ (∃ bytes, w = .request (.wrBurst bytes)) ∨ w = .request .clrWp
    let inits := ∃ ce clk data b h, w = .request (.init ce clk data b h)
    let lacks := ∃ ce clk data b h, w = .request (.init ce clk data b h) ∧ ¬(ce.acquirable = true ∧ clk.acquirable = true ∧ data.acquirable = true)
    let keeps := w = .request .readTime ∨ ∃ τ, w = .request (.setTime τ)
    let refusedFor := fun why => step s = step { s with arrivals := none :: as, replies := .refused why :: s.replies }
    (transacts → s.devState = .unbound ∨ s.devState = .failed → refusedFor .notBound) ∧
      (inits → s.devState ≠ .unbound → refusedFor .notUnbound) ∧
      (keeps → s.devState ≠ .ready → refusedFor .notReady) ∧
      (lacks → s.devState = .unbound →
        ∃ t : State, step s = .next t ∧ t.replies = .bindingError :: .bindingError :: s.replies ∧ t.devState = .failed ∧ t.engaged = false ∧
          t.ceBinding = none ∧ t.clkBinding = none ∧ t.dataBinding = none ∧ t.burstMode = none ∧ t.hourMode = none ∧
          t.wpRecord = s.wpRecord ∧ t.trace = s.trace ∧ t.chip = s.chip ∧ t.pending = s.pending ∧
          ∀ c d n bytes, admission c d n bytes t = .refuse .notBound) ∧
      (¬(lacks ∧ s.devState = .unbound) →
        ¬(transacts ∧ (s.devState = .unbound ∨ s.devState = .failed)) → ¬(inits ∧ s.devState ≠ .unbound) → ¬(keeps ∧ s.devState ≠ .ready) →
        step s = step { s with arrivals := none :: as, pending := s.pending ++ [w] }) ∧
      ∀ t : State, step s = .next t → t.arrivals = as ∧ (t.pending = s.pending ∨ t.pending = s.pending ++ [w])

/-! ## The event sequence -/

/-- R103, R105 and R106: the start phase at 0..4, and command bit `i` as the six events of SHIFTBIT at `5 + 6i`. -/
def Obligations.StartAndCommandPhase : Prop :=
  ∀ (c : Byte) (d : Direction) (n : DataLen) (b : Vector Byte 8),
    (transactionOps c d n b).take 5 =
        [.dir .data .out, .set .data false, .set .clk false, .set .ce true, .wait .ceSetup] ∧
      ∀ i, i < 8 → ((transactionOps c d n b).drop (5 + 6 * i)).take 6 =
        [.set .data (c.getLsbD i), .wait .dataSetup, .set .clk true, .wait .clkHigh, .set .clk false, .wait .clkLow]

/-- R107: bit `i` of byte `k` of a write at `53 + 48k + 6i`, and no direction changes along the whole data phase: DATA stays an output. -/
def Obligations.WriteDataPhase : Prop :=
  ∀ (c : Byte) (n : DataLen) (b : Vector Byte 8),
    (∀ k i, k < n.count → i < 8 →
      ((transactionOps c .write n b).drop (53 + 48 * k + 6 * i)).take 6 =
        [.set .data ((bufByte b k).getLsbD i), .wait .dataSetup, .set .clk true, .wait .clkHigh, .set .clk false, .wait .clkLow]) ∧
      ∀ m l d, 53 ≤ m → m ≤ 52 + 48 * n.count → (transactionOps c .write n b)[m]? ≠ some (.dir l d)

/-- R108: the turnaround at 53, right after the command phase's last wait (so with CLK low), and from there to the third stop event no event that
drives DATA. And R109's places: bit `i` of byte `k` of a read at `54 + 32k + 4i`. -/
def Obligations.ReadDataPhase : Prop :=
  ∀ (c : Byte) (n : DataLen) (b : Vector Byte 8),
    ((transactionOps c .read n b).drop 51).take 3 = [.set .clk false, .wait .clkLow, .dir .data .inp] ∧
      (∀ m v, 53 ≤ m → m ≤ 54 + 32 * n.count + 2 → (transactionOps c .read n b)[m]? ≠ some (.set .data v)) ∧
      ∀ k i, k < n.count → i < 8 →
        ((transactionOps c .read n b).drop (54 + 32 * k + 4 * i)).take 4 =
          [.set .clk false, .wait .clkLow, .set .clk true, .sample k i]

/-- R111, and the lengths of R113: the stop phase is the last four events, at `53 + 48n` or `54 + 32n`. -/
def Obligations.StopPhaseAndLength : Prop :=
  ∀ (c : Byte) (n : DataLen) (b : Vector Byte 8),
    (transactionOps c .write n b).drop (53 + 48 * n.count) = [.set .ce false, .set .clk false, .dir .data .out, .set .data false] ∧
      (transactionOps c .read n b).drop (54 + 32 * n.count) =
        [.set .ce false, .set .clk false, .dir .data .out, .set .data false] ∧
      (transactionOps c .write n b).length = 57 + 48 * n.count ∧ (transactionOps c .read n b).length = 58 + 32 * n.count

/-- The counts of R113: `DIR`, `SET`, `GET`, `WAIT` and CLK rising edges of each kind of transaction, whatever was sampled. -/
def Obligations.EventCounts : Prop :=
  ∀ (c : Byte) (n : DataLen) (b : Vector Byte 8) (ss : List Bool),
    let w := eventsOf (transactionOps c .write n b) ss
    let r := eventsOf (transactionOps c .read n b) ss
    w.countP Event.isDir = 2 ∧ w.countP Event.isSet = 6 + 24 * (1 + n.count) ∧ w.countP Event.isGet = 0 ∧
      w.countP Event.isWait = 1 + 24 + 24 * n.count ∧ (dataAtRise false false w).length = 8 + 8 * n.count ∧
      r.countP Event.isDir = 3 ∧ r.countP Event.isSet = 30 + 16 * n.count ∧ r.countP Event.isGet = 8 * n.count ∧
      r.countP Event.isWait = 1 + 24 + 8 * n.count ∧ (dataAtRise false false r).length = 8 + 8 * n.count

/-- 20_memory.md R53 and R54 on the wire: at its CLK rising edges a write shows the command byte's bits, then each data byte's, least-significant
first and in buffer order. -/
def Obligations.WriteShowsBitsLeastSignificantFirst : Prop :=
  ∀ (c : Byte) (n : DataLen) (b : Vector Byte 8),
    dataAtRise false false (eventsOf (transactionOps c .write n b) []) =
      ((c :: bufBytes b n).flatMap fun v => [v.getLsbD 0, v.getLsbD 1, v.getLsbD 2, v.getLsbD 3, v.getLsbD 4, v.getLsbD 5,
        v.getLsbD 6, v.getLsbD 7])

/-- R124: `writeByte(0x00, 0b10110000)` shows `0,0,0,0,0,0,0,1, 0,0,0,0,1,1,0,1` at the 16 rising edges, under the default parameters. That the run
is the request's own step, without an event, and then its 105 events is the model's reading (log entry 6). -/
def Obligations.SourcesBitOrderExample : Prop :=
  ∀ s : State, s.canTransact = true → s.params = .default → s.arrivals = [] →
    ∃ (t : State) (es : List Event), Host.Core.run Sys2Proof.core (1 + 105) (s.ask (.wrb 0x00 0b10110000)) = .next t ∧
      t.replies = .ok .none :: s.replies ∧ t.trace = es.reverse ++ s.trace ∧
      dataAtRise false false es =
        [false, false, false, false, false, false, false, true, false, false, false, false, true, true, false, true]

/-- R273: the least duration of a write and of a read of `n` bytes, counting the waits. -/
def Obligations.MinimumDurations : Prop :=
  ∀ (c : Byte) (n : DataLen) (b : Vector Byte 8) (ss : List Bool),
    minDuration (eventsOf (transactionOps c .write n b) ss) =
        Config.tCeSetup + 8 * (1 + n.count) * (Config.tDataSetup + Config.tClkHigh + Config.tClkLow) ∧
      minDuration (eventsOf (transactionOps c .read n b) ss) =
        Config.tCeSetup + 8 * (Config.tDataSetup + Config.tClkHigh + Config.tClkLow) + 8 * n.count * Config.tClkLow

/-! ## Admission -/

/-- R102: the checks A0 to A5, in order, that a request waits while another is in progress, what acceptance latches, and that a refused request emits no
event and changes nothing but the mark. That the waiting request stays at the head of the queue is the model's choice (log entry 11), that it
waits between the two transactions of a CLRWP too is another (log entry 31), and that its acceptance is a step of its own, with no event, is its reading
(log entry 6). What the chip's timekeeping does at acceptance (log entry 12) is no part of
this statement. -/
def Obligations.AdmissionChecksInOrder : Prop :=
  ∀ (c : Byte) (d : Direction) (n : Nat) (bytes : List Byte) (s : State),
    (∀ why, s.engaged = false → admission c d n bytes s = .refuse why →
      step (s.ask (.transact c d n bytes)) = .next { s with replies := .refused why :: s.replies }) ∧
      (s.devState = .unbound ∨ s.devState = .failed → admission c d n bytes s = .refuse .notBound) ∧
      (s.devState = .initialising ∨ s.devState = .ready →
        (s.engaged = true → admission c d n bytes s = .hold ∧ ∀ t : State, step (s.ask (.transact c d n bytes)) = .next t →
          t.pending.head? = some (.request (.transact c d n bytes))) ∧
        (s.engaged = false → decodeCommand s.params c = none → admission c d n bytes s = .refuse .unknownCommand) ∧
        (s.engaged = false → decodeCommand s.params c ≠ none → ¬(d = .read ↔ isRead s.params c = true) →
          admission c d n bytes s = .refuse .directionMismatch) ∧
        (s.engaged = false → decodeCommand s.params c ≠ none → (d = .read ↔ isRead s.params c = true) → n ≠ (dataLen s.params c).count →
          admission c d n bytes s = .refuse .lengthMismatch) ∧
        (s.engaged = false → decodeCommand s.params c ≠ none → (d = .read ↔ isRead s.params c = true) → n = (dataLen s.params c).count →
          d = .write → bytes.length ≠ n → admission c d n bytes s = .refuse .lengthMismatch) ∧
        (s.engaged = false → decodeCommand s.params c ≠ none → (d = .read ↔ isRead s.params c = true) → n = (dataLen s.params c).count →
          (d = .write → bytes.length = n) →
            admission c d n bytes s = .accept ∧
            ∃ t : State, step (s.ask (.transact c d n bytes)) = .next t ∧ t.cmd = c ∧ t.dir = d ∧ t.len.count = n ∧
              (∀ k, k < n → bufByte t.buf k = match d with | .write => bytes.getD k 0 | .read => 0) ∧
              (∀ k, n ≤ k → bufByte t.buf k = bufByte s.buf k) ∧ t.phase = .busy ∧ t.mpc = 0 ∧ t.trace = s.trace ∧
              t.replies = s.replies ∧ t.ce = s.ce ∧ t.clk = s.clk ∧ t.data = s.data))

/-- A0 of R102 for the 18 instructions: on a device that is not bound each is refused, with nothing but the mark. -/
def Obligations.UnboundDeviceRefusesEveryInstruction : Prop :=
  ∀ (i : Instr) (s : State), s.devState = .unbound ∨ s.devState = .failed →
    exec i s = .next { s with replies := .refused .notBound :: s.replies }

/-- A1 of R102 for the 18 instructions: while another request is in progress the request is held. That it is held at the head is the model's choice (log
entry 11), and so is that it is held between the two transactions of a CLRWP (log entry 31). -/
def Obligations.BusyEngineHoldsEveryInstruction : Prop :=
  ∀ (i : Instr) (s : State), s.devState = .initialising ∨ s.devState = .ready → s.engaged = true →
    exec i s = .next { s with pending := .frame (encode s.params i) :: s.pending }

/-- A5 of R102 for WR_BURST: any number of bytes but 8 is refused, with nothing but the mark. -/
def Obligations.BurstWriteOfAnotherLengthIsRefused : Prop :=
  ∀ (bytes : List Byte) (s : State), s.bound = true → s.engaged = false → s.params.wf = true → bytes.length ≠ 8 →
    exec (.wrBurst bytes) s = .next { s with replies := .refused .lengthMismatch :: s.replies }

/-- The field check of R120 and R121: `RDB` and `WRB` of a byte that is no register's field are refused before framing, with nothing but the mark. And the
device-state check of 60_exceptions.md R234, R236, which comes before it: on an Unbound or Failed device RDB, WRB, RDBURST, WRBURST and CLRWP are refused
NotBound, whatever their operands. -/
def Obligations.FieldIsCheckedBeforeFraming : Prop :=
  ∀ (a v : Byte) (bytes : List Byte) (s : State), s.engaged = false →
    (s.bound = true → (∀ r : Reg, r.field s.params ≠ a) →
      step (s.ask (.rdb a)) = .next { s with replies := .refused .unknownCommand :: s.replies } ∧
        step (s.ask (.wrb a v)) = .next { s with replies := .refused .unknownCommand :: s.replies }) ∧
      (s.devState = .unbound ∨ s.devState = .failed →
        ∀ r ∈ [Request.rdb a, .wrb a v, .rdBurst, .wrBurst bytes, .clrWp],
          step (s.ask r) = .next { s with replies := .refused .notBound :: s.replies })

/-- R120 to R123: the requests RDB, WRB, RDBURST and WRBURST on a device that can transact. The step that serves one accepts the TRANSACT it stands for, as
exec of its instruction does (a WRBURST of any number of bytes but 8 is refused as that instruction is), and, while nobody else asks anything, the steps of
its events bring its result. That the acceptance is a step of its own, without an event, and that the framed command, TRANSACT and these requests are forms
of one transaction is the model's reading (log entries 6 and 22). -/
def Obligations.RegisterRequestsRunTheirInstruction : Prop :=
  ∀ (r : Reg) (v : Byte) (bytes : List Byte) (s : State), s.canTransact = true →
    (step (s.ask (.rdb (r.field s.params))) = step (s.ask (.transact (cmdRead s.params (r.field s.params)) .read 1 [])) ∧
      step (s.ask (.wrb (r.field s.params) v)) = step (s.ask (.transact (cmdWrite s.params (r.field s.params)) .write 1 [v])) ∧
      step (s.ask .rdBurst) = step (s.ask (.transact (burstReadAddr s.params) .read 8 [])) ∧
      step (s.ask (.wrBurst bytes)) = step (s.ask (.transact (burstWriteAddr s.params) .write 8 bytes))) ∧
      (step (s.ask (.rdb (r.field s.params))) = exec (.readOf r) s ∧
        step (s.ask (.wrb (r.field s.params) v)) = exec (.writeOf r v) s ∧
        step (s.ask .rdBurst) = exec .rdBurst s ∧
        step (s.ask (.wrBurst bytes)) = exec (.wrBurst bytes) s) ∧
      (s.arrivals = [] →
        (∃ t : State, Host.Core.run Sys2Proof.core (1 + 90) (s.ask (.rdb (r.field s.params))) = .next t ∧ t.engaged = false ∧
          t.replies = .ok (.bytes [bufByte t.buf 0]) :: s.replies) ∧
          (∃ t : State, Host.Core.run Sys2Proof.core (1 + 105) (s.ask (.wrb (r.field s.params) v)) = .next t ∧ t.engaged = false ∧
            t.replies = .ok .none :: s.replies) ∧
          (∃ t : State, Host.Core.run Sys2Proof.core (1 + 314) (s.ask .rdBurst) = .next t ∧ t.engaged = false ∧
            t.replies = .ok (.bytes (bufBytes t.buf .eight)) :: s.replies) ∧
          (bytes.length = 8 → ∃ t : State, Host.Core.run Sys2Proof.core (1 + 441) (s.ask (.wrBurst bytes)) = .next t ∧ t.engaged = false ∧
            t.replies = .ok .none :: s.replies))

/-! ## What each instruction does

Exec accepts an instruction's transaction and answers the Busy state `a`; the engine's steps from `a`, one event each while nobody else asks anything, bring
its effect and end in the Idle state `t` (00_scope.md R7, 40_transfer_engine.md R102, R114). That the acceptance is a step without an event is the model's
reading (log entry 6). -/

/-- R115: each of the 18 well-formed instructions completes from every bound device with nothing in progress whose CE and CLK are outputs, for every oracle:
accepted without an event, and after one step an event lines idle, phase Idle, the control block as it was, and the events are the fixed sequence of the
command, whatever levels `ss` the chip gave. The instructions: WR_ and RD_ of SEC, MIN, HOUR, DATE, MONTH, WDAY, YEAR, WP and BURST. -/
def Obligations.EveryInstructionCompletesWithIdleLines : Prop :=
  ∀ (i : Instr) (s : State), WellFormed i → s.canTransact = true → s.arrivals = [] →
    ∃ (a t : State) (r : Result) (ss : List Bool), exec i s = .next a ∧ a.phase = .busy ∧ a.mpc = 0 ∧ a.trace = s.trace ∧ a.replies = s.replies ∧
      (encode s.params i).head? = some a.cmd ∧ Host.Core.run Sys2Proof.core (transactionLength a.dir a.len) a = .next t ∧
      t.linesIdle = true ∧ t.phase = .idle ∧ SameControl s t ∧ t.replies = .ok r :: s.replies ∧ t.cmd = a.cmd ∧
      t.trace = (eventsOf (transactionOps a.cmd a.dir a.len a.buf) ss).reverse ++ s.trace

/-- RD_SEC, RD_MIN, RD_HOUR, RD_DATE, RD_MONTH, RD_WDAY, RD_YEAR, RD_WP for every oracle (R110, R112, R120): the result is the eight sampled levels,
first one least significant; the events are the fixed sequence; no chip register changes but for what its timekeeping did before the transaction
(`Chip.tick`, 20_memory.md R61, its moment log entry 12); nothing else changes. Of a test double that replays levels (60_exceptions.md R247), with
enough of them listed, the samples are the first eight, and the rest stay for the transactions to come. -/
def Obligations.DiscreteReadResultAndFrame : Prop :=
  ∀ (r : Reg) (s : State), s.canTransact = true → s.arrivals = [] →
    ∃ (a t : State) (ss : List Bool), exec (.readOf r) s = .next a ∧ a.phase = .busy ∧ a.trace = s.trace ∧
      Host.Core.run Sys2Proof.core 90 a = .next t ∧ ss.length = 8 ∧
      t.replies = .ok (.bytes [byteOf ss]) :: s.replies ∧
      t.trace = (eventsOf (transactionOps (cmdRead s.params (r.field s.params)) .read .one s.buf) ss).reverse ++ s.trace ∧
      (∀ a, t.chip.cr.read a = (s.chip.tick s.draws).1.cr.read a) ∧
      t.cmd = cmdRead s.params (r.field s.params) ∧ t.dir = .read ∧ t.len = .one ∧ bufByte t.buf 0 = byteOf ss ∧
      (∀ k, 1 ≤ k → bufByte t.buf k = bufByte s.buf k) ∧ t.linesIdle = true ∧ t.phase = .idle ∧ SameControl s t ∧
      ∀ ls, s.chip.oracle = .replay ls → 8 ≤ ls.length → ss = ls.take 8 ∧ t.chip.oracle = .replay (ls.drop 8)

/-- R120 under the reference oracle of 20_memory.md R60: a discrete read returns the register's byte. -/
def Obligations.ReferenceReadReturnsTheRegister : Prop :=
  ∀ (r : Reg) (s : State), s.canTransact = true → s.arrivals = [] → s.chip.oracle = .reference →
    ∃ a t : State, exec (.readOf r) s = .next a ∧ Host.Core.run Sys2Proof.core 90 a = .next t ∧
      t.replies = .ok (.bytes [s.chip.cr.reg r]) :: s.replies ∧ t.chip.cr = s.chip.cr

/-- WR_SEC, WR_MIN, WR_HOUR, WR_DATE, WR_MONTH, WR_WDAY, WR_YEAR, WR_WP (R121, 20_memory.md R58, R59): the register holds `v` afterwards, unless the
guard bit is set and the register is not the write-protect one, when nothing is stored; every other address reads as the chip's timekeeping left it
(log entry 12); the events are the fixed sequence; nothing else changes. That the registers follow these rules under every oracle, and not under the
reference one alone, is the model's reading (log entry 20). -/
def Obligations.DiscreteWriteEffectAndFrame : Prop :=
  ∀ (r : Reg) (v : Byte) (s : State), s.canTransact = true → s.arrivals = [] → s.chip.cr.wf = true →
    ∃ a t : State, exec (.writeOf r v) s = .next a ∧ a.phase = .busy ∧ a.trace = s.trace ∧
      Host.Core.run Sys2Proof.core 105 a = .next t ∧ t.replies = .ok .none :: s.replies ∧
      t.trace = (eventsOf (transactionOps (cmdWrite s.params (r.field s.params)) .write .one t.buf) []).reverse ++ s.trace ∧
      (s.chip.cr.guarded s.params = false ∨ r = .wp → t.chip.cr.read r.addr = v) ∧
      (s.chip.cr.guarded s.params = true → r ≠ .wp → t.chip.cr.read r.addr = (s.chip.tick s.draws).1.cr.read r.addr) ∧
      (∀ a, a ≠ r.addr → t.chip.cr.read a = (s.chip.tick s.draws).1.cr.read a) ∧
      t.cmd = cmdWrite s.params (r.field s.params) ∧ t.dir = .write ∧ t.len = .one ∧ bufByte t.buf 0 = v ∧
      (∀ k, 1 ≤ k → bufByte t.buf k = bufByte s.buf k) ∧ t.linesIdle = true ∧ t.phase = .idle ∧ SameControl s t

/-- RD_BURST for every oracle (R110, R112, R122): the result is the eight sampled bytes; the frame of a read (the moment of the
chip's timekeeping is log entry 12's). Of a test double that replays levels (60_exceptions.md R247), with enough of them listed, the samples are the first
64, and the rest stay for the transactions to come. -/
def Obligations.BurstReadResultAndFrame : Prop :=
  ∀ s : State, s.canTransact = true → s.arrivals = [] →
    ∃ (a t : State) (ss : List Bool), exec .rdBurst s = .next a ∧ a.phase = .busy ∧ a.trace = s.trace ∧
      Host.Core.run Sys2Proof.core 314 a = .next t ∧ ss.length = 64 ∧
      t.replies = .ok (.bytes (bytesOfSamples 8 ss)) :: s.replies ∧
      t.trace = (eventsOf (transactionOps (burstReadAddr s.params) .read .eight s.buf) ss).reverse ++ s.trace ∧
      (∀ a, t.chip.cr.read a = (s.chip.tick s.draws).1.cr.read a) ∧
      t.cmd = burstReadAddr s.params ∧ t.dir = .read ∧ t.len = .eight ∧ (∀ k, k < 8 → bufByte t.buf k = byteOf (ss.drop (8 * k))) ∧
      t.linesIdle = true ∧ t.phase = .idle ∧ SameControl s t ∧
      ∀ ls, s.chip.oracle = .replay ls → 64 ≤ ls.length → ss = ls.take 64 ∧ t.chip.oracle = .replay (ls.drop 64)

/-- R122 under the reference oracle: a burst read returns all eight registers, byte `k` being register `k` (20_memory.md R51). -/
def Obligations.ReferenceBurstReadReturnsAllRegisters : Prop :=
  ∀ s : State, s.canTransact = true → s.arrivals = [] → s.chip.oracle = .reference →
    ∃ a t : State, exec .rdBurst s = .next a ∧ Host.Core.run Sys2Proof.core 314 a = .next t ∧ t.chip.cr = s.chip.cr ∧
      t.replies = .ok (.bytes [s.chip.cr.reg .sec, s.chip.cr.reg .min, s.chip.cr.reg .hour, s.chip.cr.reg .date,
        s.chip.cr.reg .month, s.chip.cr.reg .wday, s.chip.cr.reg .year, s.chip.cr.reg .wp]) :: s.replies

/-- WR_BURST (R123, 20_memory.md R58): with the guard bit clear, register `k` holds byte `k` afterwards, for all eight; no other address changes; the
frame of a write. That the registers take the bytes under every oracle, and not under the reference one alone, is the model's reading (log entry 20). -/
def Obligations.BurstWriteEffectAndFrame : Prop :=
  ∀ (bytes : List Byte) (s : State), s.canTransact = true → s.arrivals = [] → s.chip.cr.wf = true → bytes.length = 8 → s.chip.cr.guarded s.params = false →
    ∃ a t : State, exec (.wrBurst bytes) s = .next a ∧ a.phase = .busy ∧ a.trace = s.trace ∧
      Host.Core.run Sys2Proof.core 441 a = .next t ∧ t.replies = .ok .none :: s.replies ∧
      t.trace = (eventsOf (transactionOps (burstWriteAddr s.params) .write .eight t.buf) []).reverse ++ s.trace ∧
      (∀ r : Reg, t.chip.cr.read r.addr = bytes.getD r.index 0) ∧
      (∀ a, (∀ r : Reg, a ≠ r.addr) → t.chip.cr.read a = (s.chip.tick s.draws).1.cr.read a) ∧
      t.cmd = burstWriteAddr s.params ∧ t.dir = .write ∧ t.len = .eight ∧ (∀ k, k < 8 → bufByte t.buf k = bytes.getD k 0) ∧
      t.linesIdle = true ∧ t.phase = .idle ∧ SameControl s t

/-- WR_BURST while the guard bit is set (20_memory.md R59: any value for each register): it completes all the same, whatever bytes it leaves in the
eight registers, and no other address changes. -/
def Obligations.GuardedBurstWriteCompletes : Prop :=
  ∀ (bytes : List Byte) (s : State), s.canTransact = true → s.arrivals = [] → s.chip.cr.wf = true → bytes.length = 8 → s.chip.cr.guarded s.params = true →
    ∃ a t : State, exec (.wrBurst bytes) s = .next a ∧ a.phase = .busy ∧ a.trace = s.trace ∧
      Host.Core.run Sys2Proof.core 441 a = .next t ∧ t.replies = .ok .none :: s.replies ∧
      t.trace = (eventsOf (transactionOps (burstWriteAddr s.params) .write .eight t.buf) []).reverse ++ s.trace ∧ t.chip.cr.wf = true ∧
      (∀ a, (∀ r : Reg, a ≠ r.addr) → t.chip.cr.read a = (s.chip.tick s.draws).1.cr.read a) ∧
      (∀ k, k < 8 → bufByte t.buf k = bytes.getD k 0) ∧ t.linesIdle = true ∧ t.phase = .idle ∧ SameControl s t

/-- 20_memory.md R64, for one register under the reference oracle with the guard bit clear: a read after a write returns the value written. -/
def Obligations.ReadAfterWriteReturnsTheValue : Prop :=
  ∀ (r : Reg) (v : Byte) (s : State), s.canTransact = true → s.arrivals = [] → s.chip.cr.wf = true → s.chip.oracle = .reference →
    s.chip.cr.guarded s.params = false →
      ∃ a t b u : State, exec (.writeOf r v) s = .next a ∧ Host.Core.run Sys2Proof.core 105 a = .next t ∧
        exec (.readOf r) t = .next b ∧ Host.Core.run Sys2Proof.core 90 b = .next u ∧
        u.replies = .ok (.bytes [v]) :: .ok .none :: s.replies

/-- R112's `transact`, one function from acceptance to Idle, is the engine's own steps (R114, R119): from a device that can transact, while nobody else asks
anything, TRANSACT's acceptance and then one step an event, L of them, end in the state that function gives, with its result delivered. That the acceptance
is a step of its own is the model's reading (log entry 6), and so is the `mpc` the two ends share, L, which R27 leaves unspecified while Idle (log entry
22). -/
def Obligations.WholeTransactionIsItsEngineSteps : Prop :=
  ∀ (c : Byte) (d : Direction) (n : Nat) (bytes : List Byte) (s : State), s.canTransact = true → s.arrivals = [] →
    admission c d n bytes s = .accept →
      ∃ t : State, transact c d bytes s = .ok t ∧ t.phase = .idle ∧
        Host.Core.run Sys2Proof.core (1 + transactionLength d (dataLen s.params c)) (s.ask (.transact c d n bytes)) = .next t.deliver

/-- 20_memory.md R61 as modelled (the moment, the one change per transaction and the list of premises are log entry 12): under the reference oracle the
chip's time stands still; under any other the next premise is used up, a new calendar becomes the contents of `CR[0..6]` and no premise leaves them; and past
the last one each of them holds a draw. The write-protect register is never touched, and nothing else of the chip. -/
def Obligations.TicksTouchTheCalendarAlone : Prop :=
  ∀ (x : Chip) (n : Nat), x.cr.wf = true →
    let y := (x.tick n).1
    y.cr.wf = true ∧ y.cr.reg .wp = x.cr.reg .wp ∧ y.oracle = x.oracle ∧ y.bitPos = x.bitPos ∧
      (x.oracle = .reference → y = x ∧ (x.tick n).2 = n) ∧
      (x.oracle ≠ .reference →
        (∀ t ts, x.ticks = some t :: ts → y.cr.calendar = t ∧ y.ticks = ts ∧ (x.tick n).2 = n) ∧
          (∀ ts, x.ticks = none :: ts → y.cr = x.cr ∧ y.ticks = ts ∧ (x.tick n).2 = n) ∧
          (x.ticks = [] → (∀ r, r ≠ .wp → y.cr.reg r = Config.freeByte (n + r.index)) ∧ y.ticks = [] ∧ (x.tick n).2 = n + 7))

/-! ## The codec -/

/-- The laws of R151 between `bcd2bin` and `bin2bcd`, and the range R150 gives. -/
def Obligations.BcdPrimitivesInvertEachOther : Prop :=
  (∀ v : Nat, v ≤ 99 → bcd2bin (bin2bcd v) = v) ∧
    (∀ b : Byte, (b.extractLsb 7 4).toNat ≤ 9 → (b.extractLsb 3 0).toNat ≤ 9 → bin2bcd (bcd2bin b).toNat = b) ∧
    ∀ b : Byte, 0 ≤ bcd2bin b ∧ bcd2bin b ≤ 165

/-- R161 by the decimal digits of R150 (high nibble times ten plus low nibble): seconds, minutes and day as they stand, month and weekday less one, year from
100; the hour as it stands under H24, and under H12 by R156: twelve times bit 5, plus the digits of the low five bits, less one. And the output ranges of
R161, over all bytes. -/
def Obligations.DecodeOutputRanges : Prop :=
  ∀ (m : HourMode) (raw : RawTime),
    let t := decodeTime m raw
    let digits := fun n : Nat => (10 * (n / 16) + n % 16 : Int)
    (t.sec = digits raw.sec.toNat ∧ t.min = digits raw.min.toNat ∧ t.mday = digits raw.date.toNat ∧
        t.mon = digits raw.month.toNat - 1 ∧ t.wday = digits raw.wday.toNat - 1 ∧ t.year = 100 + digits raw.year.toNat ∧
        (m = .h24 → t.hour = digits raw.hour.toNat) ∧
        (m = .h12 → t.hour = 12 * (raw.hour.toNat / 32 % 2 : Nat) + digits (raw.hour.toNat % 32) - 1)) ∧
      (0 ≤ t.sec ∧ t.sec ≤ 165) ∧ (0 ≤ t.min ∧ t.min ≤ 165) ∧ (0 ≤ t.mday ∧ t.mday ≤ 165) ∧
      (m = .h24 → 0 ≤ t.hour ∧ t.hour ≤ 165) ∧ (m = .h12 → -1 ≤ t.hour ∧ t.hour ≤ 36) ∧
      (-1 ≤ t.mon ∧ t.mon ≤ 164) ∧ (-1 ≤ t.wday ∧ t.wday ≤ 164) ∧ (100 ≤ t.year ∧ t.year ≤ 265)

/-- R163 to R170 by the decimal digits of R151 (tens in the high nibble, of which four bits are kept, units in the low one), for every time `encode` gives a
meaning to: seconds, minutes and day as they stand, month and weekday plus one, year less 100; the hour as it stands under H24. Under H12, by R166, for
every hour: bit 7, bit 5 from noon on, and the digits of the hour less 12 from noon on, plus one, merged by OR (-1 gives 0x80; from 31 on the tens meet bit
5); and for an hour 0..23, where nothing meets, the sum of the three. -/
def Obligations.EncodeWritesTheDecimalDigits : Prop :=
  ∀ (m : HourMode) (t : WallClock) (raw : RawTime), encodeTime m t = some raw →
    let digits := fun v : Int => 16 * (v / 10 % 16) + v % 10
    (raw.sec.toNat : Int) = digits t.sec ∧ (raw.min.toNat : Int) = digits t.min ∧ (raw.date.toNat : Int) = digits t.mday ∧
      (raw.month.toNat : Int) = digits (t.mon + 1) ∧ (raw.wday.toNat : Int) = digits (t.wday + 1) ∧
      (raw.year.toNat : Int) = digits (t.year - 100) ∧
      (m = .h24 → (raw.hour.toNat : Int) = digits t.hour) ∧
      (m = .h12 → raw.hour = 0x80 ||| (if 12 ≤ t.hour then 0x20 else 0x00) |||
        BitVec.ofInt 8 (digits ((if 12 ≤ t.hour then t.hour - 12 else t.hour) + 1))) ∧
      (m = .h12 → 0 ≤ t.hour → t.hour < 12 → (raw.hour.toNat : Int) = 128 + digits (t.hour + 1)) ∧
      (m = .h12 → 12 ≤ t.hour → t.hour < 24 → (raw.hour.toNat : Int) = 128 + 32 + digits (t.hour - 11))

/-- R173: for every valid time and both hour encodings, decoding the encoding gives the time back, field for field. -/
def Obligations.DecodeOfEncodeIsTheTime : Prop :=
  ∀ (m : HourMode) (t : WallClock), t.valid = true → ∃ raw : RawTime, encodeTime m t = some raw ∧ decodeTime m raw = t

/-- R172: `encode` is refused exactly when a value it would pass to `bin2bcd` is negative. -/
def Obligations.EncodeRefusesNegativesAlone : Prop :=
  ∀ (m : HourMode) (t : WallClock), encodeTime m t = none ↔
    (t.sec < 0 ∨ t.min < 0 ∨ t.mday < 0 ∨ t.mon + 1 < 0 ∨ t.wday + 1 < 0 ∨ t.year - 100 < 0 ∨
      (match m with | .h24 => t.hour < 0 | .h12 => (if 12 ≤ t.hour then t.hour - 12 else t.hour) + 1 < 0))

/-- R152, R162, R171 and R172 as requests: DECODE answers the record, ENCODE the bytes, 8 with the filler 0x00 exactly in burst mode and 7 otherwise, or
the refusal; nothing else changes. That an unset mode reads as H24 and as no burst is the model's choice (log entry 17). -/
def Obligations.CodecRequestsAnswerAndChangeNothing : Prop :=
  ∀ (raw : RawTime) (t : WallClock) (s : State), s.engaged = false →
    step (s.ask (.decode raw)) = .next { s with replies := .ok (.time (decodeTime (s.hourMode.getD .h24) raw)) :: s.replies } ∧
      (∀ r, encodeTime (s.hourMode.getD .h24) t = some r →
        step (s.ask (.encode t)) = .next { s with
          replies := .ok (.bytes ([r.sec, r.min, r.hour, r.date, r.month, r.wday, r.year] ++ (if s.burstMode = some true then [0x00] else [])))
            :: s.replies }) ∧
      (encodeTime (s.hourMode.getD .h24) t = none →
        step (s.ask (.encode t)) = .next { s with replies := .refused .negativeEncode :: s.replies })

/-! ## Write-protect clear and facade -/

/-- R174 and R175, for every oracle: CLRWP reads the write-protect byte by RD_WP and decides on the guard bit of the byte it read, the eight levels `ss` it
sampled. If that shows the guard bit, WR_WP of 0x00 follows and the record says WasSet; else RD_WP runs alone and the record says WasClear. And under
the reference oracle the byte read is `CR[7]`: with its guard bit set the register holds 0x00 afterwards, with it clear the register stays; the other
registers stay. The rest is no part of R174 and R175: that WR_WP follows RD_WP directly, with no
transaction of a request that waits between them, is the model's choice (DESIGN CHOICE, log entry 31), for R174 and 20_memory.md R66 call the pair not
atomic; and that the start and the write's acceptance are steps of their own, without an event, is its reading (log entry 6). -/
def Obligations.ClearWriteProtectClearsTheGuard : Prop :=
  ∀ s : State, s.canTransact = true → s.arrivals = [] →
    ∃ (t : State) (ss : List Bool) (es : List Event), ss.length = 8 ∧
      Host.Core.run Sys2Proof.core (1 + 90 + if guardSet s.params (byteOf ss) = true then 1 + 105 else 0) (s.ask .clrWp) = .next t ∧
      t.replies = .ok .none :: s.replies ∧ t.trace = es.reverse ++ s.trace ∧ t.linesIdle = true ∧ t.engaged = false ∧
      (guardSet s.params (byteOf ss) = true → t.wpRecord = .wasSet ∧
        es = transactionEvents (cmdRead s.params s.params.aWp) .read .one [] ss ++
          transactionEvents (cmdWrite s.params s.params.aWp) .write .one [0x00] [] ∧
        commandsOf es = [cmdRead s.params s.params.aWp, cmdWrite s.params s.params.aWp]) ∧
      (guardSet s.params (byteOf ss) = false → t.wpRecord = .wasClear ∧
        es = transactionEvents (cmdRead s.params s.params.aWp) .read .one [] ss ∧ commandsOf es = [cmdRead s.params s.params.aWp]) ∧
      (s.chip.oracle = .reference → s.chip.cr.wf = true →
        guardSet s.params (byteOf ss) = s.chip.cr.guarded s.params ∧ (∀ r, r ≠ .wp → t.chip.cr.reg r = s.chip.cr.reg r) ∧
          t.chip.cr.reg .wp = if s.chip.cr.guarded s.params = true then 0x00 else s.chip.cr.reg .wp)

/-- R202: INIT of an Unbound device whose three lines can be acquired succeeds for every oracle: Ready, Idle, the modes latched, the lines acquired and
idle, the six idle-setting events first (CE first), then RD_WP. If the byte it read, the eight levels `ss` it sampled, shows the guard bit, WR_WP of 0x00
follows and the record says WasSet; else RD_WP runs alone and the record says WasClear (41_calendar_codec.md R174, 70_reset_and_hazards.md R263, 10_state.md
R34). And under the reference oracle the byte read is `CR[7]` (10_state.md R40): with its guard bit set the register holds 0x00 afterwards, with it clear
the register stays; the other registers stay. That the start and each acceptance are steps of their own, without an event, is the model's reading (log
entry 6). -/
def Obligations.InitMakesTheDeviceReady : Prop :=
  ∀ (ce clk data : Binding) (burst : Bool) (h : HourMode) (s : State), s.devState = .unbound → s.engaged = false → s.arrivals = [] →
    s.params.wf = true → ce.acquirable = true → clk.acquirable = true → data.acquirable = true →
      ∃ (t : State) (ss : List Bool) (es : List Event), ss.length = 8 ∧
        Host.Core.run Sys2Proof.core (1 + 6 + 1 + 90 + if guardSet s.params (byteOf ss) = true then 1 + 105 else 0)
          (s.ask (.init ce clk data burst h)) = .next t ∧
        t.replies = .ok .none :: s.replies ∧
        t.devState = .ready ∧ t.engaged = false ∧ t.burstMode = some burst ∧ t.hourMode = some h ∧ t.ceBinding = some ce.handle ∧
        t.clkBinding = some clk.handle ∧ t.dataBinding = some data.handle ∧ t.linesIdle = true ∧ t.pending = s.pending ∧
        t.trace = es.reverse ++ ([.dir .ce .out, .set .ce false, .dir .clk .out, .set .clk false, .dir .data .out,
          .set .data false] : List Event).reverse ++ s.trace ∧
        (guardSet s.params (byteOf ss) = true → t.wpRecord = .wasSet ∧
          es = transactionEvents (cmdRead s.params s.params.aWp) .read .one [] ss ++
            transactionEvents (cmdWrite s.params s.params.aWp) .write .one [0x00] [] ∧
          commandsOf es = [cmdRead s.params s.params.aWp, cmdWrite s.params s.params.aWp]) ∧
        (guardSet s.params (byteOf ss) = false → t.wpRecord = .wasClear ∧
          es = transactionEvents (cmdRead s.params s.params.aWp) .read .one [] ss ∧ commandsOf es = [cmdRead s.params s.params.aWp]) ∧
        (s.chip.oracle = .reference → s.chip.cr.wf = true →
          guardSet s.params (byteOf ss) = s.chip.cr.guarded s.params ∧ (∀ r, r ≠ .wp → t.chip.cr.reg r = s.chip.cr.reg r) ∧
            t.chip.cr.reg .wp = if s.chip.cr.guarded s.params = true then 0x00 else s.chip.cr.reg .wp)

/-- R231: INIT of an Unbound device with a line that cannot be acquired fails the binding: BindingError, Failed, nothing acquired, no event, and no
transaction is admitted from there. INIT of a device that is not Unbound, a Failed one among them, is refused with nothing but the mark, so the
failure is final until unbind makes the device Unbound again. -/
def Obligations.InitFailsOrIsRefused : Prop :=
  ∀ (ce clk data : Binding) (burst : Bool) (h : HourMode) (s : State), s.engaged = false →
    (s.devState = .unbound → ¬(ce.acquirable = true ∧ clk.acquirable = true ∧ data.acquirable = true) →
      ∃ t : State, step (s.ask (.init ce clk data burst h)) = .next t ∧ t.devState = .failed ∧
        t.replies = .bindingError :: s.replies ∧ t.trace = s.trace ∧ t.ceBinding = none ∧ t.clkBinding = none ∧ t.dataBinding = none ∧
        t.chip = s.chip ∧ ∀ c d n bytes, admission c d n bytes t = .refuse .notBound) ∧
      (s.devState ≠ .unbound →
        step (s.ask (.init ce clk data burst h)) = .next { s with replies := .refused .notUnbound :: s.replies })

/-- R208, with R203 and R204: READTIME of a Ready device never fails, for every oracle. In burst mode it runs one RD_BURST, and the record is the decoding,
under the device's hour encoding, of the first seven of the eight bytes sampled; otherwise it runs the seven discrete reads in register order, and the
record is the decoding of the seven bytes sampled. The control block stays. That one step starts it and
one accepts each discrete read but the first, without an event, is the model's reading (log entry 6). -/
def Obligations.ReadTimeNeverFails : Prop :=
  ∀ s : State, s.devState = .ready → s.canTransact = true → s.arrivals = [] →
    ∃ (t : State) (raw : RawTime) (es : List Event),
      Host.Core.run Sys2Proof.core (1 + if s.burstMode = some true then 314 else 7 * 90 + 6) (s.ask .readTime) = .next t ∧
      t.replies = .ok (.time (decodeTime (s.hourMode.getD .h24) raw)) :: s.replies ∧ t.trace = es.reverse ++ s.trace ∧
      (s.burstMode = some true → ∃ ss : List Bool, ss.length = 64 ∧
        es = transactionEvents (burstReadAddr s.params) .read .eight [] ss ∧ raw.toList = (bytesOfSamples 8 ss).take 7) ∧
      (s.burstMode ≠ some true → ∃ sss : List (List Bool), sss.length = 7 ∧ (∀ ss ∈ sss, ss.length = 8) ∧
        es = ([Reg.sec, .min, .hour, .date, .month, .wday, .year].zip sss).flatMap (fun q =>
          transactionEvents (cmdRead s.params (q.1.field s.params)) .read .one [] q.2) ∧ raw.toList = sss.map byteOf) ∧
      SameControl s t ∧ t.linesIdle = true ∧ t.phase = .idle ∧ (s.chip.oracle = .reference → t.chip.cr = s.chip.cr)

/-- R203 and R204 under the reference oracle: READTIME returns the decoding of `CR[0..6]`, by one RD_BURST in burst mode and by the seven discrete reads in
register order otherwise. The count of steps without an event is the model's reading (log entry 6). -/
def Obligations.ReadTimeDecodesTheRegisters : Prop :=
  ∀ s : State, s.devState = .ready → s.canTransact = true → s.arrivals = [] → s.chip.oracle = .reference →
    ∃ (t : State) (es : List Event),
      Host.Core.run Sys2Proof.core (1 + if s.burstMode = some true then 314 else 7 * 90 + 6) (s.ask .readTime) = .next t ∧
      t.replies = .ok (.time (decodeTime (s.hourMode.getD .h24) s.chip.cr.calendar)) :: s.replies ∧
      t.trace = es.reverse ++ s.trace ∧
      commandsOf es = (if s.burstMode = some true then [burstReadAddr s.params] else
        [Reg.sec, .min, .hour, .date, .month, .wday, .year].map fun r => cmdRead s.params (r.field s.params))

/-- R209: on identical register contents, under the frozen reference oracle, burst and discrete READTIME return the same record; and burst and discrete
SETTIME of one valid time leave the same `CR[0..6]`, with 0x00 in `CR[7]` after the burst and `CR[7]` unchanged after the discrete writes. The count
of steps without an event is the model's reading (log entry 6). -/
def Obligations.BurstAndDiscreteReadTimeAgree : Prop :=
  ∀ s u : State, s.devState = .ready → u.devState = .ready → s.canTransact = true → u.canTransact = true →
    s.arrivals = [] → u.arrivals = [] → s.chip.oracle = .reference → u.chip.oracle = .reference →
    s.burstMode = some true → u.burstMode = some false → s.hourMode = u.hourMode →
    (∀ r : Reg, r ≠ .wp → s.chip.cr.reg r = u.chip.cr.reg r) →
      (∃ (t w : State) (τ : WallClock), Host.Core.run Sys2Proof.core (1 + 314) (s.ask .readTime) = .next t ∧
        Host.Core.run Sys2Proof.core (1 + (7 * 90 + 6)) (u.ask .readTime) = .next w ∧
        t.replies = .ok (.time τ) :: s.replies ∧ w.replies = .ok (.time τ) :: u.replies) ∧
      ∀ τ : WallClock, τ.valid = true → s.chip.cr.wf = true → u.chip.cr.wf = true → s.chip.cr.guarded s.params = false →
        u.chip.cr.guarded u.params = false →
        ∃ t w : State, Host.Core.run Sys2Proof.core (1 + 441) (s.ask (.setTime τ)) = .next t ∧
          Host.Core.run Sys2Proof.core (1 + (7 * 105 + 6)) (u.ask (.setTime τ)) = .next w ∧
          t.chip.cr.calendar = w.chip.cr.calendar ∧ t.chip.cr.reg .wp = 0x00 ∧ w.chip.cr.reg .wp = u.chip.cr.reg .wp

/-- R205 and R206: SETTIME of a valid time succeeds; in burst mode by one WR_BURST of the seven encoded bytes and 0x00, otherwise by the seven discrete
writes of the encoded bytes in register order. Under the reference oracle with the guard bit clear it leaves the encoding in `CR[0..6]`, and in `CR[7]` 0x00
after the burst and what stood there after the discrete writes. The count of steps without an event is the model's reading (log entry 6). -/
def Obligations.SetTimeWritesTheEncoding : Prop :=
  ∀ (τ : WallClock) (s : State), τ.valid = true → s.devState = .ready → s.canTransact = true → s.arrivals = [] →
      ∃ (t : State) (es : List Event) (raw : RawTime),
        Host.Core.run Sys2Proof.core (1 + if s.burstMode = some true then 441 else 7 * 105 + 6) (s.ask (.setTime τ)) = .next t ∧
        encodeTime (s.hourMode.getD .h24) τ = some raw ∧ t.replies = .ok .none :: s.replies ∧ t.trace = es.reverse ++ s.trace ∧
        SameControl s t ∧ t.linesIdle = true ∧
        (s.burstMode = some true → commandsOf es = [burstWriteAddr s.params] ∧
          es = transactionEvents (burstWriteAddr s.params) .write .eight (raw.toList ++ [0x00]) []) ∧
        (s.burstMode ≠ some true →
          commandsOf es = [Reg.sec, .min, .hour, .date, .month, .wday, .year].map (fun r => cmdWrite s.params (r.field s.params)) ∧
            es = ([Reg.sec, .min, .hour, .date, .month, .wday, .year].zip raw.toList).flatMap fun q =>
              transactionEvents (cmdWrite s.params (q.1.field s.params)) .write .one [q.2] []) ∧
        (s.chip.oracle = .reference → s.chip.cr.wf = true → s.chip.cr.guarded s.params = false →
          t.chip.cr.calendar = raw ∧ t.chip.cr.reg .wp = if s.burstMode = some true then 0x00 else s.chip.cr.reg .wp)

/-- R207 and R211: SETTIME of an invalid time answers InvalidArgument, with no transaction and no other change; on a device that is not Ready, READTIME and
SETTIME are refused with nothing but the mark. -/
def Obligations.FacadeRejectionsChangeNothing : Prop :=
  ∀ (τ : WallClock) (s : State), s.engaged = false →
    (s.devState = .ready → τ.valid = false →
      step (s.ask (.setTime τ)) = .next { s with replies := .invalidArgument :: s.replies }) ∧
      (s.devState ≠ .ready →
        step (s.ask (.setTime τ)) = .next { s with replies := .refused .notReady :: s.replies } ∧
          step (s.ask .readTime) = .next { s with replies := .refused .notReady :: s.replies })

/-- The facade end to end (R200): under the frozen reference oracle with the guard bit clear, in either access mode and either hour encoding, READTIME after
SETTIME of a valid time returns that time. The count of steps without an event is the model's reading (log entry 6). -/
def Obligations.ReadTimeReturnsTheTimeSet : Prop :=
  ∀ (τ : WallClock) (s : State), τ.valid = true → s.devState = .ready → s.canTransact = true → s.arrivals = [] → s.chip.cr.wf = true →
    s.chip.oracle = .reference → s.chip.cr.guarded s.params = false →
      ∃ t u : State,
        Host.Core.run Sys2Proof.core (1 + if s.burstMode = some true then 441 else 7 * 105 + 6) (s.ask (.setTime τ)) = .next t ∧
        Host.Core.run Sys2Proof.core (1 + if s.burstMode = some true then 314 else 7 * 90 + 6) (t.ask .readTime) = .next u ∧
        u.replies = .ok (.time τ) :: .ok .none :: s.replies

/-- R210: unbind makes the device Unbound, releases the lines, runs no transaction and leaves the chip alone; it is admitted only when nothing is in
progress. The model's readings: that it waits then (log entry 25, DEDUCED), between the two transactions of a CLRWP too (log entry 31), at the head of the
queue (log entry 11), that every device state admits it (log entry 15, DEDUCED). An INIT that arrives in that step and fails the binding releases the lines
itself (60_exceptions.md R231, R236), and unbind still waits. That the control block starts afresh and that Ok is put on record (log entry 15) are no part
of this statement. -/
def Obligations.UnbindReleasesTheLines : Prop :=
  ∀ s : State,
    (s.engaged = false →
      ∃ t : State, step (s.ask .unbind) = .next t ∧ t.devState = .unbound ∧ t.ceBinding = none ∧ t.clkBinding = none ∧
        t.dataBinding = none ∧ t.trace = s.trace ∧ t.chip = s.chip ∧ t.phase = .idle ∧ t.pending = s.pending) ∧
      (s.engaged = true → ∀ t : State, step (s.ask .unbind) = .next t →
        t.pending.head? = some (.request .unbind) ∧
          (s.arrivalFails = false → t.ceBinding = s.ceBinding ∧ t.clkBinding = s.clkBinding ∧ t.dataBinding = s.dataBinding) ∧
          (s.arrivalFails = true → t.devState = .failed ∧ t.ceBinding = none ∧ t.clkBinding = none ∧ t.dataBinding = none))

/-- 60_exceptions.md R248: after a host power cycle the engine starts from Unbound, Idle, with no line held and no mode set, without an event; the
write-protect register and the calendar may hold anything (free values, log entry 28), but the register space stays canonical and no address outside
it changes. That the cycle comes with nothing in progress, that the block starts as R40's first column says (the record Unknown, no mode) and that the
observation and the replies on record stay are the model's readings (DEDUCED, log entry 28). -/
def Obligations.PowerCycleStartsFromUnbound : Prop :=
  ∀ s : State, s.engaged = false → s.chip.cr.wf = true →
    ∃ t : State, step (s.ask .powerCycle) = .next t ∧ t.devState = .unbound ∧ t.engaged = false ∧ t.wpRecord = .unknown ∧
      t.burstMode = none ∧ t.hourMode = none ∧ t.ceBinding = none ∧ t.clkBinding = none ∧ t.dataBinding = none ∧ t.trace = s.trace ∧
      t.replies = s.replies ∧ t.chip.cr.wf = true ∧ (∀ a, (∀ r : Reg, a ≠ r.addr) → t.chip.cr.read a = s.chip.cr.read a)

/-! ## The machine as a whole -/

/-- R260 and the stated column of 10_state.md R40: what reset leaves; and the default parameters of 00_scope.md R8. -/
def Obligations.ResetIsTheCreationOfABinding : Prop :=
  State.reset.devState = .unbound ∧ State.reset.wpRecord = .unknown ∧ State.reset.phase = .idle ∧ State.reset.burstMode = none ∧
    State.reset.hourMode = none ∧ State.reset.params = .default

/-- The invariant holds after reset. -/
def Obligations.ResetSatisfiesTheInvariant : Prop := Inv State.reset

/-- Every step keeps the invariant: the register space stays canonical (20_memory.md R50), an Idle bound device has idle lines (10_state.md R24), CE and CLK
stay outputs (R22), DATA's direction and CE's level follow `mpc` (R23, 40_transfer_engine.md R104), the transaction registers agree (R28), a facade request
runs in its own device state and Initialising is INIT's alone (R33), the modes and bindings are latched exactly on a bound device or by an INIT in progress
(R40), and the write-protect record is made exactly when the device is Ready (R34). That unbind and a power cycle unset the modes and the record, so that
the last two hold after them, is the model's reading (DEDUCED, log entries 15 and 28). -/
def Obligations.EveryStepKeepsTheInvariant : Prop :=
  ∀ s t : State, Inv s → step s = .next t → Inv t

/-- 40_transfer_engine.md R100, R116 and 60_exceptions.md R237: from a state that meets the invariant every step answers a next state: no `SET` on an input, no
`GET` on an output, no `mpc` past the end, whatever the oracle and the request. -/
def Obligations.InvariantStatesNeverFault : Prop :=
  ∀ s : State, Inv s → ∃ t : State, step s = .next t

/-- Access to the configuration (10_state.md R31 to R35): a step changes `BURST_MODE`, `HOUR_MODE` or a binding only by serving INIT, unbind or a power
cycle, or by the BindingError of an INIT that arrives while another sets its lines (60_exceptions.md R231, R236), which leaves the device Failed with none
of them set (10_state.md R40); `devState` only so or by a move of an INIT in progress; `wpRecord` only by the write-protect clear of INIT or CLRWP, which
makes a record, or by unbind or a power cycle, which start it afresh at Unknown; and the parameters never. That unbind starts the record afresh and unsets
the modes is the model's reading (DEDUCED, log entry 15): R35 names clearWriteProtect as the record's only writer, R31 and R32 have the modes written by
initialisation alone, and R210 lists neither effect. That a power cycle does the same, and releases the lines, is the model's reading too (DEDUCED, log
entry 28). -/
def Obligations.OnlyLifeCycleRequestsWriteTheConfiguration : Prop :=
  ∀ s t : State, step s = .next t →
    let serves := fun r => s.engaged = false ∧ s.pending.head? = some (.request r)
    let restarts := serves .unbind ∨ serves .powerCycle
    let begins := ∃ ce clk data burst h, serves (.init ce clk data burst h)
    let fails := s.engaged = true ∧ s.arrivalFails = true
    t.params = s.params ∧
      (fails → t.devState = .failed ∧ t.burstMode = none ∧ t.hourMode = none ∧ t.ceBinding = none ∧ t.clkBinding = none ∧ t.dataBinding = none) ∧
      (¬restarts → ¬begins → ¬fails →
        t.burstMode = s.burstMode ∧ t.hourMode = s.hourMode ∧ t.ceBinding = s.ceBinding ∧ t.clkBinding = s.clkBinding ∧
          t.dataBinding = s.dataBinding ∧
        (t.devState = s.devState ∨
          (∃ op rest, s.task = some (.lines op rest)) ∨ s.task = some (.readWp true) ∨ s.task = some (.clearWp true))) ∧
      (t.wpRecord = s.wpRecord ∨
        (t.wpRecord ≠ .unknown ∧ s.phase = .busy ∧ ∃ init, s.task = some (.readWp init) ∨ s.task = some (.clearWp init)) ∨
        (t.wpRecord = .unknown ∧ restarts))

/-- A refusal changes nothing but the mark (60_exceptions.md R234, R238): a step that serves a request and puts a refusal on record leaves every other item of
the machine as it was, but for the request it takes from the queue. -/
def Obligations.RefusalChangesNothingElse : Prop :=
  ∀ (s t : State) (why : RefusalReason), s.engaged = false → step s = .next t → t.replies = .refused why :: s.replies →
    t = { s with replies := .refused why :: s.replies, pending := s.pending.tail }
end

