-- ==== Sys2Proof/Laws/State.lean ====
section
/-! SUPPORT. One lemma per field per update of State, each true by rfl, so that no later proof unfolds an update. -/
namespace Sys2Proof.Machine

open Sys2Proof

/-! ## The observation -/

@[simp] theorem State.emit_params (s : State) (e : Event) : (s.emit e).params = s.params := rfl
@[simp] theorem State.emit_ce (s : State) (e : Event) : (s.emit e).ce = s.ce := rfl
@[simp] theorem State.emit_clk (s : State) (e : Event) : (s.emit e).clk = s.clk := rfl
@[simp] theorem State.emit_data (s : State) (e : Event) : (s.emit e).data = s.data := rfl
@[simp] theorem State.emit_phase (s : State) (e : Event) : (s.emit e).phase = s.phase := rfl
@[simp] theorem State.emit_mpc (s : State) (e : Event) : (s.emit e).mpc = s.mpc := rfl
@[simp] theorem State.emit_cmd (s : State) (e : Event) : (s.emit e).cmd = s.cmd := rfl
@[simp] theorem State.emit_dir (s : State) (e : Event) : (s.emit e).dir = s.dir := rfl
@[simp] theorem State.emit_len (s : State) (e : Event) : (s.emit e).len = s.len := rfl
@[simp] theorem State.emit_buf (s : State) (e : Event) : (s.emit e).buf = s.buf := rfl
@[simp] theorem State.emit_burstMode (s : State) (e : Event) : (s.emit e).burstMode = s.burstMode := rfl
@[simp] theorem State.emit_hourMode (s : State) (e : Event) : (s.emit e).hourMode = s.hourMode := rfl
@[simp] theorem State.emit_devState (s : State) (e : Event) : (s.emit e).devState = s.devState := rfl
@[simp] theorem State.emit_wpRecord (s : State) (e : Event) : (s.emit e).wpRecord = s.wpRecord := rfl
@[simp] theorem State.emit_ceBinding (s : State) (e : Event) : (s.emit e).ceBinding = s.ceBinding := rfl
@[simp] theorem State.emit_clkBinding (s : State) (e : Event) : (s.emit e).clkBinding = s.clkBinding := rfl
@[simp] theorem State.emit_dataBinding (s : State) (e : Event) : (s.emit e).dataBinding = s.dataBinding := rfl
@[simp] theorem State.emit_chip (s : State) (e : Event) : (s.emit e).chip = s.chip := rfl
@[simp] theorem State.emit_task (s : State) (e : Event) : (s.emit e).task = s.task := rfl
@[simp] theorem State.emit_pending (s : State) (e : Event) : (s.emit e).pending = s.pending := rfl
@[simp] theorem State.emit_arrivals (s : State) (e : Event) : (s.emit e).arrivals = s.arrivals := rfl
@[simp] theorem State.emit_trace (s : State) (e : Event) : (s.emit e).trace = e :: s.trace := rfl
@[simp] theorem State.emit_replies (s : State) (e : Event) : (s.emit e).replies = s.replies := rfl
@[simp] theorem State.emit_draws (s : State) (e : Event) : (s.emit e).draws = s.draws := rfl

/-! ## Outcomes -/

@[simp] theorem State.reply_params (s : State) (r : Reply) : (s.reply r).params = s.params := rfl
@[simp] theorem State.reply_ce (s : State) (r : Reply) : (s.reply r).ce = s.ce := rfl
@[simp] theorem State.reply_clk (s : State) (r : Reply) : (s.reply r).clk = s.clk := rfl
@[simp] theorem State.reply_data (s : State) (r : Reply) : (s.reply r).data = s.data := rfl
@[simp] theorem State.reply_phase (s : State) (r : Reply) : (s.reply r).phase = s.phase := rfl
@[simp] theorem State.reply_mpc (s : State) (r : Reply) : (s.reply r).mpc = s.mpc := rfl
@[simp] theorem State.reply_cmd (s : State) (r : Reply) : (s.reply r).cmd = s.cmd := rfl
@[simp] theorem State.reply_dir (s : State) (r : Reply) : (s.reply r).dir = s.dir := rfl
@[simp] theorem State.reply_len (s : State) (r : Reply) : (s.reply r).len = s.len := rfl
@[simp] theorem State.reply_buf (s : State) (r : Reply) : (s.reply r).buf = s.buf := rfl
@[simp] theorem State.reply_burstMode (s : State) (r : Reply) : (s.reply r).burstMode = s.burstMode := rfl
@[simp] theorem State.reply_hourMode (s : State) (r : Reply) : (s.reply r).hourMode = s.hourMode := rfl
@[simp] theorem State.reply_devState (s : State) (r : Reply) : (s.reply r).devState = s.devState := rfl
@[simp] theorem State.reply_wpRecord (s : State) (r : Reply) : (s.reply r).wpRecord = s.wpRecord := rfl
@[simp] theorem State.reply_ceBinding (s : State) (r : Reply) : (s.reply r).ceBinding = s.ceBinding := rfl
@[simp] theorem State.reply_clkBinding (s : State) (r : Reply) : (s.reply r).clkBinding = s.clkBinding := rfl
@[simp] theorem State.reply_dataBinding (s : State) (r : Reply) : (s.reply r).dataBinding = s.dataBinding := rfl
@[simp] theorem State.reply_chip (s : State) (r : Reply) : (s.reply r).chip = s.chip := rfl
@[simp] theorem State.reply_task (s : State) (r : Reply) : (s.reply r).task = s.task := rfl
@[simp] theorem State.reply_pending (s : State) (r : Reply) : (s.reply r).pending = s.pending := rfl
@[simp] theorem State.reply_arrivals (s : State) (r : Reply) : (s.reply r).arrivals = s.arrivals := rfl
@[simp] theorem State.reply_trace (s : State) (r : Reply) : (s.reply r).trace = s.trace := rfl
@[simp] theorem State.reply_replies (s : State) (r : Reply) : (s.reply r).replies = r :: s.replies := rfl
@[simp] theorem State.reply_draws (s : State) (r : Reply) : (s.reply r).draws = s.draws := rfl

/-! ## Refusals -/

@[simp] theorem State.refuse_params (s : State) (why : RefusalReason) : (s.refuse why).params = s.params := rfl
@[simp] theorem State.refuse_ce (s : State) (why : RefusalReason) : (s.refuse why).ce = s.ce := rfl
@[simp] theorem State.refuse_clk (s : State) (why : RefusalReason) : (s.refuse why).clk = s.clk := rfl
@[simp] theorem State.refuse_data (s : State) (why : RefusalReason) : (s.refuse why).data = s.data := rfl
@[simp] theorem State.refuse_phase (s : State) (why : RefusalReason) : (s.refuse why).phase = s.phase := rfl
@[simp] theorem State.refuse_mpc (s : State) (why : RefusalReason) : (s.refuse why).mpc = s.mpc := rfl
@[simp] theorem State.refuse_cmd (s : State) (why : RefusalReason) : (s.refuse why).cmd = s.cmd := rfl
@[simp] theorem State.refuse_dir (s : State) (why : RefusalReason) : (s.refuse why).dir = s.dir := rfl
@[simp] theorem State.refuse_len (s : State) (why : RefusalReason) : (s.refuse why).len = s.len := rfl
@[simp] theorem State.refuse_buf (s : State) (why : RefusalReason) : (s.refuse why).buf = s.buf := rfl
@[simp] theorem State.refuse_burstMode (s : State) (why : RefusalReason) : (s.refuse why).burstMode = s.burstMode := rfl
@[simp] theorem State.refuse_hourMode (s : State) (why : RefusalReason) : (s.refuse why).hourMode = s.hourMode := rfl
@[simp] theorem State.refuse_devState (s : State) (why : RefusalReason) : (s.refuse why).devState = s.devState := rfl
@[simp] theorem State.refuse_wpRecord (s : State) (why : RefusalReason) : (s.refuse why).wpRecord = s.wpRecord := rfl
@[simp] theorem State.refuse_ceBinding (s : State) (why : RefusalReason) : (s.refuse why).ceBinding = s.ceBinding := rfl
@[simp] theorem State.refuse_clkBinding (s : State) (why : RefusalReason) : (s.refuse why).clkBinding = s.clkBinding := rfl
@[simp] theorem State.refuse_dataBinding (s : State) (why : RefusalReason) : (s.refuse why).dataBinding = s.dataBinding := rfl
@[simp] theorem State.refuse_chip (s : State) (why : RefusalReason) : (s.refuse why).chip = s.chip := rfl
@[simp] theorem State.refuse_task (s : State) (why : RefusalReason) : (s.refuse why).task = s.task := rfl
@[simp] theorem State.refuse_pending (s : State) (why : RefusalReason) : (s.refuse why).pending = s.pending := rfl
@[simp] theorem State.refuse_arrivals (s : State) (why : RefusalReason) : (s.refuse why).arrivals = s.arrivals := rfl
@[simp] theorem State.refuse_trace (s : State) (why : RefusalReason) : (s.refuse why).trace = s.trace := rfl
@[simp] theorem State.refuse_replies (s : State) (why : RefusalReason) : (s.refuse why).replies = .refused why :: s.replies := rfl
@[simp] theorem State.refuse_draws (s : State) (why : RefusalReason) : (s.refuse why).draws = s.draws := rfl

/-! ## Held requests -/

@[simp] theorem State.hold_params (s : State) (w : Waiting) : (s.hold w).params = s.params := rfl
@[simp] theorem State.hold_ce (s : State) (w : Waiting) : (s.hold w).ce = s.ce := rfl
@[simp] theorem State.hold_clk (s : State) (w : Waiting) : (s.hold w).clk = s.clk := rfl
@[simp] theorem State.hold_data (s : State) (w : Waiting) : (s.hold w).data = s.data := rfl
@[simp] theorem State.hold_phase (s : State) (w : Waiting) : (s.hold w).phase = s.phase := rfl
@[simp] theorem State.hold_mpc (s : State) (w : Waiting) : (s.hold w).mpc = s.mpc := rfl
@[simp] theorem State.hold_cmd (s : State) (w : Waiting) : (s.hold w).cmd = s.cmd := rfl
@[simp] theorem State.hold_dir (s : State) (w : Waiting) : (s.hold w).dir = s.dir := rfl
@[simp] theorem State.hold_len (s : State) (w : Waiting) : (s.hold w).len = s.len := rfl
@[simp] theorem State.hold_buf (s : State) (w : Waiting) : (s.hold w).buf = s.buf := rfl
@[simp] theorem State.hold_burstMode (s : State) (w : Waiting) : (s.hold w).burstMode = s.burstMode := rfl
@[simp] theorem State.hold_hourMode (s : State) (w : Waiting) : (s.hold w).hourMode = s.hourMode := rfl
@[simp] theorem State.hold_devState (s : State) (w : Waiting) : (s.hold w).devState = s.devState := rfl
@[simp] theorem State.hold_wpRecord (s : State) (w : Waiting) : (s.hold w).wpRecord = s.wpRecord := rfl
@[simp] theorem State.hold_ceBinding (s : State) (w : Waiting) : (s.hold w).ceBinding = s.ceBinding := rfl
@[simp] theorem State.hold_clkBinding (s : State) (w : Waiting) : (s.hold w).clkBinding = s.clkBinding := rfl
@[simp] theorem State.hold_dataBinding (s : State) (w : Waiting) : (s.hold w).dataBinding = s.dataBinding := rfl
@[simp] theorem State.hold_chip (s : State) (w : Waiting) : (s.hold w).chip = s.chip := rfl
@[simp] theorem State.hold_task (s : State) (w : Waiting) : (s.hold w).task = s.task := rfl
@[simp] theorem State.hold_pending (s : State) (w : Waiting) : (s.hold w).pending = w :: s.pending := rfl
@[simp] theorem State.hold_arrivals (s : State) (w : Waiting) : (s.hold w).arrivals = s.arrivals := rfl
@[simp] theorem State.hold_trace (s : State) (w : Waiting) : (s.hold w).trace = s.trace := rfl
@[simp] theorem State.hold_replies (s : State) (w : Waiting) : (s.hold w).replies = s.replies := rfl
@[simp] theorem State.hold_draws (s : State) (w : Waiting) : (s.hold w).draws = s.draws := rfl

/-! ## Delivery -/

@[simp] theorem State.deliver_params (s : State) : (s.deliver).params = s.params := rfl
@[simp] theorem State.deliver_ce (s : State) : (s.deliver).ce = s.ce := rfl
@[simp] theorem State.deliver_clk (s : State) : (s.deliver).clk = s.clk := rfl
@[simp] theorem State.deliver_data (s : State) : (s.deliver).data = s.data := rfl
@[simp] theorem State.deliver_phase (s : State) : (s.deliver).phase = s.phase := rfl
@[simp] theorem State.deliver_mpc (s : State) : (s.deliver).mpc = s.mpc := rfl
@[simp] theorem State.deliver_cmd (s : State) : (s.deliver).cmd = s.cmd := rfl
@[simp] theorem State.deliver_dir (s : State) : (s.deliver).dir = s.dir := rfl
@[simp] theorem State.deliver_len (s : State) : (s.deliver).len = s.len := rfl
@[simp] theorem State.deliver_buf (s : State) : (s.deliver).buf = s.buf := rfl
@[simp] theorem State.deliver_burstMode (s : State) : (s.deliver).burstMode = s.burstMode := rfl
@[simp] theorem State.deliver_hourMode (s : State) : (s.deliver).hourMode = s.hourMode := rfl
@[simp] theorem State.deliver_devState (s : State) : (s.deliver).devState = s.devState := rfl
@[simp] theorem State.deliver_wpRecord (s : State) : (s.deliver).wpRecord = s.wpRecord := rfl
@[simp] theorem State.deliver_ceBinding (s : State) : (s.deliver).ceBinding = s.ceBinding := rfl
@[simp] theorem State.deliver_clkBinding (s : State) : (s.deliver).clkBinding = s.clkBinding := rfl
@[simp] theorem State.deliver_dataBinding (s : State) : (s.deliver).dataBinding = s.dataBinding := rfl
@[simp] theorem State.deliver_chip (s : State) : (s.deliver).chip = s.chip := rfl
@[simp] theorem State.deliver_task (s : State) : (s.deliver).task = s.task := rfl
@[simp] theorem State.deliver_pending (s : State) : (s.deliver).pending = s.pending := rfl
@[simp] theorem State.deliver_arrivals (s : State) : (s.deliver).arrivals = s.arrivals := rfl
@[simp] theorem State.deliver_trace (s : State) : (s.deliver).trace = s.trace := rfl
@[simp] theorem State.deliver_replies (s : State) : (s.deliver).replies = .ok s.result :: s.replies := rfl
@[simp] theorem State.deliver_draws (s : State) : (s.deliver).draws = s.draws := rfl

/-! ## The end of the request in progress -/

@[simp] theorem State.finish_params (s : State) (r : Result) : (s.finish r).params = s.params := rfl
@[simp] theorem State.finish_ce (s : State) (r : Result) : (s.finish r).ce = s.ce := rfl
@[simp] theorem State.finish_clk (s : State) (r : Result) : (s.finish r).clk = s.clk := rfl
@[simp] theorem State.finish_data (s : State) (r : Result) : (s.finish r).data = s.data := rfl
@[simp] theorem State.finish_phase (s : State) (r : Result) : (s.finish r).phase = s.phase := rfl
@[simp] theorem State.finish_mpc (s : State) (r : Result) : (s.finish r).mpc = s.mpc := rfl
@[simp] theorem State.finish_cmd (s : State) (r : Result) : (s.finish r).cmd = s.cmd := rfl
@[simp] theorem State.finish_dir (s : State) (r : Result) : (s.finish r).dir = s.dir := rfl
@[simp] theorem State.finish_len (s : State) (r : Result) : (s.finish r).len = s.len := rfl
@[simp] theorem State.finish_buf (s : State) (r : Result) : (s.finish r).buf = s.buf := rfl
@[simp] theorem State.finish_burstMode (s : State) (r : Result) : (s.finish r).burstMode = s.burstMode := rfl
@[simp] theorem State.finish_hourMode (s : State) (r : Result) : (s.finish r).hourMode = s.hourMode := rfl
@[simp] theorem State.finish_devState (s : State) (r : Result) : (s.finish r).devState = s.devState := rfl
@[simp] theorem State.finish_wpRecord (s : State) (r : Result) : (s.finish r).wpRecord = s.wpRecord := rfl
@[simp] theorem State.finish_ceBinding (s : State) (r : Result) : (s.finish r).ceBinding = s.ceBinding := rfl
@[simp] theorem State.finish_clkBinding (s : State) (r : Result) : (s.finish r).clkBinding = s.clkBinding := rfl
@[simp] theorem State.finish_dataBinding (s : State) (r : Result) : (s.finish r).dataBinding = s.dataBinding := rfl
@[simp] theorem State.finish_chip (s : State) (r : Result) : (s.finish r).chip = s.chip := rfl
@[simp] theorem State.finish_task (s : State) (r : Result) : (s.finish r).task = none := rfl
@[simp] theorem State.finish_pending (s : State) (r : Result) : (s.finish r).pending = s.pending := rfl
@[simp] theorem State.finish_arrivals (s : State) (r : Result) : (s.finish r).arrivals = s.arrivals := rfl
@[simp] theorem State.finish_trace (s : State) (r : Result) : (s.finish r).trace = s.trace := rfl
@[simp] theorem State.finish_replies (s : State) (r : Result) : (s.finish r).replies = .ok r :: s.replies := rfl
@[simp] theorem State.finish_draws (s : State) (r : Result) : (s.finish r).draws = s.draws := rfl

/-! ## Released lines -/

@[simp] theorem State.release_params (s : State) : (s.release).params = s.params := rfl
@[simp] theorem State.release_ce (s : State) : (s.release).ce = s.ce := rfl
@[simp] theorem State.release_clk (s : State) : (s.release).clk = s.clk := rfl
@[simp] theorem State.release_data (s : State) : (s.release).data = s.data := rfl
@[simp] theorem State.release_phase (s : State) : (s.release).phase = s.phase := rfl
@[simp] theorem State.release_mpc (s : State) : (s.release).mpc = s.mpc := rfl
@[simp] theorem State.release_cmd (s : State) : (s.release).cmd = s.cmd := rfl
@[simp] theorem State.release_dir (s : State) : (s.release).dir = s.dir := rfl
@[simp] theorem State.release_len (s : State) : (s.release).len = s.len := rfl
@[simp] theorem State.release_buf (s : State) : (s.release).buf = s.buf := rfl
@[simp] theorem State.release_burstMode (s : State) : (s.release).burstMode = s.burstMode := rfl
@[simp] theorem State.release_hourMode (s : State) : (s.release).hourMode = s.hourMode := rfl
@[simp] theorem State.release_devState (s : State) : (s.release).devState = s.devState := rfl
@[simp] theorem State.release_wpRecord (s : State) : (s.release).wpRecord = s.wpRecord := rfl
@[simp] theorem State.release_ceBinding (s : State) : (s.release).ceBinding = none := rfl
@[simp] theorem State.release_clkBinding (s : State) : (s.release).clkBinding = none := rfl
@[simp] theorem State.release_dataBinding (s : State) : (s.release).dataBinding = none := rfl
@[simp] theorem State.release_chip (s : State) : (s.release).chip = s.chip := rfl
@[simp] theorem State.release_task (s : State) : (s.release).task = s.task := rfl
@[simp] theorem State.release_pending (s : State) : (s.release).pending = s.pending := rfl
@[simp] theorem State.release_arrivals (s : State) : (s.release).arrivals = s.arrivals := rfl
@[simp] theorem State.release_trace (s : State) : (s.release).trace = s.trace := rfl
@[simp] theorem State.release_replies (s : State) : (s.release).replies = s.replies := rfl
@[simp] theorem State.release_draws (s : State) : (s.release).draws = s.draws := rfl

/-! ## Acceptance (40_transfer_engine.md R102) -/

@[simp] theorem accept_params (c : Byte) (d : Direction) (bytes : List Byte) (s : State) : (accept c d bytes s).params = s.params := rfl
@[simp] theorem accept_ce (c : Byte) (d : Direction) (bytes : List Byte) (s : State) : (accept c d bytes s).ce = s.ce := rfl
@[simp] theorem accept_clk (c : Byte) (d : Direction) (bytes : List Byte) (s : State) : (accept c d bytes s).clk = s.clk := rfl
@[simp] theorem accept_data (c : Byte) (d : Direction) (bytes : List Byte) (s : State) : (accept c d bytes s).data = s.data := rfl
@[simp] theorem accept_phase (c : Byte) (d : Direction) (bytes : List Byte) (s : State) : (accept c d bytes s).phase = .busy := rfl
@[simp] theorem accept_mpc (c : Byte) (d : Direction) (bytes : List Byte) (s : State) : (accept c d bytes s).mpc = 0 := rfl
@[simp] theorem accept_cmd (c : Byte) (d : Direction) (bytes : List Byte) (s : State) : (accept c d bytes s).cmd = c := rfl
@[simp] theorem accept_dir (c : Byte) (d : Direction) (bytes : List Byte) (s : State) : (accept c d bytes s).dir = d := rfl
@[simp] theorem accept_len (c : Byte) (d : Direction) (bytes : List Byte) (s : State) : (accept c d bytes s).len = dataLen s.params c := rfl
@[simp] theorem accept_buf (c : Byte) (d : Direction) (bytes : List Byte) (s : State) : (accept c d bytes s).buf = latch d (dataLen s.params c) bytes s.buf := rfl
@[simp] theorem accept_burstMode (c : Byte) (d : Direction) (bytes : List Byte) (s : State) : (accept c d bytes s).burstMode = s.burstMode := rfl
@[simp] theorem accept_hourMode (c : Byte) (d : Direction) (bytes : List Byte) (s : State) : (accept c d bytes s).hourMode = s.hourMode := rfl
@[simp] theorem accept_devState (c : Byte) (d : Direction) (bytes : List Byte) (s : State) : (accept c d bytes s).devState = s.devState := rfl
@[simp] theorem accept_wpRecord (c : Byte) (d : Direction) (bytes : List Byte) (s : State) : (accept c d bytes s).wpRecord = s.wpRecord := rfl
@[simp] theorem accept_ceBinding (c : Byte) (d : Direction) (bytes : List Byte) (s : State) : (accept c d bytes s).ceBinding = s.ceBinding := rfl
@[simp] theorem accept_clkBinding (c : Byte) (d : Direction) (bytes : List Byte) (s : State) : (accept c d bytes s).clkBinding = s.clkBinding := rfl
@[simp] theorem accept_dataBinding (c : Byte) (d : Direction) (bytes : List Byte) (s : State) : (accept c d bytes s).dataBinding = s.dataBinding := rfl
@[simp] theorem accept_chip (c : Byte) (d : Direction) (bytes : List Byte) (s : State) : (accept c d bytes s).chip = (s.chip.tick s.draws).1 := rfl
@[simp] theorem accept_task (c : Byte) (d : Direction) (bytes : List Byte) (s : State) : (accept c d bytes s).task = s.task := rfl
@[simp] theorem accept_pending (c : Byte) (d : Direction) (bytes : List Byte) (s : State) : (accept c d bytes s).pending = s.pending := rfl
@[simp] theorem accept_arrivals (c : Byte) (d : Direction) (bytes : List Byte) (s : State) : (accept c d bytes s).arrivals = s.arrivals := rfl
@[simp] theorem accept_trace (c : Byte) (d : Direction) (bytes : List Byte) (s : State) : (accept c d bytes s).trace = s.trace := rfl
@[simp] theorem accept_replies (c : Byte) (d : Direction) (bytes : List Byte) (s : State) : (accept c d bytes s).replies = s.replies := rfl
@[simp] theorem accept_draws (c : Byte) (d : Direction) (bytes : List Byte) (s : State) : (accept c d bytes s).draws = (s.chip.tick s.draws).2 := rfl

/-! ## One line written: CE -/

@[simp] theorem State.setLine_ce_params (s : State) (x : Line) : (s.setLine .ce x).params = s.params := rfl
@[simp] theorem State.setLine_ce_ce (s : State) (x : Line) : (s.setLine .ce x).ce = x := rfl
@[simp] theorem State.setLine_ce_clk (s : State) (x : Line) : (s.setLine .ce x).clk = s.clk := rfl
@[simp] theorem State.setLine_ce_data (s : State) (x : Line) : (s.setLine .ce x).data = s.data := rfl
@[simp] theorem State.setLine_ce_phase (s : State) (x : Line) : (s.setLine .ce x).phase = s.phase := rfl
@[simp] theorem State.setLine_ce_mpc (s : State) (x : Line) : (s.setLine .ce x).mpc = s.mpc := rfl
@[simp] theorem State.setLine_ce_cmd (s : State) (x : Line) : (s.setLine .ce x).cmd = s.cmd := rfl
@[simp] theorem State.setLine_ce_dir (s : State) (x : Line) : (s.setLine .ce x).dir = s.dir := rfl
@[simp] theorem State.setLine_ce_len (s : State) (x : Line) : (s.setLine .ce x).len = s.len := rfl
@[simp] theorem State.setLine_ce_buf (s : State) (x : Line) : (s.setLine .ce x).buf = s.buf := rfl
@[simp] theorem State.setLine_ce_burstMode (s : State) (x : Line) : (s.setLine .ce x).burstMode = s.burstMode := rfl
@[simp] theorem State.setLine_ce_hourMode (s : State) (x : Line) : (s.setLine .ce x).hourMode = s.hourMode := rfl
@[simp] theorem State.setLine_ce_devState (s : State) (x : Line) : (s.setLine .ce x).devState = s.devState := rfl
@[simp] theorem State.setLine_ce_wpRecord (s : State) (x : Line) : (s.setLine .ce x).wpRecord = s.wpRecord := rfl
@[simp] theorem State.setLine_ce_ceBinding (s : State) (x : Line) : (s.setLine .ce x).ceBinding = s.ceBinding := rfl
@[simp] theorem State.setLine_ce_clkBinding (s : State) (x : Line) : (s.setLine .ce x).clkBinding = s.clkBinding := rfl
@[simp] theorem State.setLine_ce_dataBinding (s : State) (x : Line) : (s.setLine .ce x).dataBinding = s.dataBinding := rfl
@[simp] theorem State.setLine_ce_chip (s : State) (x : Line) : (s.setLine .ce x).chip = s.chip := rfl
@[simp] theorem State.setLine_ce_task (s : State) (x : Line) : (s.setLine .ce x).task = s.task := rfl
@[simp] theorem State.setLine_ce_pending (s : State) (x : Line) : (s.setLine .ce x).pending = s.pending := rfl
@[simp] theorem State.setLine_ce_arrivals (s : State) (x : Line) : (s.setLine .ce x).arrivals = s.arrivals := rfl
@[simp] theorem State.setLine_ce_trace (s : State) (x : Line) : (s.setLine .ce x).trace = s.trace := rfl
@[simp] theorem State.setLine_ce_replies (s : State) (x : Line) : (s.setLine .ce x).replies = s.replies := rfl
@[simp] theorem State.setLine_ce_draws (s : State) (x : Line) : (s.setLine .ce x).draws = s.draws := rfl

/-! ## One line written: CLK -/

@[simp] theorem State.setLine_clk_params (s : State) (x : Line) : (s.setLine .clk x).params = s.params := rfl
@[simp] theorem State.setLine_clk_ce (s : State) (x : Line) : (s.setLine .clk x).ce = s.ce := rfl
@[simp] theorem State.setLine_clk_clk (s : State) (x : Line) : (s.setLine .clk x).clk = x := rfl
@[simp] theorem State.setLine_clk_data (s : State) (x : Line) : (s.setLine .clk x).data = s.data := rfl
@[simp] theorem State.setLine_clk_phase (s : State) (x : Line) : (s.setLine .clk x).phase = s.phase := rfl
@[simp] theorem State.setLine_clk_mpc (s : State) (x : Line) : (s.setLine .clk x).mpc = s.mpc := rfl
@[simp] theorem State.setLine_clk_cmd (s : State) (x : Line) : (s.setLine .clk x).cmd = s.cmd := rfl
@[simp] theorem State.setLine_clk_dir (s : State) (x : Line) : (s.setLine .clk x).dir = s.dir := rfl
@[simp] theorem State.setLine_clk_len (s : State) (x : Line) : (s.setLine .clk x).len = s.len := rfl
@[simp] theorem State.setLine_clk_buf (s : State) (x : Line) : (s.setLine .clk x).buf = s.buf := rfl
@[simp] theorem State.setLine_clk_burstMode (s : State) (x : Line) : (s.setLine .clk x).burstMode = s.burstMode := rfl
@[simp] theorem State.setLine_clk_hourMode (s : State) (x : Line) : (s.setLine .clk x).hourMode = s.hourMode := rfl
@[simp] theorem State.setLine_clk_devState (s : State) (x : Line) : (s.setLine .clk x).devState = s.devState := rfl
@[simp] theorem State.setLine_clk_wpRecord (s : State) (x : Line) : (s.setLine .clk x).wpRecord = s.wpRecord := rfl
@[simp] theorem State.setLine_clk_ceBinding (s : State) (x : Line) : (s.setLine .clk x).ceBinding = s.ceBinding := rfl
@[simp] theorem State.setLine_clk_clkBinding (s : State) (x : Line) : (s.setLine .clk x).clkBinding = s.clkBinding := rfl
@[simp] theorem State.setLine_clk_dataBinding (s : State) (x : Line) : (s.setLine .clk x).dataBinding = s.dataBinding := rfl
@[simp] theorem State.setLine_clk_chip (s : State) (x : Line) : (s.setLine .clk x).chip = s.chip := rfl
@[simp] theorem State.setLine_clk_task (s : State) (x : Line) : (s.setLine .clk x).task = s.task := rfl
@[simp] theorem State.setLine_clk_pending (s : State) (x : Line) : (s.setLine .clk x).pending = s.pending := rfl
@[simp] theorem State.setLine_clk_arrivals (s : State) (x : Line) : (s.setLine .clk x).arrivals = s.arrivals := rfl
@[simp] theorem State.setLine_clk_trace (s : State) (x : Line) : (s.setLine .clk x).trace = s.trace := rfl
@[simp] theorem State.setLine_clk_replies (s : State) (x : Line) : (s.setLine .clk x).replies = s.replies := rfl
@[simp] theorem State.setLine_clk_draws (s : State) (x : Line) : (s.setLine .clk x).draws = s.draws := rfl

/-! ## One line written: DATA -/

@[simp] theorem State.setLine_data_params (s : State) (x : Line) : (s.setLine .data x).params = s.params := rfl
@[simp] theorem State.setLine_data_ce (s : State) (x : Line) : (s.setLine .data x).ce = s.ce := rfl
@[simp] theorem State.setLine_data_clk (s : State) (x : Line) : (s.setLine .data x).clk = s.clk := rfl
@[simp] theorem State.setLine_data_data (s : State) (x : Line) : (s.setLine .data x).data = x := rfl
@[simp] theorem State.setLine_data_phase (s : State) (x : Line) : (s.setLine .data x).phase = s.phase := rfl
@[simp] theorem State.setLine_data_mpc (s : State) (x : Line) : (s.setLine .data x).mpc = s.mpc := rfl
@[simp] theorem State.setLine_data_cmd (s : State) (x : Line) : (s.setLine .data x).cmd = s.cmd := rfl
@[simp] theorem State.setLine_data_dir (s : State) (x : Line) : (s.setLine .data x).dir = s.dir := rfl
@[simp] theorem State.setLine_data_len (s : State) (x : Line) : (s.setLine .data x).len = s.len := rfl
@[simp] theorem State.setLine_data_buf (s : State) (x : Line) : (s.setLine .data x).buf = s.buf := rfl
@[simp] theorem State.setLine_data_burstMode (s : State) (x : Line) : (s.setLine .data x).burstMode = s.burstMode := rfl
@[simp] theorem State.setLine_data_hourMode (s : State) (x : Line) : (s.setLine .data x).hourMode = s.hourMode := rfl
@[simp] theorem State.setLine_data_devState (s : State) (x : Line) : (s.setLine .data x).devState = s.devState := rfl
@[simp] theorem State.setLine_data_wpRecord (s : State) (x : Line) : (s.setLine .data x).wpRecord = s.wpRecord := rfl
@[simp] theorem State.setLine_data_ceBinding (s : State) (x : Line) : (s.setLine .data x).ceBinding = s.ceBinding := rfl
@[simp] theorem State.setLine_data_clkBinding (s : State) (x : Line) : (s.setLine .data x).clkBinding = s.clkBinding := rfl
@[simp] theorem State.setLine_data_dataBinding (s : State) (x : Line) : (s.setLine .data x).dataBinding = s.dataBinding := rfl
@[simp] theorem State.setLine_data_chip (s : State) (x : Line) : (s.setLine .data x).chip = s.chip := rfl
@[simp] theorem State.setLine_data_task (s : State) (x : Line) : (s.setLine .data x).task = s.task := rfl
@[simp] theorem State.setLine_data_pending (s : State) (x : Line) : (s.setLine .data x).pending = s.pending := rfl
@[simp] theorem State.setLine_data_arrivals (s : State) (x : Line) : (s.setLine .data x).arrivals = s.arrivals := rfl
@[simp] theorem State.setLine_data_trace (s : State) (x : Line) : (s.setLine .data x).trace = s.trace := rfl
@[simp] theorem State.setLine_data_replies (s : State) (x : Line) : (s.setLine .data x).replies = s.replies := rfl
@[simp] theorem State.setLine_data_draws (s : State) (x : Line) : (s.setLine .data x).draws = s.draws := rfl

@[simp] theorem State.line_ce (s : State) : s.line .ce = s.ce := rfl
@[simp] theorem State.line_clk (s : State) : s.line .clk = s.clk := rfl
@[simp] theorem State.line_data (s : State) : s.line .data = s.data := rfl

/-! ## Outcomes of operations -/

@[simp] theorem toOutcome_ok (s : State) : toOutcome (.ok s) = .next s := rfl
@[simp] theorem toOutcome_error (f : Fault) : toOutcome (.error f) = .fault f := rfl

/-- An operation answers a next state exactly when it succeeds with that state. -/
theorem toOutcome_eq_next {r : Except Fault State} {t : State} : toOutcome r = .next t ↔ r = .ok t := by
  cases r <;> simp

/-! ## What is in progress -/

@[simp] theorem State.engaged_ask (s : State) (r : Request) : (s.ask r).engaged = s.engaged := rfl

theorem engaged_false {s : State} : s.engaged = false ↔ s.phase = .idle ∧ s.task = none := by
  cases hp : s.phase <;> cases ht : s.task <;> simp [State.engaged, hp, ht]

theorem engaged_of_busy {s : State} (h : s.phase = .busy) : s.engaged = true := by simp [State.engaged, h]

theorem engaged_of_task {s : State} {k : Task} (h : s.task = some k) : s.engaged = true := by simp [State.engaged, h]

end Sys2Proof.Machine
end

