-- ==== Sys2Proof/Laws/Codec.lean ====
section
/-! SUPPORT. The BCD primitives over their whole range and the hour encodings (41_calendar_codec.md R150 to R166). -/
namespace Sys2Proof.Machine

open Sys2Proof

theorem bcd2bin_bin2bcd : ∀ v : Nat, v ≤ 99 → bcd2bin (bin2bcd v) = v := by
  have h : ∀ v : Fin 100, bcd2bin (bin2bcd v.val) = v.val := by decide +kernel
  exact fun v hv => h ⟨v, by omega⟩

theorem bcd2bin_range : ∀ b : Byte, 0 ≤ bcd2bin b ∧ bcd2bin b ≤ 165 := by decide +kernel

/-- `bin2bcd` of an integer that has a code, read back. -/
theorem bcdOf_ok {v : Int} (h : 0 ≤ v) (h' : v ≤ 99) : ∃ b, bcdOf v = some b ∧ bcd2bin b = v := by
  refine ⟨bin2bcd v.toNat, by simp [bcdOf, h], ?_⟩
  rw [bcd2bin_bin2bcd v.toNat (by omega)]
  omega

theorem bcdOf_none {v : Int} : bcdOf v = none ↔ v < 0 := by
  unfold bcdOf
  split <;> simp <;> omega

/-- An hour 0..23 in either encoding, read back. -/
theorem encodeHour_ok (m : HourMode) {h : Int} (h0 : 0 ≤ h) (h1 : h ≤ 23) : ∃ b, encodeHour m h = some b ∧ decodeHour m b = h := by
  have hall : ∀ (m : HourMode) (k : Fin 24),
      (match encodeHour m (k.val : Int) with | some b => decide (decodeHour m b = (k.val : Int)) | none => false) = true := by
    intro m; cases m <;> decide +kernel
  have hk := hall m ⟨h.toNat, by omega⟩
  have hcast : ((h.toNat : Nat) : Int) = h := by omega
  simp only [hcast] at hk
  cases he : encodeHour m h with
  | none => simp [he] at hk
  | some b =>
    rw [he] at hk
    exact ⟨b, rfl, of_decide_eq_true hk⟩

theorem encodeHour_none {m : HourMode} {h : Int} : encodeHour m h = none ↔
    (match m with | .h24 => h < 0 | .h12 => (if 12 ≤ h then h - 12 else h) + 1 < 0) := by
  cases m with
  | h24 => exact bcdOf_none
  | h12 =>
    have he : hour12 h = (if 12 ≤ h then h - 12 else h) + 1 := by
      unfold hour12
      split <;> omega
    simp only [encodeHour, Option.map_eq_none_iff, bcdOf_none, he]

/-- `encode` fails exactly when one of its fields does. -/
theorem encodeTime_none {m : HourMode} {t : WallClock} : encodeTime m t = none ↔
    (bcdOf t.sec = none ∨ bcdOf t.min = none ∨ encodeHour m t.hour = none ∨ bcdOf t.mday = none ∨ bcdOf (t.mon + 1) = none ∨
      bcdOf (t.wday + 1) = none ∨ bcdOf (t.year - Config.yearBase) = none) := by
  unfold encodeTime
  cases bcdOf t.sec <;> cases bcdOf t.min <;> cases encodeHour m t.hour <;> cases bcdOf t.mday <;> cases bcdOf (t.mon + 1) <;>
    cases bcdOf (t.wday + 1) <;> cases bcdOf (t.year - Config.yearBase) <;> simp

end Sys2Proof.Machine
end

