-- ==== Sys2Proof/Laws/Memory.lean ====
section
/-! SUPPORT. The chip's register space: the canonical form is kept by every operation, a read after a write gives the value written, and a write
leaves every other register alone. -/
namespace Sys2Proof.Machine

open Sys2Proof

theorem wfFrom_cons {lo a : Nat} {v : Byte} {m : Memory} :
    Memory.wfFrom lo ((a, v) :: m) = true ↔ lo ≤ a ∧ v ≠ 0#8 ∧ isRegAddr a = true ∧ Memory.wfFrom (a + 1) m = true := by
  simp [Memory.wfFrom, and_assoc]

theorem wfFrom_mono {lo lo' : Nat} {m : Memory} (h : lo' ≤ lo) (hm : Memory.wfFrom lo m = true) : Memory.wfFrom lo' m = true := by
  cases m with
  | nil => rfl
  | cons c m =>
    obtain ⟨a, v⟩ := c
    rw [wfFrom_cons] at hm ⊢
    exact ⟨h.trans hm.1, hm.2⟩

theorem read_below {lo a : Nat} {m : Memory} (hm : Memory.wfFrom lo m = true) (h : a < lo) : m.read a = 0#8 := by
  induction m generalizing lo with
  | nil => rfl
  | cons c m ih =>
    obtain ⟨b, w⟩ := c
    rw [wfFrom_cons] at hm
    rw [Memory.read, if_neg (by omega)]
    exact ih hm.2.2.2 (by omega)

/-- A write keeps the canonical form. -/
theorem write_wfFrom {lo a : Nat} {v : Byte} {m : Memory} (hm : Memory.wfFrom lo m = true) (hlo : lo ≤ a) (ha : isRegAddr a = true) :
    Memory.wfFrom lo (m.write a v) = true := by
  induction m generalizing lo with
  | nil =>
    simp only [Memory.write]
    split
    · rfl
    · exact wfFrom_cons.2 ⟨hlo, ‹_›, ha, rfl⟩
  | cons c m ih =>
    obtain ⟨b, w⟩ := c
    have hc := wfFrom_cons.1 hm
    simp only [Memory.write]
    split
    · split
      · exact hm
      · exact wfFrom_cons.2 ⟨hlo, ‹_›, ha, wfFrom_cons.2 ⟨by omega, hc.2⟩⟩
    · split
      · subst_vars
        split
        · exact wfFrom_mono (by omega) hc.2.2.2
        · exact wfFrom_cons.2 ⟨hlo, ‹_›, ha, hc.2.2.2⟩
      · exact wfFrom_cons.2 ⟨hc.1, hc.2.1, hc.2.2.1, ih hc.2.2.2 (by omega)⟩

/-- Reading after a write: the value written there, what stood before elsewhere. -/
theorem read_writeFrom {lo a b : Nat} {v : Byte} {m : Memory} (hm : Memory.wfFrom lo m = true) :
    (m.write a v).read b = if b = a then v else m.read b := by
  induction m generalizing lo with
  | nil =>
    by_cases hv : v = 0#8 <;> by_cases hb : b = a <;> simp [Memory.write, Memory.read, hv, hb]
  | cons c m ih =>
    obtain ⟨d, w⟩ := c
    have hc := wfFrom_cons.1 hm
    simp only [Memory.write]
    split
    · rename_i hlt
      by_cases hv : v = 0#8
      · by_cases hb : b = a
        · subst hb
          rw [if_pos hv, if_pos rfl, read_below (wfFrom_cons.2 ⟨le_rfl, hc.2⟩) hlt, hv]
        · rw [if_pos hv, if_neg hb]
      · rw [if_neg hv, Memory.read]
    · split
      · subst_vars
        by_cases hv : v = 0#8
        · by_cases hb : b = d
          · subst hb
            rw [if_pos hv, if_pos rfl, read_below hc.2.2.2 (by omega), hv]
          · rw [if_pos hv, if_neg hb, Memory.read, if_neg hb]
        · by_cases hb : b = d <;> simp [Memory.read, hv, hb]
      · by_cases hb : b = d
        · subst hb
          rw [Memory.read, if_pos rfl, if_neg (by omega), Memory.read, if_pos rfl]
        · rw [Memory.read, if_neg hb, ih hc.2.2.2, Memory.read, if_neg hb]

theorem isRegAddr_addr (r : Reg) : isRegAddr r.addr = true := by cases r <;> decide

theorem addr_inj {r q : Reg} : r.addr = q.addr ↔ r = q := by
  revert r q; intro r q; cases r <;> cases q <;> decide

theorem setReg_wf {m : Memory} (hm : m.wf = true) (r : Reg) (v : Byte) : (m.setReg r v).wf = true :=
  write_wfFrom hm (Nat.zero_le _) (isRegAddr_addr r)

/-- Every byte after a register write, by its address. -/
theorem read_setReg {m : Memory} (hm : m.wf = true) (r : Reg) (v : Byte) (a : Nat) :
    (m.setReg r v).read a = if a = r.addr then v else m.read a := read_writeFrom hm

theorem reg_setReg {m : Memory} (hm : m.wf = true) (r q : Reg) (v : Byte) :
    (m.setReg r v).reg q = if q = r then v else m.reg q := by
  simp [Memory.reg, read_setReg hm, addr_inj]

theorem setRegs_wf {m : Memory} (hm : m.wf = true) (f : Nat → Byte) (rs : List Reg) : (m.setRegs f rs).wf = true := by
  induction rs generalizing m with
  | nil => exact hm
  | cons r rs ih => exact ih (setReg_wf hm _ _)

/-- Every register after writing each of `rs`. -/
theorem reg_setRegs {m : Memory} (hm : m.wf = true) (f : Nat → Byte) (rs : List Reg) (q : Reg) :
    (m.setRegs f rs).reg q = if q ∈ rs then f q.index else m.reg q := by
  induction rs generalizing m with
  | nil => simp [Memory.setRegs]
  | cons r rs ih =>
    rw [Memory.setRegs, ih (setReg_wf hm _ _), reg_setReg hm]
    by_cases h : q ∈ rs <;> by_cases h' : q = r <;> simp_all

theorem mem_all (r : Reg) : r ∈ Reg.all := by cases r <;> decide

theorem mem_calendar (r : Reg) : r ∈ Reg.calendar ↔ r ≠ .wp := by cases r <;> decide

/-- A byte at an address that is no register's reads as 0x00 in every canonical memory. -/
theorem read_outside {m : Memory} {lo a : Nat} (hm : Memory.wfFrom lo m = true) (ha : isRegAddr a = false) : m.read a = 0#8 := by
  induction m generalizing lo with
  | nil => rfl
  | cons c m ih =>
    obtain ⟨b, w⟩ := c
    have hc := wfFrom_cons.1 hm
    rw [Memory.read, if_neg (by rintro rfl; simp_all)]
    exact ih hc.2.2.2

/-- Two canonical memories that agree on every register agree on every address. -/
theorem read_eq_of_reg_eq {m m' : Memory} (hm : m.wf = true) (hm' : m'.wf = true) (h : ∀ r, m'.reg r = m.reg r) (a : Nat) :
    m'.read a = m.read a := by
  cases ha : isRegAddr a with
  | false => rw [read_outside hm ha, read_outside hm' ha]
  | true =>
    obtain ⟨r, -, hr⟩ := List.any_eq_true.1 ha
    rw [← of_decide_eq_true hr]
    exact h r

end Sys2Proof.Machine
end

