-- ==== Sys2Proof/Laws/Decode.lean ====
section
/-! SUPPORT. The command byte, under parameters that tell the commands apart: what each admitted byte decodes to, its length and direction, and how
the framing of a register's field reads back. -/
namespace Sys2Proof.Machine

open Sys2Proof

/-! ## Commands and their bytes -/

theorem mem_commands (k : Command) : k ∈ Command.all := by
  cases k with
  | read r => cases r <;> decide
  | write r => cases r <;> decide
  | readBurst => decide
  | writeBurst => decide

/-- No two commands share a byte. -/
theorem byte_inj {p : Params} (hp : p.wf = true) {k j : Command} (h : k.byte p = j.byte p) : k = j :=
  List.inj_on_of_nodup_map (of_decide_eq_true hp) (mem_commands k) (mem_commands j) h

/-- A command byte decodes to its command. -/
@[simp] theorem decodeCommand_byte {p : Params} (hp : p.wf = true) (k : Command) : decodeCommand p (k.byte p) = some k := by
  unfold decodeCommand
  cases h : Command.all.find? fun j => j.byte p == k.byte p with
  | none => exact absurd (List.find?_eq_none.1 h k (mem_commands k)) (by simp)
  | some j => exact congrArg some (byte_inj hp (by simpa using List.find?_some h))

/-- A byte that decodes to a command is its byte. -/
theorem byte_of_decode {p : Params} {c : Byte} {k : Command} (h : decodeCommand p c = some k) : k.byte p = c :=
  by simpa using List.find?_some (p := fun j : Command => j.byte p == c) h

@[simp] theorem dirOf_byte {p : Params} (hp : p.wf = true) (k : Command) : dirOf p (k.byte p) = k.direction := by
  simp only [dirOf, isRead, decodeCommand_byte hp]
  cases k <;> rfl

@[simp] theorem dataLen_byte {p : Params} (hp : p.wf = true) (k : Command) : dataLen p (k.byte p) = k.len := by
  have hr : k.byte p = burstReadAddr p ↔ k = .readBurst := ⟨fun h => byte_inj (j := .readBurst) hp h, fun h => by rw [h]; rfl⟩
  have hw : k.byte p = burstWriteAddr p ↔ k = .writeBurst := ⟨fun h => byte_inj (j := .writeBurst) hp h, fun h => by rw [h]; rfl⟩
  simp only [dataLen, isBurst, Bool.or_eq_true, beq_iff_eq, hr, hw]
  cases k <;> simp [Command.len]

@[simp] theorem decodeCommand_cmdRead {p : Params} (hp : p.wf = true) (r : Reg) : decodeCommand p (cmdRead p (r.field p)) = some (.read r) :=
  decodeCommand_byte hp (.read r)
@[simp] theorem decodeCommand_cmdWrite {p : Params} (hp : p.wf = true) (r : Reg) : decodeCommand p (cmdWrite p (r.field p)) = some (.write r) :=
  decodeCommand_byte hp (.write r)
@[simp] theorem decodeCommand_burstRead {p : Params} (hp : p.wf = true) : decodeCommand p (burstReadAddr p) = some .readBurst :=
  decodeCommand_byte hp .readBurst
@[simp] theorem decodeCommand_burstWrite {p : Params} (hp : p.wf = true) : decodeCommand p (burstWriteAddr p) = some .writeBurst :=
  decodeCommand_byte hp .writeBurst
@[simp] theorem dataLen_cmdRead {p : Params} (hp : p.wf = true) (r : Reg) : dataLen p (cmdRead p (r.field p)) = .one :=
  dataLen_byte hp (.read r)
@[simp] theorem dataLen_cmdWrite {p : Params} (hp : p.wf = true) (r : Reg) : dataLen p (cmdWrite p (r.field p)) = .one :=
  dataLen_byte hp (.write r)
@[simp] theorem dataLen_burstRead {p : Params} : dataLen p (burstReadAddr p) = .eight := by simp [dataLen, isBurst]
@[simp] theorem dataLen_burstWrite {p : Params} : dataLen p (burstWriteAddr p) = .eight := by simp [dataLen, isBurst]
@[simp] theorem dirOf_cmdRead {p : Params} (hp : p.wf = true) (r : Reg) : dirOf p (cmdRead p (r.field p)) = .read :=
  dirOf_byte hp (.read r)
@[simp] theorem dirOf_cmdWrite {p : Params} (hp : p.wf = true) (r : Reg) : dirOf p (cmdWrite p (r.field p)) = .write :=
  dirOf_byte hp (.write r)
@[simp] theorem dirOf_burstRead {p : Params} (hp : p.wf = true) : dirOf p (burstReadAddr p) = .read := dirOf_byte hp .readBurst
@[simp] theorem dirOf_burstWrite {p : Params} (hp : p.wf = true) : dirOf p (burstWriteAddr p) = .write := dirOf_byte hp .writeBurst
@[simp] theorem count_one : DataLen.one.count = 1 := rfl
@[simp] theorem count_eight : DataLen.eight.count = 8 := rfl

theorem default_wf : Params.default.wf = true := by decide

/-! ## Fields -/

/-- No two registers share a field. -/
theorem field_inj {p : Params} (hp : p.wf = true) {r q : Reg} (h : r.field p = q.field p) : r = q :=
  Command.read.inj (byte_inj hp (show (Command.read r).byte p = (Command.read q).byte p by simp only [Command.byte, h]))

/-- A register's own field names it. -/
@[simp] theorem regOfField_field {p : Params} (hp : p.wf = true) (r : Reg) : regOfField p (r.field p) = some r := by
  unfold regOfField
  cases h : Reg.all.find? fun q => q.field p == r.field p with
  | none => exact absurd (List.find?_eq_none.1 h r (mem_all r)) (by simp)
  | some q => exact congrArg some (field_inj hp (by simpa using List.find?_some h))

/-- A byte that is no register's field names none. -/
theorem regOfField_none {p : Params} {a : Byte} (h : ∀ r : Reg, r.field p ≠ a) : regOfField p a = none := by
  simp [regOfField, List.find?_eq_none, h]

/-! ## Instructions as framed commands -/

/-- What exec does with a read instruction, by its register. -/
theorem exec_readOf (r : Reg) (s : State) :
    exec (.readOf r) s = toOutcome (engineCommand (cmdRead s.params (r.field s.params)) .read 1 [] s) := by cases r <;> rfl

/-- What exec does with a discrete write, by its register. -/
theorem exec_writeOf (r : Reg) (v : Byte) (s : State) :
    exec (.writeOf r v) s = toOutcome (engineCommand (cmdWrite s.params (r.field s.params)) .write 1 [v] s) := by cases r <;> rfl

theorem exec_rdBurst (s : State) : exec .rdBurst s = toOutcome (engineCommand (burstReadAddr s.params) .read 8 [] s) := rfl

theorem exec_wrBurst (bytes : List Byte) (s : State) :
    exec (.wrBurst bytes) s = toOutcome (engineCommand (burstWriteAddr s.params) .write 8 bytes s) := rfl

theorem encode_readOf (p : Params) (r : Reg) : encode p (.readOf r) = [cmdRead p (r.field p)] := by cases r <;> rfl

theorem encode_writeOf (p : Params) (r : Reg) (v : Byte) : encode p (.writeOf r v) = [cmdWrite p (r.field p), v] := by cases r <;> rfl

/-- Every instruction is a discrete read, a discrete write or a burst. -/
theorem instr_shapes (i : Instr) :
    (∃ r, i = .readOf r) ∨ (∃ r v, i = .writeOf r v) ∨ i = .rdBurst ∨ ∃ bytes, i = .wrBurst bytes := by
  cases i with
  | wrBurst bytes => exact .inr (.inr (.inr ⟨bytes, rfl⟩))
  | rdBurst => exact .inr (.inr (.inl rfl))
  | rdSec => exact .inl ⟨.sec, rfl⟩
  | rdMin => exact .inl ⟨.min, rfl⟩
  | rdHour => exact .inl ⟨.hour, rfl⟩
  | rdDate => exact .inl ⟨.date, rfl⟩
  | rdMonth => exact .inl ⟨.month, rfl⟩
  | rdWday => exact .inl ⟨.wday, rfl⟩
  | rdYear => exact .inl ⟨.year, rfl⟩
  | rdWp => exact .inl ⟨.wp, rfl⟩
  | wrSec v => exact .inr (.inl ⟨.sec, v, rfl⟩)
  | wrMin v => exact .inr (.inl ⟨.min, v, rfl⟩)
  | wrHour v => exact .inr (.inl ⟨.hour, v, rfl⟩)
  | wrDate v => exact .inr (.inl ⟨.date, v, rfl⟩)
  | wrMonth v => exact .inr (.inl ⟨.month, v, rfl⟩)
  | wrWday v => exact .inr (.inl ⟨.wday, v, rfl⟩)
  | wrYear v => exact .inr (.inl ⟨.year, v, rfl⟩)
  | wrWp v => exact .inr (.inl ⟨.wp, v, rfl⟩)

/-- Exec of any instruction is one framed command: that of its encoding. -/
theorem exec_engineCommand (i : Instr) (s : State) :
    ∃ c d n bytes, exec i s = toOutcome (engineCommand c d n bytes s) ∧ encode s.params i = c :: bytes := by
  obtain ⟨r, rfl⟩ | ⟨r, v, rfl⟩ | rfl | ⟨bytes, rfl⟩ := instr_shapes i
  · exact ⟨_, _, _, _, exec_readOf r s, encode_readOf _ r⟩
  · exact ⟨_, _, _, _, exec_writeOf r v s, encode_writeOf _ r v⟩
  · exact ⟨_, _, _, _, exec_rdBurst s, rfl⟩
  · exact ⟨_, _, _, _, exec_wrBurst bytes s, rfl⟩

/-- Exec of any instruction is one framed command, of its own command byte, direction, length and data. -/
theorem exec_eq_engineCommand (i : Instr) {s : State} (hp : s.params.wf = true) :
    ∃ c d n bytes, exec i s = toOutcome (engineCommand c d n bytes s) ∧ encode s.params i = c :: bytes ∧ n = (dataLen s.params c).count ∧
      d = dirOf s.params c ∧ (decodeCommand s.params c).isSome = true ∧ (d = .read → bytes = []) ∧
        (WellFormed i → d = .write → bytes.length = n) := by
  obtain ⟨r, rfl⟩ | ⟨r, v, rfl⟩ | rfl | ⟨bytes, rfl⟩ := instr_shapes i
  · exact ⟨_, _, _, _, exec_readOf r s, encode_readOf _ r, by simp [hp], by simp [hp], by simp [hp], by simp, by simp⟩
  · exact ⟨_, _, _, _, exec_writeOf r v s, encode_writeOf _ r v, by simp [hp], by simp [hp], by simp [hp], by simp, by simp⟩
  · exact ⟨_, _, _, _, exec_rdBurst s, rfl, by simp, by simp [hp], by simp [hp], by simp, by simp⟩
  · exact ⟨_, _, _, _, exec_wrBurst bytes s, rfl, by simp, by simp [hp], by simp [hp], by simp,
      fun h _ => by simpa [WellFormed, Instr.wellFormed] using h⟩

end Sys2Proof.Machine
end

