-- ==== Sys2Proof/Laws/Engine.lean ====
section
/-! SUPPORT. What a whole transaction does, phase by phase: start, shift-out, sampling, stop (40_transfer_engine.md R103 to R112). -/
namespace Sys2Proof.Machine

open Sys2Proof

theorem runOps_append (a b : List MicroOp) (s : State) :
    runOps (a ++ b) s = match runOps a s with
      | .ok s1 => runOps b s1
      | .error f => .error f := by
  induction a generalizing s with
  | nil => rfl
  | cons op a ih =>
    simp only [List.cons_append, runOps]
    cases engineOp op s with
    | error f => rfl
    | ok s1 => exact ih s1

theorem runOps_append_ok {a : List MicroOp} {s s1 : State} (h : runOps a s = .ok s1) (b : List MicroOp) :
    runOps (a ++ b) s = runOps b s1 := by
  rw [runOps_append, h]

theorem eventsOf_append_noSample (a b : List MicroOp) (ss : List Bool) (h : ∀ op ∈ a, ∀ k i, op ≠ .sample k i) :
    eventsOf (a ++ b) ss = eventsOf a [] ++ eventsOf b ss := by
  induction a with
  | nil => rfl
  | cons op a ih =>
    have ih := ih fun o ho => h o (List.mem_cons_of_mem _ ho)
    cases op with
    | sample k i => exact absurd rfl (h _ List.mem_cons_self k i)
    | dir l d => simp [eventsOf, ih]
    | set l v => simp [eventsOf, ih]
    | wait T => simp [eventsOf, ih]

/-! ## Start phase -/

/-- After events 0..4 (R103): lines at their start levels, CE high, the chip at bit 0. -/
def State.started (s : State) : State :=
  { s with
    ce := ⟨.out, true⟩
    clk := ⟨.out, false⟩
    data := ⟨.out, false⟩
    mpc := s.mpc + 5
    chip := { s.chip with bitPos := 0 }
    trace := (eventsOf startOps []).reverse ++ s.trace }

theorem run_startOps {s : State} (hce : s.ce.dir = .out) (hclk : s.clk.dir = .out) : runOps startOps s = .ok s.started := by
  obtain ⟨_, ⟨_, _⟩, ⟨_, _⟩, ⟨_, _⟩⟩ := s
  simp only at hce hclk
  subst hce hclk
  rfl

/-! ## Shift-out -/

/-- After shifting out `bits` (R105 to R107). -/
def State.shifted (s : State) (bits : List Bool) : State :=
  { s with
    clk := ⟨.out, false⟩
    data := ⟨.out, bits.getLastD s.data.level⟩
    mpc := s.mpc + 6 * bits.length
    chip := { s.chip with bitPos := s.chip.bitPos + bits.length }
    trace := (eventsOf (bits.flatMap shiftBit) []).reverse ++ s.trace }

theorem run_shiftBit {s : State} (hd : s.data.dir = .out) (hk : s.clk = ⟨.out, false⟩) (hc : s.ce.level = true) (b : Bool) :
    runOps (shiftBit b) s = .ok (s.shifted [b]) := by
  obtain ⟨_, ⟨_, _⟩, ⟨_, _⟩, ⟨_, _⟩⟩ := s
  simp only at hd hk hc
  subst hd hc
  cases hk
  rfl

theorem shiftBit_noSample (b : Bool) : ∀ op ∈ shiftBit b, ∀ k i, op ≠ .sample k i := by
  simp [shiftBit]

theorem shiftBits_noSample (bits : List Bool) : ∀ op ∈ bits.flatMap shiftBit, ∀ k i, op ≠ .sample k i := by
  intro op hop
  obtain ⟨b, -, hb⟩ := List.mem_flatMap.1 hop
  exact shiftBit_noSample b op hb

theorem run_shiftBits {s : State} (hd : s.data.dir = .out) (hk : s.clk = ⟨.out, false⟩) (hc : s.ce.level = true) (bits : List Bool) :
    runOps (bits.flatMap shiftBit) s = .ok (s.shifted bits) := by
  induction bits generalizing s with
  | nil =>
    obtain ⟨_, ⟨_, _⟩, ⟨_, _⟩, ⟨_, _⟩⟩ := s
    simp only at hd hk hc
    subst hd hc
    cases hk
    rfl
  | cons b bits ih =>
    have hev : eventsOf ((b :: bits).flatMap shiftBit) [] = eventsOf ([b].flatMap shiftBit) [] ++ eventsOf (bits.flatMap shiftBit) [] := by
      rw [List.flatMap_cons, eventsOf_append_noSample _ _ _ (shiftBit_noSample b)]
      rfl
    rw [List.flatMap_cons, runOps_append_ok (run_shiftBit hd hk hc b), ih (s := s.shifted [b]) rfl rfl hc]
    simp only [State.shifted, hev, List.reverse_append, List.append_assoc, List.getLastD_cons, List.length_cons, List.length_nil,
      List.getLastD_nil, Nat.add_assoc, Nat.mul_add, Nat.add_comm 1, Nat.add_comm 6, Nat.zero_add, Nat.mul_one]

/-! ## Sampling -/

/-- After one bit of the read data phase (R109): the chip's clock edge, then the sample into `buf[k][i]`. -/
def State.sampled (s : State) (k i : Nat) : State :=
  let x : Chip := if s.ce.level then { s.chip with bitPos := s.chip.bitPos + 1 } else s.chip
  let a := x.answer s.params s.cmd s.draws
  { s with
    clk := ⟨.out, true⟩
    data := ⟨.inp, a.1⟩
    mpc := s.mpc + 4
    chip := a.2.1
    draws := a.2.2
    buf := orBit s.buf k i a.1
    trace := [.get .data a.1, .set .clk true, .wait .clkLow, .set .clk false] ++ s.trace }

theorem run_readBit {s : State} (hd : s.data.dir = .inp) (hk : s.clk.dir = .out) (k i : Nat) :
    runOps (readBit k i) s = .ok (s.sampled k i) := by
  obtain ⟨_, ⟨_, cl⟩, ⟨_, _⟩, ⟨_, _⟩⟩ := s
  simp only at hd hk
  subst hd hk
  cases cl <;> rfl

/-- After the samples at `places`, in order. -/
def State.sampledAll (s : State) (places : List (Nat × Nat)) : State := places.foldl (fun s p => s.sampled p.1 p.2) s

theorem run_readBits {s : State} (hd : s.data.dir = .inp) (hk : s.clk.dir = .out) (places : List (Nat × Nat)) :
    runOps (places.flatMap fun p => readBit p.1 p.2) s = .ok (s.sampledAll places) := by
  induction places generalizing s with
  | nil => rfl
  | cons p ps ih =>
    rw [List.flatMap_cons, runOps_append_ok (run_readBit hd hk p.1 p.2), ih rfl rfl]
    rfl

/-! ## Stop phase -/

/-- After the stop phase (R111): lines idle, the chip at bit 0, and what a write left in its registers. -/
def State.stopped (s : State) : State :=
  let w := if s.dir = .write then s.chip.cr.takeWrite s.params s.cmd s.buf s.draws else (s.chip.cr, s.draws)
  { s with
    ce := ⟨.out, false⟩
    clk := ⟨.out, false⟩
    data := ⟨.out, false⟩
    mpc := s.mpc + 4
    chip := { s.chip with cr := w.1, bitPos := 0 }
    draws := w.2
    trace := (eventsOf stopOps []).reverse ++ s.trace }

theorem run_stopOps {s : State} (hce : s.ce = ⟨.out, true⟩) (hk : s.clk.dir = .out) (hb : s.phase = .busy) :
    runOps stopOps s = .ok s.stopped := by
  obtain ⟨_, ⟨_, _⟩, ⟨_, _⟩, ⟨_, _⟩, ph, _, _, dr⟩ := s
  simp only at hce hk hb
  cases hce
  subst hk hb
  cases dr <;> rfl

/-! ## The whole transaction -/

theorem ops_accept (c : Byte) (d : Direction) (bytes : List Byte) (s : State) :
    (accept c d bytes s).ops = transactionOps c d (dataLen s.params c) (latch d (dataLen s.params c) bytes s.buf) := rfl

/-- The bytes a write shifts out after the command. -/
def writeData (p : Params) (c : Byte) (bytes : List Byte) (b : Vector Byte 8) : List Byte :=
  bufBytes (latch .write (dataLen p c) bytes b) (dataLen p c)

/-- The state after a write transaction. -/
def State.afterWrite (s : State) (c : Byte) (bytes : List Byte) : State :=
  let bits := (c :: writeData s.params c bytes s.buf).flatMap byteBits
  { (((accept c .write bytes s).started.shifted bits).stopped) with phase := .idle }

/-- A write transaction always completes, and so (R112). -/
theorem transact_write {s : State} (h : s.outputs = true) (c : Byte) (bytes : List Byte) :
    transact c .write bytes s = .ok (s.afterWrite c bytes) := by
  simp only [State.outputs, Bool.and_eq_true, beq_iff_eq] at h
  have hops : (accept c .write bytes s).ops =
      startOps ++ (((c :: writeData s.params c bytes s.buf).flatMap byteBits).flatMap shiftBit ++ stopOps) := by
    simp [ops_accept, transactionOps, dataOps, shiftBytes, writeData]
  rw [transact, hops, runOps_append_ok (run_startOps (s := accept c .write bytes s) h.1 h.2),
    runOps_append_ok (run_shiftBits (s := (accept c .write bytes s).started) rfl rfl rfl _), run_stopOps rfl rfl rfl]
  rfl

/-- DATA turned around (R108). -/
def State.turned (s : State) : State :=
  { s with data := ⟨.inp, s.data.level⟩, mpc := s.mpc + 1, trace := .dir .data .inp :: s.trace }

/-- The state after the sampling of a read transaction, before its stop phase. -/
def State.readDone (s : State) (c : Byte) : State :=
  (((accept c .read [] s).started.shifted (byteBits c)).turned).sampledAll (samplePlaces (dataLen s.params c).count)

/-- The state after a read transaction. -/
def State.afterRead (s : State) (c : Byte) : State := { (s.readDone c).stopped with phase := .idle }

@[simp] theorem sampled_ce (s : State) (k i : Nat) : (s.sampled k i).ce = s.ce := rfl
@[simp] theorem sampled_phase (s : State) (k i : Nat) : (s.sampled k i).phase = s.phase := rfl

/-- What the samples of a read leave alone. -/
structure SampleFrame (s t : State) : Prop where
  params : t.params = s.params
  task : t.task = s.task
  arrivals : t.arrivals = s.arrivals
  ce : t.ce = s.ce
  phase : t.phase = s.phase
  cmd : t.cmd = s.cmd
  dir : t.dir = s.dir
  len : t.len = s.len
  burstMode : t.burstMode = s.burstMode
  hourMode : t.hourMode = s.hourMode
  devState : t.devState = s.devState
  wpRecord : t.wpRecord = s.wpRecord
  ceBinding : t.ceBinding = s.ceBinding
  clkBinding : t.clkBinding = s.clkBinding
  dataBinding : t.dataBinding = s.dataBinding
  pending : t.pending = s.pending
  replies : t.replies = s.replies
  cr : t.chip.cr = s.chip.cr
  ticks : t.chip.ticks = s.chip.ticks
  frozen : t.chip.oracle.frozen = s.chip.oracle.frozen

theorem answer_cr (x : Chip) (p : Params) (c : Byte) (n : Nat) : (x.answer p c n).2.1.cr = x.cr := by
  unfold Chip.answer; split <;> rfl

theorem answer_ticks (x : Chip) (p : Params) (c : Byte) (n : Nat) : (x.answer p c n).2.1.ticks = x.ticks := by
  unfold Chip.answer; split <;> rfl

theorem answer_bitPos (x : Chip) (p : Params) (c : Byte) (n : Nat) : (x.answer p c n).2.1.bitPos = x.bitPos := by
  unfold Chip.answer; split <;> rfl

theorem answer_frozen (x : Chip) (p : Params) (c : Byte) (n : Nat) : (x.answer p c n).2.1.oracle.frozen = x.oracle.frozen := by
  unfold Chip.answer; split <;> simp_all [Oracle.frozen]

theorem sampled_frame (s : State) (k i : Nat) : SampleFrame s (s.sampled k i) := by
  constructor <;> first | rfl | (simp only [State.sampled, answer_cr, answer_ticks, answer_frozen]; split <;> rfl)

theorem SampleFrame.trans {s t u : State} (h : SampleFrame s t) (h' : SampleFrame t u) : SampleFrame s u := by
  constructor
  all_goals first
    | exact h'.ce.trans h.ce | exact h'.phase.trans h.phase | exact h'.cmd.trans h.cmd | exact h'.dir.trans h.dir
    | exact h'.len.trans h.len | exact h'.burstMode.trans h.burstMode | exact h'.hourMode.trans h.hourMode
    | exact h'.devState.trans h.devState | exact h'.wpRecord.trans h.wpRecord | exact h'.ceBinding.trans h.ceBinding
    | exact h'.clkBinding.trans h.clkBinding | exact h'.dataBinding.trans h.dataBinding | exact h'.pending.trans h.pending
    | exact h'.replies.trans h.replies | exact h'.cr.trans h.cr | exact h'.ticks.trans h.ticks
    | exact h'.params.trans h.params | exact h'.task.trans h.task | exact h'.arrivals.trans h.arrivals | exact h'.frozen.trans h.frozen

theorem sampledAll_frame (s : State) (ps : List (Nat × Nat)) : SampleFrame s (s.sampledAll ps) := by
  induction ps generalizing s with
  | nil => constructor <;> rfl
  | cons p ps ih => exact (sampled_frame s p.1 p.2).trans (ih _)

theorem sampledAll_clkDir {s : State} (h : s.clk.dir = .out) (ps : List (Nat × Nat)) : (s.sampledAll ps).clk.dir = .out := by
  induction ps generalizing s with
  | nil => exact h
  | cons p ps ih => exact ih rfl

/-- A read transaction always completes, whatever the oracle, and so (R112, R115). -/
theorem transact_read {s : State} (h : s.outputs = true) (c : Byte) : transact c .read [] s = .ok (s.afterRead c) := by
  simp only [State.outputs, Bool.and_eq_true, beq_iff_eq] at h
  have hops : (accept c .read [] s).ops =
      startOps ++ ((byteBits c).flatMap shiftBit ++
        (.dir .data .inp :: ((samplePlaces (dataLen s.params c).count).flatMap fun p => readBit p.1 p.2) ++ stopOps)) := by
    simp [ops_accept, transactionOps, dataOps, shiftBytes, readOps]
  have hturn : ∀ (s : State) (rest : List MicroOp), runOps (.dir .data .inp :: rest) s = runOps rest s.turned := by
    intro s rest; rfl
  rw [transact, hops, runOps_append_ok (run_startOps (s := accept c .read [] s) h.1 h.2),
    runOps_append_ok (run_shiftBits (s := (accept c .read [] s).started) rfl rfl rfl _), List.cons_append, hturn,
    runOps_append_ok (run_readBits rfl rfl _), run_stopOps]
  · rfl
  · exact (sampledAll_frame _ _).ce
  · exact sampledAll_clkDir rfl _
  · exact (sampledAll_frame _ _).phase

end Sys2Proof.Machine
end

