-- ==== Sys2Proof/Laws/Transact.lean ====
section
/-! SUPPORT. The state after a whole transaction, field by field, and what the test double sees of it. -/
namespace Sys2Proof.Machine

open Sys2Proof

/-! ## The buffer -/

theorem bufByte_bufOf (f : Nat → Byte) (k : Nat) : bufByte (bufOf f) k = if k < 8 then f k else 0#8 := by
  match k with
  | 0 | 1 | 2 | 3 | 4 | 5 | 6 | 7 => rfl
  | k + 8 => simp [bufByte, bufOf]

theorem bufByte_big (b : Vector Byte 8) {k : Nat} (h : 8 ≤ k) : bufByte b k = 0#8 := by
  simp [bufByte, h]

theorem count_le (n : DataLen) : n.count ≤ 8 := by cases n <;> decide

theorem count_pos (n : DataLen) : 0 < n.count := by cases n <;> decide

theorem bufByte_latch (d : Direction) (n : DataLen) (bytes : List Byte) (b : Vector Byte 8) (k : Nat) :
    bufByte (latch d n bytes b) k =
      if k < n.count then (match d with | .write => bytes.getD k 0#8 | .read => 0#8) else bufByte b k := by
  rw [latch, bufByte_bufOf]
  split
  · rfl
  · have := count_le n
    rw [if_neg (by omega), bufByte_big b (by omega)]

theorem bufByte_orBit (b : Vector Byte 8) (k i : Nat) (v : Bool) (j : Nat) :
    bufByte (orBit b k i v) j =
      if j = k ∧ j < 8 then bufByte b j ||| ((if v then 1#8 else 0#8) <<< i) else bufByte b j := by
  rw [orBit, bufByte_bufOf]
  by_cases h : j < 8
  · simp [h]
  · simp [h, bufByte_big b (Nat.le_of_not_lt h)]

/-- A write whose caller gave `n` bytes latches exactly them. -/
theorem writeData_eq {p : Params} {c : Byte} {bytes : List Byte} (h : bytes.length = (dataLen p c).count) (b : Vector Byte 8) :
    writeData p c bytes b = bytes := by
  unfold writeData bufBytes
  apply List.ext_getElem
  · simp [h]
  · intro k h1 h2
    simp only [List.length_map, List.length_range] at h1
    simp [bufByte_latch, h1, h2]

/-! ## The bytes and bits of a frame -/

theorem length_byteBits (v : Byte) : (byteBits v).length = 8 := rfl

theorem length_flatMap_byteBits (bs : List Byte) : (bs.flatMap byteBits).length = 8 * bs.length := by
  induction bs with
  | nil => rfl
  | cons b bs ih => simp only [List.flatMap_cons, List.length_append, ih, length_byteBits, List.length_cons]; omega

theorem byteOf_byteBits (v : Byte) : byteOf (byteBits v) = v := by
  revert v; decide +kernel

/-! ## The chip's timekeeping (20_memory.md R61) -/

/-- Everything `tick` can do: nothing, one premise used up, or a draw in each calendar register. -/
theorem tick_cases (c : Chip) (n : Nat) :
    (c.oracle.frozen = true ∧ c.tick n = (c, n)) ∨
      (c.oracle.frozen = false ∧ c.ticks = [] ∧
        c.tick n = ({ c with cr := c.cr.setRegs (fun k => Config.freeByte (n + k)) Reg.calendar }, n + 7)) ∨
      (c.oracle.frozen = false ∧ ∃ ts, c.ticks = none :: ts ∧ c.tick n = ({ c with ticks := ts }, n)) ∨
      (c.oracle.frozen = false ∧ ∃ t ts, c.ticks = some t :: ts ∧
        c.tick n = ({ c with ticks := ts, cr := c.cr.setRegs (fun k => t.toList.getD k 0#8) Reg.calendar }, n)) := by
  unfold Chip.tick
  cases hf : c.oracle.frozen with
  | true => simp
  | false => rcases hts : c.ticks with _ | ⟨_ | t, ts⟩ <;> simp

/-- The reference oracle's time stands still. -/
theorem tick_frozen {c : Chip} (h : c.oracle.frozen = true) (n : Nat) : c.tick n = (c, n) := by
  simp [Chip.tick, h]

theorem tick_reference {c : Chip} (h : c.oracle = .reference) (n : Nat) : c.tick n = (c, n) :=
  tick_frozen (by rw [h]; rfl) n

@[simp] theorem tick_oracle (c : Chip) (n : Nat) : (c.tick n).1.oracle = c.oracle := by
  obtain ⟨-, h⟩ | ⟨-, -, h⟩ | ⟨-, _, -, h⟩ | ⟨-, _, _, -, h⟩ := tick_cases c n <;> rw [h]

@[simp] theorem tick_bitPos (c : Chip) (n : Nat) : (c.tick n).1.bitPos = c.bitPos := by
  obtain ⟨-, h⟩ | ⟨-, -, h⟩ | ⟨-, _, -, h⟩ | ⟨-, _, _, -, h⟩ := tick_cases c n <;> rw [h]

theorem tick_wf {c : Chip} (hm : c.cr.wf = true) (n : Nat) : (c.tick n).1.cr.wf = true := by
  obtain ⟨-, h⟩ | ⟨-, -, h⟩ | ⟨-, _, -, h⟩ | ⟨-, _, _, -, h⟩ := tick_cases c n <;> rw [h]
  · exact hm
  · exact setRegs_wf hm _ _
  · exact hm
  · exact setRegs_wf hm _ _

/-- Timekeeping never touches the write-protect register. -/
theorem tick_wp {c : Chip} (hm : c.cr.wf = true) (n : Nat) : (c.tick n).1.cr.reg .wp = c.cr.reg .wp := by
  obtain ⟨-, h⟩ | ⟨-, -, h⟩ | ⟨-, _, -, h⟩ | ⟨-, _, _, -, h⟩ := tick_cases c n <;> rw [h]
  · exact (reg_setRegs hm _ _ _).trans (if_neg (by decide))
  · exact (reg_setRegs hm _ _ _).trans (if_neg (by decide))

/-! ## After a write -/

theorem afterWrite_frame (s : State) (c : Byte) (bytes : List Byte) : SameControl s (s.afterWrite c bytes) :=
  ⟨rfl, rfl, rfl, rfl, rfl, rfl, rfl, rfl, rfl, rfl, rfl⟩

@[simp] theorem afterWrite_linesIdle (s : State) (c : Byte) (bytes : List Byte) : (s.afterWrite c bytes).linesIdle = true := rfl
@[simp] theorem afterWrite_outputs (s : State) (c : Byte) (bytes : List Byte) : (s.afterWrite c bytes).outputs = true := rfl
@[simp] theorem afterWrite_phase (s : State) (c : Byte) (bytes : List Byte) : (s.afterWrite c bytes).phase = .idle := rfl
@[simp] theorem afterWrite_cmd (s : State) (c : Byte) (bytes : List Byte) : (s.afterWrite c bytes).cmd = c := rfl
@[simp] theorem afterWrite_dir (s : State) (c : Byte) (bytes : List Byte) : (s.afterWrite c bytes).dir = .write := rfl
@[simp] theorem afterWrite_len (s : State) (c : Byte) (bytes : List Byte) : (s.afterWrite c bytes).len = dataLen s.params c := rfl
@[simp] theorem afterWrite_buf (s : State) (c : Byte) (bytes : List Byte) :
    (s.afterWrite c bytes).buf = latch .write (dataLen s.params c) bytes s.buf := rfl
@[simp] theorem afterWrite_replies (s : State) (c : Byte) (bytes : List Byte) : (s.afterWrite c bytes).replies = s.replies := rfl
@[simp] theorem afterWrite_pending (s : State) (c : Byte) (bytes : List Byte) : (s.afterWrite c bytes).pending = s.pending := rfl
@[simp] theorem afterWrite_devState (s : State) (c : Byte) (bytes : List Byte) : (s.afterWrite c bytes).devState = s.devState := rfl
@[simp] theorem afterWrite_burstMode (s : State) (c : Byte) (bytes : List Byte) : (s.afterWrite c bytes).burstMode = s.burstMode := rfl
@[simp] theorem afterWrite_hourMode (s : State) (c : Byte) (bytes : List Byte) : (s.afterWrite c bytes).hourMode = s.hourMode := rfl
@[simp] theorem afterWrite_wpRecord (s : State) (c : Byte) (bytes : List Byte) : (s.afterWrite c bytes).wpRecord = s.wpRecord := rfl
@[simp] theorem afterWrite_ceBinding (s : State) (c : Byte) (bytes : List Byte) : (s.afterWrite c bytes).ceBinding = s.ceBinding := rfl
@[simp] theorem afterWrite_clkBinding (s : State) (c : Byte) (bytes : List Byte) : (s.afterWrite c bytes).clkBinding = s.clkBinding := rfl
@[simp] theorem afterWrite_dataBinding (s : State) (c : Byte) (bytes : List Byte) : (s.afterWrite c bytes).dataBinding = s.dataBinding := rfl
@[simp] theorem afterWrite_params (s : State) (c : Byte) (bytes : List Byte) : (s.afterWrite c bytes).params = s.params := rfl
@[simp] theorem afterWrite_task (s : State) (c : Byte) (bytes : List Byte) : (s.afterWrite c bytes).task = s.task := rfl
@[simp] theorem afterWrite_arrivals (s : State) (c : Byte) (bytes : List Byte) : (s.afterWrite c bytes).arrivals = s.arrivals := rfl
@[simp] theorem afterWrite_oracle (s : State) (c : Byte) (bytes : List Byte) :
    (s.afterWrite c bytes).chip.oracle = s.chip.oracle := tick_oracle _ _
@[simp] theorem afterWrite_ticks (s : State) (c : Byte) (bytes : List Byte) :
    (s.afterWrite c bytes).chip.ticks = (s.chip.tick s.draws).1.ticks := rfl
@[simp] theorem afterWrite_cr (s : State) (c : Byte) (bytes : List Byte) :
    (s.afterWrite c bytes).chip.cr = ((s.chip.tick s.draws).1.cr.takeWrite s.params c (latch .write (dataLen s.params c) bytes s.buf) (s.chip.tick s.draws).2).1 := rfl

theorem afterWrite_mpc (s : State) (c : Byte) (bytes : List Byte) :
    (s.afterWrite c bytes).mpc = transactionLength .write (dataLen s.params c) := by
  simp only [State.afterWrite, State.stopped, State.shifted, State.started, accept_mpc, length_flatMap_byteBits, List.length_cons,
    writeData, bufBytes, List.length_map, List.length_range, transactionLength]
  omega

/-- The events of a write transaction are its micro-ops, in order (R112). -/
theorem afterWrite_trace (s : State) (c : Byte) (bytes : List Byte) :
    (s.afterWrite c bytes).trace = (eventsOf (accept c .write bytes s).ops []).reverse ++ s.trace := by
  have hops : (accept c .write bytes s).ops =
      startOps ++ (((c :: writeData s.params c bytes s.buf).flatMap byteBits).flatMap shiftBit ++ stopOps) := by
    simp [ops_accept, transactionOps, dataOps, shiftBytes, writeData]
  rw [hops, eventsOf_append_noSample startOps _ _ (by simp [startOps]),
    eventsOf_append_noSample _ stopOps _ (shiftBits_noSample _)]
  simp [State.afterWrite, State.stopped, State.shifted, State.started]

/-! ## After a read -/

/-- The levels sampled at `places`, in order. -/
def samplesAt : State → List (Nat × Nat) → List Bool
  | _, [] => []
  | s, p :: ps => (s.sampled p.1 p.2).data.level :: samplesAt (s.sampled p.1 p.2) ps

theorem length_samplesAt (s : State) (ps : List (Nat × Nat)) : (samplesAt s ps).length = ps.length := by
  induction ps generalizing s with
  | nil => rfl
  | cons p ps ih => simp [samplesAt, ih]

theorem sampledAll_mpc (s : State) (ps : List (Nat × Nat)) : (s.sampledAll ps).mpc = s.mpc + 4 * ps.length := by
  induction ps generalizing s with
  | nil => rfl
  | cons p ps ih =>
    have h : (s.sampled p.1 p.2).mpc = s.mpc + 4 := rfl
    rw [State.sampledAll, List.foldl_cons, ← State.sampledAll, ih, h, List.length_cons]
    omega

theorem sampledAll_trace (s : State) (ps : List (Nat × Nat)) :
    (s.sampledAll ps).trace = (eventsOf (ps.flatMap fun p => readBit p.1 p.2) (samplesAt s ps)).reverse ++ s.trace := by
  induction ps generalizing s with
  | nil => rfl
  | cons p ps ih =>
    have h : (s.sampled p.1 p.2).trace =
        [.get .data (s.sampled p.1 p.2).data.level, .set .clk true, .wait .clkLow, .set .clk false] ++ s.trace := rfl
    rw [State.sampledAll, List.foldl_cons, ← State.sampledAll, ih, h, samplesAt]
    simp [readBit, eventsOf]

theorem sampledAll_buf (s : State) (ps : List (Nat × Nat)) :
    (s.sampledAll ps).buf = (ps.zip (samplesAt s ps)).foldl (fun b q => orBit b q.1.1 q.1.2 q.2) s.buf := by
  induction ps generalizing s with
  | nil => rfl
  | cons p ps ih =>
    rw [State.sampledAll, List.foldl_cons, ← State.sampledAll, ih, samplesAt, List.zip_cons_cons, List.foldl_cons]
    rfl

/-- ORing eight bits into byte `k`. -/
theorem orByte (b : Vector Byte 8) {k : Nat} (hk : k < 8) {bs : List Bool} (h : bs.length = 8) (j : Nat) :
    bufByte ((((List.range 8).map fun i => (k, i)).zip bs).foldl (fun b q => orBit b q.1.1 q.1.2 q.2) b) j =
      if j = k then bufByte b j ||| byteOf bs else bufByte b j := by
  match bs, h with
  | [b0, b1, b2, b3, b4, b5, b6, b7], _ =>
    by_cases hj : j = k
    · subst hj
      simp [List.range, List.range.loop, bufByte_orBit, hk, byteOf, BitVec.or_assoc]
    · simp [List.range, List.range.loop, bufByte_orBit, hj]

/-- ORing the samples of bytes `m .. m+n-1`, each cleared before. -/
theorem orBytes (n m : Nat) (b : Vector Byte 8) (hm : m + n ≤ 8) (ss : List Bool) (h : ss.length = 8 * n) (j : Nat) :
    bufByte ((((List.range' m n).flatMap fun k => (List.range 8).map fun i => (k, i)).zip ss).foldl
        (fun b q => orBit b q.1.1 q.1.2 q.2) b) j =
      if m ≤ j ∧ j < m + n then bufByte b j ||| byteOf ((ss.drop (8 * (j - m))).take 8) else bufByte b j := by
  induction n generalizing m b ss with
  | zero =>
    rw [if_neg (by omega)]
    rfl
  | succ n ih =>
    have hlen : (ss.take 8).length = 8 := by simp [h]
    conv_lhs => rw [List.range'_succ, List.flatMap_cons, ← List.take_append_drop 8 ss]
    rw [List.zip_append (by simp [hlen]), List.foldl_append,
      ih (m + 1) _ (by omega) (ss.drop 8) (by simp [h]; omega), orByte b (by omega) hlen]
    by_cases h1 : j = m
    · subst h1
      simp
    · by_cases h2 : m + 1 ≤ j ∧ j < m + 1 + n
      · rw [if_pos h2, if_neg h1, if_pos (by omega), List.drop_drop]
        congr 4
        omega
      · rw [if_neg h2, if_neg h1, if_neg (by omega)]

/-- `byteOf` reads the first eight levels alone. -/
theorem byteOf_congr {bs bs' : List Bool} (h : ∀ i, i < 8 → bs.getD i false = bs'.getD i false) : byteOf bs = byteOf bs' := by
  simp only [byteOf, List.range, List.range.loop, List.foldl_cons, List.foldl_nil, h 0 (by omega), h 1 (by omega), h 2 (by omega),
    h 3 (by omega), h 4 (by omega), h 5 (by omega), h 6 (by omega), h 7 (by omega)]

theorem byteOf_take (bs : List Bool) : byteOf (bs.take 8) = byteOf bs := by
  unfold byteOf
  simp [List.range, List.range.loop, List.getD_eq_getElem?_getD, List.getElem?_take]

theorem samplePlaces_eq (n : Nat) : samplePlaces n = (List.range' 0 n).flatMap fun k => (List.range 8).map fun i => (k, i) := by
  rw [samplePlaces, List.range_eq_range' (n := n)]

theorem length_samplePlaces (n : Nat) : (samplePlaces n).length = 8 * n := by
  unfold samplePlaces
  induction n with
  | zero => rfl
  | succ n ih =>
    rw [List.range_succ (n := n), List.flatMap_append, List.length_append, ih]
    simp only [List.flatMap_cons, List.flatMap_nil, List.append_nil, List.length_map, List.length_range]
    omega

/-- The state in which a read's sampling begins. -/
def State.readStart (s : State) (c : Byte) : State := ((accept c .read [] s).started.shifted (byteBits c)).turned

/-- The levels a read transaction samples, in order. -/
def State.readSamples (s : State) (c : Byte) : List Bool := samplesAt (s.readStart c) (samplePlaces (dataLen s.params c).count)

theorem length_readSamples (s : State) (c : Byte) : (s.readSamples c).length = 8 * (dataLen s.params c).count := by
  rw [State.readSamples, length_samplesAt, length_samplePlaces]

theorem readDone_eq (s : State) (c : Byte) : s.readDone c = (s.readStart c).sampledAll (samplePlaces (dataLen s.params c).count) := rfl

theorem readDone_frame (s : State) (c : Byte) : SampleFrame (s.readStart c) (s.readDone c) := sampledAll_frame _ _

theorem afterRead_frame (s : State) (c : Byte) : SameControl s (s.afterRead c) := by
  have h := readDone_frame s c
  exact ⟨h.burstMode, h.hourMode, h.devState, h.wpRecord, h.ceBinding, h.clkBinding, h.dataBinding, h.pending, h.params, h.task, h.arrivals⟩

@[simp] theorem afterRead_linesIdle (s : State) (c : Byte) : (s.afterRead c).linesIdle = true := rfl
@[simp] theorem afterRead_outputs (s : State) (c : Byte) : (s.afterRead c).outputs = true := rfl
@[simp] theorem afterRead_phase (s : State) (c : Byte) : (s.afterRead c).phase = .idle := rfl
@[simp] theorem afterRead_cmd (s : State) (c : Byte) : (s.afterRead c).cmd = c := (readDone_frame s c).cmd
@[simp] theorem afterRead_dir (s : State) (c : Byte) : (s.afterRead c).dir = .read := (readDone_frame s c).dir
@[simp] theorem afterRead_len (s : State) (c : Byte) : (s.afterRead c).len = dataLen s.params c := (readDone_frame s c).len
@[simp] theorem afterRead_replies (s : State) (c : Byte) : (s.afterRead c).replies = s.replies := (readDone_frame s c).replies
@[simp] theorem afterRead_pending (s : State) (c : Byte) : (s.afterRead c).pending = s.pending := (readDone_frame s c).pending
@[simp] theorem afterRead_devState (s : State) (c : Byte) : (s.afterRead c).devState = s.devState := (readDone_frame s c).devState
@[simp] theorem afterRead_burstMode (s : State) (c : Byte) : (s.afterRead c).burstMode = s.burstMode := (readDone_frame s c).burstMode
@[simp] theorem afterRead_hourMode (s : State) (c : Byte) : (s.afterRead c).hourMode = s.hourMode := (readDone_frame s c).hourMode
@[simp] theorem afterRead_wpRecord (s : State) (c : Byte) : (s.afterRead c).wpRecord = s.wpRecord := (readDone_frame s c).wpRecord
@[simp] theorem afterRead_ceBinding (s : State) (c : Byte) : (s.afterRead c).ceBinding = s.ceBinding := (readDone_frame s c).ceBinding
@[simp] theorem afterRead_clkBinding (s : State) (c : Byte) : (s.afterRead c).clkBinding = s.clkBinding := (readDone_frame s c).clkBinding
@[simp] theorem afterRead_dataBinding (s : State) (c : Byte) : (s.afterRead c).dataBinding = s.dataBinding := (readDone_frame s c).dataBinding
@[simp] theorem afterRead_params (s : State) (c : Byte) : (s.afterRead c).params = s.params := (readDone_frame s c).params
@[simp] theorem afterRead_task (s : State) (c : Byte) : (s.afterRead c).task = s.task := (readDone_frame s c).task
@[simp] theorem afterRead_arrivals (s : State) (c : Byte) : (s.afterRead c).arrivals = s.arrivals := (readDone_frame s c).arrivals
@[simp] theorem afterRead_buf (s : State) (c : Byte) : (s.afterRead c).buf = (s.readDone c).buf := rfl
@[simp] theorem afterRead_ticks (s : State) (c : Byte) : (s.afterRead c).chip.ticks = (s.chip.tick s.draws).1.ticks := (readDone_frame s c).ticks

/-- A read leaves the chip's registers alone (20_memory.md R58). -/
@[simp] theorem afterRead_cr (s : State) (c : Byte) : (s.afterRead c).chip.cr = (s.chip.tick s.draws).1.cr := by
  have h := readDone_frame s c
  have hd : (s.readDone c).dir = .read := h.dir
  show (if (s.readDone c).dir = .write then _ else ((s.readDone c).chip.cr, (s.readDone c).draws)).1 = _
  rw [if_neg (by simp [hd])]
  exact h.cr

theorem afterRead_mpc (s : State) (c : Byte) : (s.afterRead c).mpc = transactionLength .read (dataLen s.params c) := by
  show (s.readDone c).mpc + 4 = _
  have h : (s.readStart c).mpc = 54 := rfl
  rw [readDone_eq, sampledAll_mpc, h, length_samplePlaces, transactionLength]
  omega

theorem eventsOf_append_samples (ps : List (Nat × Nat)) (b : List MicroOp) (ss : List Bool) (h : ss.length = ps.length) :
    eventsOf ((ps.flatMap fun p => readBit p.1 p.2) ++ b) ss = eventsOf (ps.flatMap fun p => readBit p.1 p.2) ss ++ eventsOf b [] := by
  induction ps generalizing ss with
  | nil => cases ss <;> simp_all [eventsOf]
  | cons p ps ih =>
    cases ss with
    | nil => simp at h
    | cons x ss =>
      have ih := ih ss (by simpa using h)
      simp only [List.flatMap_cons, readBit, List.cons_append, List.nil_append, eventsOf, List.headD_cons, List.tail_cons] at ih ⊢
      rw [ih]

/-- The events of a read transaction are its micro-ops, in order, with the sampled levels (R112, R110). -/
theorem afterRead_trace (s : State) (c : Byte) :
    (s.afterRead c).trace = (eventsOf (accept c .read [] s).ops (s.readSamples c)).reverse ++ s.trace := by
  have hops : (accept c .read [] s).ops =
      startOps ++ ((byteBits c).flatMap shiftBit ++
        (.dir .data .inp :: (((samplePlaces (dataLen s.params c).count).flatMap fun p => readBit p.1 p.2) ++ stopOps))) := by
    simp [ops_accept, transactionOps, dataOps, shiftBytes, readOps]
  have htr : (s.afterRead c).trace = (eventsOf stopOps []).reverse ++ (s.readDone c).trace := rfl
  have hst : (s.readStart c).trace =
      .dir .data .inp :: ((eventsOf ((byteBits c).flatMap shiftBit) []).reverse ++ ((eventsOf startOps []).reverse ++ s.trace)) := rfl
  rw [hops, eventsOf_append_noSample startOps _ _ (by simp [startOps]),
    eventsOf_append_noSample _ _ _ (shiftBits_noSample _), eventsOf,
    eventsOf_append_samples _ _ _ (by rw [length_readSamples, length_samplePlaces]), htr, readDone_eq, sampledAll_trace, hst]
  simp [State.readSamples]

/-- The buffer after a read: the sampled bytes, and bytes `n..7` as they were (R110, 10_state.md R28). -/
theorem afterRead_bufByte (s : State) (c : Byte) (k : Nat) :
    bufByte (s.afterRead c).buf k =
      if k < (dataLen s.params c).count then byteOf ((s.readSamples c).drop (8 * k)) else bufByte s.buf k := by
  have hb : (s.readStart c).buf = latch .read (dataLen s.params c) [] s.buf := rfl
  rw [afterRead_buf, readDone_eq, sampledAll_buf, samplePlaces_eq, ← samplePlaces_eq, ← State.readSamples, samplePlaces_eq, hb,
    orBytes _ _ _ (by have := count_le (dataLen s.params c); omega) _ (length_readSamples s c), bufByte_latch]
  by_cases h : k < (dataLen s.params c).count
  · simp [h, byteOf_take]
  · simp [h]

theorem afterRead_bytes (s : State) (c : Byte) :
    bufBytes (s.afterRead c).buf (dataLen s.params c) = bytesOfSamples (dataLen s.params c).count (s.readSamples c) := by
  unfold bufBytes bytesOfSamples
  refine List.map_congr_left fun k hk => ?_
  rw [afterRead_bufByte, if_pos (List.mem_range.1 hk)]

/-! ## The reference oracle (20_memory.md R60) -/

theorem sampled_reference {s : State} (h : s.chip.oracle = .reference) (hce : s.ce.level = true) (k i : Nat) :
    (s.sampled k i).data.level = referenceBit s.params s.chip.cr s.cmd (s.chip.bitPos + 1) ∧
      (s.sampled k i).chip = { s.chip with bitPos := s.chip.bitPos + 1 } := by
  simp [State.sampled, hce, Chip.answer, h]

theorem samplesAt_reference {s : State} (h : s.chip.oracle = .reference) (hce : s.ce.level = true) (ps : List (Nat × Nat)) :
    samplesAt s ps = (List.range ps.length).map fun j => referenceBit s.params s.chip.cr s.cmd (s.chip.bitPos + 1 + j) := by
  induction ps generalizing s with
  | nil => rfl
  | cons p ps ih =>
    obtain ⟨h1, h2⟩ := sampled_reference h hce p.1 p.2
    have hc : (s.sampled p.1 p.2).cmd = s.cmd := rfl
    rw [samplesAt, ih (s := s.sampled p.1 p.2) (by rw [h2]; exact h) hce, h1, h2, hc, List.length_cons, List.range_succ_eq_map, List.map_cons, List.map_map]
    refine congrArg (_ :: ·) (List.map_congr_left fun j _ => ?_)
    simp only [Function.comp_apply, Nat.succ_eq_add_one]
    congr 1
    omega

/-- Under the reference oracle a read of the chip samples the response's bits, LSB first. -/
theorem readSamples_reference {s : State} (h : s.chip.oracle = .reference) (c : Byte) :
    s.readSamples c =
      (List.range (8 * (dataLen s.params c).count)).map fun j => ((response s.params s.chip.cr c).getD (j / 8) 0#8).getLsbD (j % 8) := by
  have h0 : (s.readStart c).chip = { (s.chip.tick s.draws).1 with bitPos := 8 } := rfl
  have h1 : (s.readStart c).cmd = c := rfl
  rw [State.readSamples, samplesAt_reference (s := s.readStart c) (by rw [h0, tick_reference h]; exact h) rfl, length_samplePlaces, h0, h1,
    tick_reference h]
  refine List.map_congr_left fun j _ => ?_
  have h2 : (s.readStart c).params = s.params := rfl
  simp [referenceBit, h2, show 8 + 1 + j - 9 = j by omega]

/-- Under the reference oracle a read returns the response's bytes. -/
theorem afterRead_reference {s : State} (h : s.chip.oracle = .reference) (c : Byte) {k : Nat} (hk : k < (dataLen s.params c).count) :
    bufByte (s.afterRead c).buf k = (response s.params s.chip.cr c).getD k 0#8 := by
  rw [afterRead_bufByte, if_pos hk, readSamples_reference h, ← byteOf_byteBits ((response s.params s.chip.cr c).getD k 0#8)]
  have hb : ∀ i, i < 8 → (((List.range (8 * (dataLen s.params c).count)).map fun j =>
      ((response s.params s.chip.cr c).getD (j / 8) 0#8).getLsbD (j % 8)).drop (8 * k)).getD i false =
        (byteBits ((response s.params s.chip.cr c).getD k 0#8)).getD i false := by
    intro i hi
    have h2 : 8 * k + i < 8 * (dataLen s.params c).count := by omega
    simp [byteBits, hi, h2, show (8 * k + i) / 8 = k by omega, show (8 * k + i) % 8 = i by omega]
  exact byteOf_congr hb

/-! ## Admission -/

theorem canTransact_iff {s : State} :
    s.canTransact = true ↔ s.bound = true ∧ s.engaged = false ∧ s.outputs = true ∧ s.params.wf = true := by
  simp [State.canTransact, and_assoc]

theorem admit_accept {c : Byte} {d : Direction} {n : Nat} {bytes : List Byte} {s : State} (hs : s.canTransact = true)
    (h : operandCheck s.params c d n bytes = none) : admission c d n bytes s = .accept := by
  obtain ⟨hb, he, -, -⟩ := canTransact_iff.1 hs
  simp [admission, hb, he, h]

theorem canTransact_outputs {s : State} (hs : s.canTransact = true) : s.outputs = true := (canTransact_iff.1 hs).2.2.1

theorem canTransact_params {s : State} (hs : s.canTransact = true) : s.params.wf = true := (canTransact_iff.1 hs).2.2.2

/-- A request for one transaction, accepted. -/
theorem serveEngine_accept {w : Waiting} {c : Byte} {d : Direction} {n : Nat} {bytes : List Byte} {s : State} (hs : s.canTransact = true)
    (h : operandCheck s.params c d n bytes = none) : serveEngine w c d n bytes s = .ok (accept c d bytes s) := by
  simp only [serveEngine, admit_accept hs h]

/-- A framed command, accepted. -/
theorem engineCommand_accept {c : Byte} {d : Direction} {n : Nat} {bytes : List Byte} {s : State} (hs : s.canTransact = true)
    (h : operandCheck s.params c d n bytes = none) : engineCommand c d n bytes s = .ok (accept c d bytes s) := serveEngine_accept hs h

/-! ## The events of a whole transaction (40_transfer_engine.md R112, R113) -/

/-- A write's micro-ops depend on the bytes it sends alone. -/
theorem transactionOps_write_congr (c : Byte) {n : DataLen} {b b' : Vector Byte 8} (h : bufBytes b n = bufBytes b' n) :
    transactionOps c .write n b = transactionOps c .write n b' := by simp only [transactionOps, dataOps, h]

theorem bufBytes_bufOf (bytes : List Byte) (n : DataLen) :
    bufBytes (bufOf fun k => bytes.getD k 0#8) n = (List.range n.count).map fun k => bytes.getD k 0#8 := by
  unfold bufBytes
  refine List.map_congr_left fun k hk => ?_
  have := List.mem_range.1 hk
  have := count_le n
  rw [bufByte_bufOf, if_pos (by omega)]

theorem bufBytes_latch (n : DataLen) (bytes : List Byte) (b : Vector Byte 8) :
    bufBytes (latch .write n bytes b) n = (List.range n.count).map fun k => bytes.getD k 0#8 := by
  unfold bufBytes
  refine List.map_congr_left fun k hk => ?_
  rw [bufByte_latch, if_pos (List.mem_range.1 hk)]

/-- A read's events, by the levels it samples. -/
theorem afterRead_events (s : State) (c : Byte) :
    (s.afterRead c).trace = (transactionEvents c .read (dataLen s.params c) [] (s.readSamples c)).reverse ++ s.trace := afterRead_trace s c

/-- A write's events, by the bytes it sends. -/
theorem afterWrite_events (s : State) (c : Byte) (bytes : List Byte) :
    (s.afterWrite c bytes).trace = (transactionEvents c .write (dataLen s.params c) bytes []).reverse ++ s.trace := by
  rw [afterWrite_trace, ops_accept, transactionEvents,
    transactionOps_write_congr c ((bufBytes_latch (dataLen s.params c) bytes s.buf).trans (bufBytes_bufOf bytes _).symm)]

/-! ## A test double that replays levels (60_exceptions.md R247) -/

theorem sampled_replay {s : State} {b : Bool} {ls : List Bool} (h : s.chip.oracle = .replay (b :: ls)) (k i : Nat) :
    (s.sampled k i).data.level = b ∧ (s.sampled k i).chip.oracle = .replay ls := by
  cases hc : s.ce.level <;> simp [State.sampled, Chip.answer, hc, h]

/-- While levels are listed the samples are the first of them, and the rest stay. -/
theorem samplesAt_replay {s : State} {ls : List Bool} (h : s.chip.oracle = .replay ls) (ps : List (Nat × Nat)) (hl : ps.length ≤ ls.length) :
    samplesAt s ps = ls.take ps.length ∧ (s.sampledAll ps).chip.oracle = .replay (ls.drop ps.length) := by
  induction ps generalizing s ls with
  | nil => exact ⟨rfl, h⟩
  | cons p ps ih =>
    cases ls with
    | nil => simp at hl
    | cons b ls =>
      obtain ⟨h1, h2⟩ := sampled_replay h p.1 p.2
      obtain ⟨h3, h4⟩ := ih h2 (by simpa using hl)
      exact ⟨by rw [samplesAt, h1, h3]; rfl, h4⟩

/-- A read of a test double with enough levels listed. -/
theorem readSamples_replay {s : State} {ls : List Bool} (h : s.chip.oracle = .replay ls) (c : Byte)
    (hl : 8 * (dataLen s.params c).count ≤ ls.length) :
    s.readSamples c = ls.take (8 * (dataLen s.params c).count) ∧
      (s.afterRead c).chip.oracle = .replay (ls.drop (8 * (dataLen s.params c).count)) := by
  have h0 : (s.readStart c).chip.oracle = .replay ls := by
    show (s.chip.tick s.draws).1.oracle = _
    rw [tick_oracle, h]
  have := samplesAt_replay h0 (samplePlaces (dataLen s.params c).count) (by rw [length_samplePlaces]; exact hl)
  rw [length_samplePlaces] at this
  exact this

end Sys2Proof.Machine
end

