-- ==== Sys2Proof/Laws/Exec.lean ====
section
/-! SUPPORT. What exec of each instruction accepts on a device that can transact, and what a transaction leaves in the chip's registers
(20_memory.md R58 to R61). -/
namespace Sys2Proof.Machine

open Sys2Proof

/-! ## The result put on record -/

@[simp] theorem State.deliver_linesIdle (s : State) : s.deliver.linesIdle = s.linesIdle := rfl
@[simp] theorem State.deliver_outputs (s : State) : s.deliver.outputs = s.outputs := rfl
@[simp] theorem State.deliver_bound (s : State) : s.deliver.bound = s.bound := rfl
@[simp] theorem State.deliver_canTransact (s : State) : s.deliver.canTransact = s.canTransact := rfl
@[simp] theorem State.reply_linesIdle (s : State) (r : Reply) : (s.reply r).linesIdle = s.linesIdle := rfl
@[simp] theorem State.reply_outputs (s : State) (r : Reply) : (s.reply r).outputs = s.outputs := rfl
@[simp] theorem State.reply_bound (s : State) (r : Reply) : (s.reply r).bound = s.bound := rfl
@[simp] theorem State.reply_canTransact (s : State) (r : Reply) : (s.reply r).canTransact = s.canTransact := rfl

theorem SameControl.deliver {s t : State} (h : SameControl s t) : SameControl s t.deliver := h

theorem SameControl.reply {s t : State} (h : SameControl s t) (r : Reply) : SameControl s (t.reply r) := h

theorem SameControl.refl (s : State) : SameControl s s := ⟨rfl, rfl, rfl, rfl, rfl, rfl, rfl, rfl, rfl, rfl, rfl⟩

theorem SameControl.trans {s t u : State} (h : SameControl s t) (h' : SameControl t u) : SameControl s u := by
  obtain ⟨a, b, c, d, e, f, g, i, j, k, l⟩ := h
  obtain ⟨a', b', c', d', e', f', g', i', j', k', l'⟩ := h'
  exact ⟨a'.trans a, b'.trans b, c'.trans c, d'.trans d, e'.trans e, f'.trans f, g'.trans g, i'.trans i, j'.trans j, k'.trans k, l'.trans l⟩

theorem linesIdle_outputs {s : State} (h : s.linesIdle = true) : s.outputs = true := by
  simp only [State.linesIdle, Bool.and_eq_true, beq_iff_eq] at h
  simp [State.outputs, h.1.1, h.1.2]

theorem bound_of_devState {s t : State} (h : t.devState = s.devState) : t.bound = s.bound := by simp [State.bound, h]

@[simp] theorem afterWrite_result (s : State) (c : Byte) (bytes : List Byte) : (s.afterWrite c bytes).result = .none := rfl

@[simp] theorem afterRead_result (s : State) (c : Byte) :
    (s.afterRead c).result = .bytes (bufBytes (s.afterRead c).buf (dataLen s.params c)) := by simp [State.result]

/-- An Idle engine with no facade request in progress is not engaged. -/
theorem engaged_of {s : State} (hp : s.phase = .idle) (ht : s.task = none) : s.engaged = false := by simp [State.engaged, hp, ht]

theorem engaged_task {s : State} (h : s.engaged = false) : s.task = none := by
  simp only [State.engaged, Bool.or_eq_false_iff] at h
  simpa using h.2

theorem engaged_idle {s : State} (h : s.engaged = false) : s.phase = .idle := by
  cases hp : s.phase with
  | idle => rfl
  | busy => simp [State.engaged, hp] at h

theorem afterWrite_canTransact {s : State} (hs : s.canTransact = true) (c : Byte) (bytes : List Byte) :
    (s.afterWrite c bytes).canTransact = true := by
  obtain ⟨hb, he, -, hp⟩ := canTransact_iff.1 hs
  exact canTransact_iff.2 ⟨by rw [bound_of_devState (afterWrite_devState s c bytes), hb],
    engaged_of (afterWrite_phase s c bytes) (by rw [afterWrite_task]; exact engaged_task he), afterWrite_outputs s c bytes, hp⟩

theorem afterRead_canTransact {s : State} (hs : s.canTransact = true) (c : Byte) : (s.afterRead c).canTransact = true := by
  obtain ⟨hb, he, -, hp⟩ := canTransact_iff.1 hs
  exact canTransact_iff.2 ⟨by rw [bound_of_devState (afterRead_devState s c), hb],
    engaged_of (afterRead_phase s c) (by rw [afterRead_task]; exact engaged_task he), afterRead_outputs s c, by rw [afterRead_params]; exact hp⟩

/-! ## Operand checks (40_transfer_engine.md R102 A2 to A5) -/

theorem operandCheck_read {p : Params} (hp : p.wf = true) (r : Reg) : operandCheck p (cmdRead p (r.field p)) .read 1 [] = none := by
  simp [operandCheck, hp]
theorem operandCheck_write {p : Params} (hp : p.wf = true) (r : Reg) (v : Byte) :
    operandCheck p (cmdWrite p (r.field p)) .write 1 [v] = none := by simp [operandCheck, hp]
theorem operandCheck_burstRead {p : Params} (hp : p.wf = true) : operandCheck p (burstReadAddr p) .read 8 [] = none := by
  simp [operandCheck, hp]
theorem operandCheck_burstWrite {p : Params} (hp : p.wf = true) {bytes : List Byte} (h : bytes.length = 8) :
    operandCheck p (burstWriteAddr p) .write 8 bytes = none := by
  simp [operandCheck, hp, h]

/-! ## Exec -/

/-- A read's events do not depend on the buffer. -/
theorem transactionOps_read_buf (c : Byte) (n : DataLen) (b b' : Vector Byte 8) :
    transactionOps c .read n b = transactionOps c .read n b' := rfl

theorem exec_readOf_next {s : State} (hs : s.canTransact = true) (r : Reg) :
    exec (.readOf r) s = .next (accept (cmdRead s.params (r.field s.params)) .read [] s) := by
  rw [exec_readOf, engineCommand_accept hs (operandCheck_read (canTransact_params hs) r), toOutcome_ok]

theorem exec_writeOf_next {s : State} (hs : s.canTransact = true) (r : Reg) (v : Byte) :
    exec (.writeOf r v) s = .next (accept (cmdWrite s.params (r.field s.params)) .write [v] s) := by
  rw [exec_writeOf, engineCommand_accept hs (operandCheck_write (canTransact_params hs) r v), toOutcome_ok]

theorem exec_rdBurst_next {s : State} (hs : s.canTransact = true) : exec .rdBurst s = .next (accept (burstReadAddr s.params) .read [] s) := by
  rw [exec_rdBurst, engineCommand_accept hs (operandCheck_burstRead (canTransact_params hs)), toOutcome_ok]

theorem exec_wrBurst_next {s : State} (hs : s.canTransact = true) {bytes : List Byte} (h : bytes.length = 8) :
    exec (.wrBurst bytes) s = .next (accept (burstWriteAddr s.params) .write bytes s) := by
  rw [exec_wrBurst, engineCommand_accept hs (operandCheck_burstWrite (canTransact_params hs) h), toOutcome_ok]

theorem tick_guarded {x : Chip} (h : x.cr.wf = true) (n : Nat) (p : Params) : (x.tick n).1.cr.guarded p = x.cr.guarded p := by
  rw [Memory.guarded, tick_wp h, Memory.guarded]

/-! ## What a write leaves in the registers (20_memory.md R58, R59) -/

theorem index_lt (r : Reg) : r.index < 8 := by cases r <;> decide

theorem takeWrite_write {p : Params} (hp : p.wf = true) (m : Memory) (r : Reg) (b : Vector Byte 8) (n : Nat) :
    m.takeWrite p (cmdWrite p (r.field p)) b n = if m.guarded p && r != .wp then (m, n) else (m.setReg r (bufByte b 0), n) := by
  simp [Memory.takeWrite, hp]

/-- The registers after a discrete write: the timekeeping's doing, then the byte in its place unless the guard bit blocks it. -/
theorem afterWrite_reg {s : State} (hp : s.params.wf = true) (r : Reg) (v : Byte) :
    (s.afterWrite (cmdWrite s.params (r.field s.params)) [v]).chip.cr =
      if (s.chip.tick s.draws).1.cr.guarded s.params && r != .wp then (s.chip.tick s.draws).1.cr else (s.chip.tick s.draws).1.cr.setReg r v := by
  rw [afterWrite_cr, takeWrite_write hp, bufByte_latch]
  split <;> simp [hp]

/-- The registers after a burst write: the bytes sent, or free values if the guard bit is set. -/
theorem afterWrite_burst {s : State} (hp : s.params.wf = true) (bytes : List Byte) :
    (s.afterWrite (burstWriteAddr s.params) bytes).chip.cr =
      if (s.chip.tick s.draws).1.cr.guarded s.params then
        (s.chip.tick s.draws).1.cr.setRegs (fun k => Config.freeByte ((s.chip.tick s.draws).2 + k)) Reg.all
      else (s.chip.tick s.draws).1.cr.setRegs (bufByte (latch .write .eight bytes s.buf)) Reg.all := by
  rw [afterWrite_cr, Memory.takeWrite, decodeCommand_burstWrite hp]
  simp only [dataLen_burstWrite]
  split <;> rfl

/-- Register writes touch no address that is no register's. -/
theorem read_setRegs_outside {m : Memory} (hm : m.wf = true) (f : Nat → Byte) (rs : List Reg) {a : Nat} (ha : ∀ r : Reg, a ≠ r.addr) :
    (m.setRegs f rs).read a = m.read a := by
  induction rs generalizing m with
  | nil => rfl
  | cons r rs ih => rw [Memory.setRegs, ih (setReg_wf hm _ _), read_setReg hm, if_neg (ha r)]

end Sys2Proof.Machine
end

