-- ==== Sys2Proof/Laws/Layout.lean ====
section
/-! SUPPORT. Where each event of a transaction stands (40_transfer_engine.md R113), and the engine step seen as one event of the list. -/
namespace Sys2Proof.Machine

open Sys2Proof

theorem length_shiftBits (bits : List Bool) : (bits.flatMap shiftBit).length = 6 * bits.length := by
  induction bits with
  | nil => rfl
  | cons b bits ih => simp only [List.flatMap_cons, List.length_append, ih, List.length_cons, shiftBit, List.length_nil]; omega

theorem length_readBits (ps : List (Nat × Nat)) : (ps.flatMap fun p => readBit p.1 p.2).length = 4 * ps.length := by
  induction ps with
  | nil => rfl
  | cons p ps ih =>
    have h : (readBit p.1 p.2).length = 4 := rfl
    rw [List.flatMap_cons, List.length_append, ih, h, List.length_cons]
    omega

theorem length_bufBytes (b : Vector Byte 8) (n : DataLen) : (bufBytes b n).length = n.count := by simp [bufBytes]

/-- The length L (R113). -/
theorem length_transactionOps (c : Byte) (d : Direction) (n : DataLen) (b : Vector Byte 8) :
    (transactionOps c d n b).length = transactionLength d n := by
  cases d with
  | write =>
    simp only [transactionOps, dataOps, shiftBytes, List.length_append, length_shiftBits, length_flatMap_byteBits, length_bufBytes,
      List.length_cons, List.length_nil, startOps, stopOps, transactionLength]
    omega
  | read =>
    simp only [transactionOps, dataOps, shiftBytes, readOps, List.length_append, length_shiftBits, length_flatMap_byteBits,
      length_readBits, length_samplePlaces, List.length_cons, List.length_nil, startOps, stopOps, transactionLength]
    omega

/-- Dropping whole bits of a shift-out. -/
theorem drop_shiftBits (bits : List Bool) (m : Nat) (rest : List MicroOp) (h : m ≤ bits.length) :
    ((bits.flatMap shiftBit) ++ rest).drop (6 * m) = ((bits.drop m).flatMap shiftBit) ++ rest := by
  induction m generalizing bits with
  | zero => rfl
  | succ m ih =>
    cases bits with
    | nil => simp at h
    | cons b bits =>
      rw [List.flatMap_cons, List.append_assoc, show 6 * (m + 1) = (shiftBit b).length + 6 * m by simp [shiftBit]; omega,
        ← List.drop_drop, List.drop_left, ih bits (by simpa using h), List.drop_succ_cons]

/-- Bit `m` of a shift-out. -/
theorem shiftBits_at (bits : List Bool) (m : Nat) (rest : List MicroOp) (h : m < bits.length) :
    (((bits.flatMap shiftBit) ++ rest).drop (6 * m)).take 6 = shiftBit bits[m] := by
  rw [drop_shiftBits bits m rest h.le, ← List.cons_getElem_drop_succ (h := h), List.flatMap_cons, List.append_assoc]
  rfl

/-- Bit `8k + i` of a byte list on the wire. -/
theorem bits_at (bs : List Byte) (k i : Nat) (hk : k < bs.length) (hi : i < 8) :
    (bs.flatMap byteBits)[8 * k + i]'(by rw [length_flatMap_byteBits]; omega) = bs[k].getLsbD i := by
  induction bs generalizing k with
  | nil => simp at hk
  | cons b bs ih =>
    cases k with
    | zero =>
      have : i < (byteBits b).length := hi
      simp only [Nat.mul_zero, Nat.zero_add, List.flatMap_cons, List.getElem_cons_zero]
      rw [List.getElem_append_left this]
      simp [byteBits]
    | succ k =>
      have := ih k (by simpa using hk)
      simp only [List.flatMap_cons, List.getElem_cons_succ]
      rw [List.getElem_append_right (by rw [length_byteBits]; omega)]
      simp only [length_byteBits, show 8 * (k + 1) + i - 8 = 8 * k + i by omega]
      exact this

/-- Dropping whole bits of a read's data phase. -/
theorem drop_readBits (ps : List (Nat × Nat)) (m : Nat) (rest : List MicroOp) (h : m ≤ ps.length) :
    ((ps.flatMap fun p => readBit p.1 p.2) ++ rest).drop (4 * m) = ((ps.drop m).flatMap fun p => readBit p.1 p.2) ++ rest := by
  induction m generalizing ps with
  | zero => rfl
  | succ m ih =>
    cases ps with
    | nil => simp at h
    | cons p ps =>
      rw [List.flatMap_cons, List.append_assoc, show 4 * (m + 1) = (readBit p.1 p.2).length + 4 * m by simp [readBit]; omega,
        ← List.drop_drop, List.drop_left, ih ps (by simpa using h), List.drop_succ_cons]

theorem readBits_at (ps : List (Nat × Nat)) (m : Nat) (rest : List MicroOp) (h : m < ps.length) :
    (((ps.flatMap fun p => readBit p.1 p.2) ++ rest).drop (4 * m)).take 4 = readBit ps[m].1 ps[m].2 := by
  rw [drop_readBits ps m rest h.le, ← List.cons_getElem_drop_succ (h := h), List.flatMap_cons, List.append_assoc]
  rfl

/-- Sample `8k + i` goes into byte `k`, bit `i` (R110). -/
theorem samplePlaces_at (n k i : Nat) (hk : k < n) (hi : i < 8) :
    (samplePlaces n)[8 * k + i]? = some (k, i) := by
  unfold samplePlaces
  induction n with
  | zero => omega
  | succ n ih =>
    have hlen := length_samplePlaces n
    unfold samplePlaces at hlen
    rw [List.range_succ (n := n), List.flatMap_append]
    by_cases h : k < n
    · rw [List.getElem?_append_left (by omega)]
      exact ih h
    · have : k = n := by omega
      subst this
      rw [List.getElem?_append_right (by omega), hlen, show 8 * k + i - 8 * k = i by omega]
      simp [hi]

/-! ## What stands at an index, but for the bits shifted out -/

/-- The micro-op without its bit. -/
def MicroOp.shape : MicroOp → MicroOp
  | .set .data _ => .set .data false
  | op => op

theorem shape_shiftBits (bits : List Bool) :
    (bits.flatMap shiftBit).map MicroOp.shape = (List.replicate bits.length ()).flatMap fun _ => shiftBit false := by
  induction bits with
  | nil => rfl
  | cons b bits ih =>
    rw [List.flatMap_cons, List.map_append, ih, List.length_cons, List.replicate_succ, List.flatMap_cons]
    rfl

/-- The event sequence but for the bits shifted out depends on direction and length alone. -/
def shapeOps (d : Direction) (n : DataLen) : List MicroOp :=
  startOps ++ (((List.replicate 8 ()).flatMap fun _ => shiftBit false) ++
    ((match d with
      | .write => (List.replicate (8 * n.count) ()).flatMap fun _ => shiftBit false
      | .read => .dir .data .inp :: readOps n.count) ++ stopOps))

theorem shape_readOps (n : Nat) : (readOps n).map MicroOp.shape = readOps n := by
  unfold readOps
  induction samplePlaces n with
  | nil => rfl
  | cons p ps ih =>
    rw [List.flatMap_cons, List.map_append, ih]
    rfl

theorem shape_transactionOps (c : Byte) (d : Direction) (n : DataLen) (b : Vector Byte 8) :
    (transactionOps c d n b).map MicroOp.shape = shapeOps d n := by
  have hc : ([c].flatMap byteBits).length = 8 := rfl
  cases d with
  | write =>
    have hw : ((bufBytes b n).flatMap byteBits).length = 8 * n.count := by rw [length_flatMap_byteBits, length_bufBytes]
    simp only [transactionOps, dataOps, shiftBytes, List.map_append, shape_shiftBits, hc, hw, shapeOps]
    rfl
  | read =>
    simp only [transactionOps, dataOps, shiftBytes, List.map_append, List.map_cons, shape_shiftBits, hc, shape_readOps, shapeOps]
    rfl

/-- Which index each kind of micro-op may stand at (R103 to R111), as one check over an index and a micro-op. -/
def placed (d : Direction) (n : DataLen) (m : Nat) : MicroOp → Bool
  | .dir .data .out => m == 0 || m == stopIndex d n + 2
  | .dir .data .inp => d == .read && m == 53
  | .dir _ _ => false
  | .set .ce true => m == 3
  | .set .ce false => m == stopIndex d n
  | .set .clk true => decide (6 ≤ m) && decide (m < stopIndex d n)
  | .set .clk false => decide (2 ≤ m) && decide (m ≤ stopIndex d n + 1)
  | .set .data _ => decide (1 ≤ m) && (d == .write || decide (m < 53) || m == stopIndex d n + 3) && m != stopIndex d n + 1
  | .sample _ _ => d == .read && decide (54 ≤ m) && decide (m < stopIndex d n)
  | .wait _ => decide (4 ≤ m) && decide (m < stopIndex d n)

/-- The indexes that must hold a given micro-op. -/
def fixedAt (d : Direction) (n : DataLen) (m : Nat) (op : MicroOp) : Bool :=
  (m != 3 || op == .set .ce true) && (m != stopIndex d n || op == .set .ce false) && (m != stopIndex d n + 1 || op == .set .clk false) &&
    (m != stopIndex d n + 2 || op == .dir .data .out) && (m != stopIndex d n + 3 || op == .set .data false) &&
    (m != 0 || op == .dir .data .out) && (d != .read || m != 53 || op == .dir .data .inp)

/-- Both checks along a list, from index `m` on. -/
def placedAll (d : Direction) (n : DataLen) : Nat → List MicroOp → Bool
  | _, [] => true
  | m, op :: ops => placed d n m op && fixedAt d n m op && placedAll d n (m + 1) ops

theorem placedAll_shapeOps (d : Direction) (n : DataLen) : placedAll d n 0 (shapeOps d n) = true := by
  cases d <;> cases n <;> decide +kernel

theorem placedAll_get {d : Direction} {n : DataLen} {m k : Nat} {ops : List MicroOp} {op : MicroOp} (h : placedAll d n m ops = true)
    (hk : ops[k]? = some op) : placed d n (m + k) op = true ∧ fixedAt d n (m + k) op = true := by
  induction ops generalizing m k with
  | nil => simp at hk
  | cons o ops ih =>
    simp only [placedAll, Bool.and_eq_true] at h
    cases k with
    | zero =>
      simp only [List.getElem?_cons_zero, Option.some.injEq] at hk
      subst hk
      exact h.1
    | succ k =>
      rw [show m + (k + 1) = m + 1 + k by omega]
      exact ih h.2 (by simpa using hk)

/-- Where a micro-op of a transaction stands. -/
theorem placed_of_get {c : Byte} {d : Direction} {n : DataLen} {b : Vector Byte 8} {m : Nat} {op : MicroOp}
    (h : (transactionOps c d n b)[m]? = some op) : placed d n m op.shape = true ∧ fixedAt d n m op.shape = true := by
  have hs : (shapeOps d n)[m]? = some op.shape := by
    rw [← shape_transactionOps c d n b, List.getElem?_map, h]
    rfl
  simpa using placedAll_get (placedAll_shapeOps d n) hs

end Sys2Proof.Machine
end

