-- ==== Sys2Proof/Laws/Observe.lean ====
section
/-! SUPPORT. What the test double reads off the events of a transaction: counts, levels at the rising edges, command bytes, waits
(40_transfer_engine.md R113, R117, 70_reset_and_hazards.md R273). -/
namespace Sys2Proof.Machine

open Sys2Proof

/-! ## The events of a transaction, phase by phase -/

theorem eventsOf_append_reads (ps : List (Nat × Nat)) (b : List MicroOp) (ss : List Bool) :
    eventsOf ((ps.flatMap fun p => readBit p.1 p.2) ++ b) ss =
      eventsOf (ps.flatMap fun p => readBit p.1 p.2) ss ++ eventsOf b (ss.drop ps.length) := by
  induction ps generalizing ss with
  | nil => rfl
  | cons p ps ih =>
    have ih := ih ss.tail
    simp only [List.flatMap_cons, readBit, List.cons_append, List.nil_append, eventsOf] at ih ⊢
    rw [ih]
    simp

theorem eventsOf_write (c : Byte) (n : DataLen) (b : Vector Byte 8) (ss : List Bool) :
    eventsOf (transactionOps c .write n b) ss =
      eventsOf startOps [] ++ (eventsOf (((c :: bufBytes b n).flatMap byteBits).flatMap shiftBit) [] ++ eventsOf stopOps []) := by
  have hops : transactionOps c .write n b = startOps ++ (((c :: bufBytes b n).flatMap byteBits).flatMap shiftBit ++ stopOps) := by
    simp [transactionOps, dataOps, shiftBytes]
  rw [hops, eventsOf_append_noSample startOps _ _ (by simp [startOps]), eventsOf_append_noSample _ stopOps _ (shiftBits_noSample _)]
  rfl

theorem eventsOf_read (c : Byte) (n : DataLen) (b : Vector Byte 8) (ss : List Bool) :
    eventsOf (transactionOps c .read n b) ss =
      eventsOf startOps [] ++ (eventsOf ((byteBits c).flatMap shiftBit) [] ++
        (.dir .data .inp :: (eventsOf ((samplePlaces n.count).flatMap fun p => readBit p.1 p.2) ss ++ eventsOf stopOps []))) := by
  have hops : transactionOps c .read n b = startOps ++ ((byteBits c).flatMap shiftBit ++
      (.dir .data .inp :: (((samplePlaces n.count).flatMap fun p => readBit p.1 p.2) ++ stopOps))) := by
    simp [transactionOps, dataOps, shiftBytes, readOps]
  rw [hops, eventsOf_append_noSample startOps _ _ (by simp [startOps]), eventsOf_append_noSample _ _ _ (shiftBits_noSample _), eventsOf,
    eventsOf_append_reads]
  rfl

theorem eventsOf_shiftBits_cons (b : Bool) (bits : List Bool) :
    eventsOf ((b :: bits).flatMap shiftBit) [] =
      [.set .data b, .wait .dataSetup, .set .clk true, .wait .clkHigh, .set .clk false, .wait .clkLow] ++
        eventsOf (bits.flatMap shiftBit) [] := rfl

theorem eventsOf_readBits_cons (p : Nat × Nat) (ps : List (Nat × Nat)) (ss : List Bool) :
    eventsOf ((p :: ps).flatMap fun p => readBit p.1 p.2) ss =
      [.set .clk false, .wait .clkLow, .set .clk true, .get .data (ss.headD false)] ++
        eventsOf (ps.flatMap fun p => readBit p.1 p.2) ss.tail := rfl

/-! ## Sums over the events: counts and waits -/

/-- A sum over the events of a shift-out. -/
theorem sum_shiftBits (f : Event → Nat) (hf : ∀ l, f (.set l true) = f (.set l false)) (bits : List Bool) :
    ((eventsOf (bits.flatMap shiftBit) []).map f).sum =
      bits.length * (f (.set .data false) + f (.wait .dataSetup) + f (.set .clk false) + f (.wait .clkHigh) + f (.set .clk false) +
        f (.wait .clkLow)) := by
  induction bits with
  | nil => simp [eventsOf]
  | cons b bits ih =>
    have hb : f (.set .data b) = f (.set .data false) := by cases b <;> simp [hf]
    rw [eventsOf_shiftBits_cons, List.map_append, List.sum_append, ih, List.length_cons, Nat.add_mul]
    simp only [List.map_cons, List.map_nil, List.sum_cons, List.sum_nil, hb, hf]
    omega

/-- A sum over the events of a read's data phase. -/
theorem sum_readBits (f : Event → Nat) (hf : ∀ l, f (.set l true) = f (.set l false)) (hg : f (.get .data true) = f (.get .data false))
    (ps : List (Nat × Nat)) (ss : List Bool) :
    ((eventsOf (ps.flatMap fun p => readBit p.1 p.2) ss).map f).sum =
      ps.length * (f (.set .clk false) + f (.wait .clkLow) + f (.set .clk false) + f (.get .data false)) := by
  induction ps generalizing ss with
  | nil => simp [eventsOf]
  | cons p ps ih =>
    have hb : f (.get .data (ss.headD false)) = f (.get .data false) := by cases ss.headD false <;> simp [hg]
    rw [eventsOf_readBits_cons, List.map_append, List.sum_append, ih, List.length_cons, Nat.add_mul]
    simp only [List.map_cons, List.map_nil, List.sum_cons, List.sum_nil, hb, hf]
    omega

theorem countP_eq_sum (p : Event → Bool) (es : List Event) : es.countP p = (es.map fun e => (p e).toNat).sum := by
  induction es with
  | nil => rfl
  | cons e es ih => cases h : p e <;> simp [ih, h, Nat.add_comm]

/-! ## Levels at the rising edges -/

theorem dataAtRise_shiftBits (d : Bool) (bits : List Bool) (es : List Event) :
    dataAtRise d false (eventsOf (bits.flatMap shiftBit) [] ++ es) = bits ++ dataAtRise (bits.getLastD d) false es := by
  induction bits generalizing d with
  | nil => rfl
  | cons b bits ih =>
    rw [eventsOf_shiftBits_cons]
    simp only [List.cons_append, List.nil_append, dataAtRise, ih, Bool.not_false, Bool.and_self, if_true, Bool.false_and, List.getLastD_cons,
      Bool.false_eq_true, if_false]

theorem dataAtRise_stop (d k : Bool) : dataAtRise d k (eventsOf stopOps []) = [] := rfl

theorem length_dataAtRise_readBits (d k : Bool) (ps : List (Nat × Nat)) (ss : List Bool) :
    (dataAtRise d k (eventsOf (ps.flatMap fun p => readBit p.1 p.2) ss ++ eventsOf stopOps [])).length = ps.length := by
  induction ps generalizing d k ss with
  | nil => rfl
  | cons p ps ih =>
    rw [eventsOf_readBits_cons, List.length_cons, ← ih (ss.headD false) true ss.tail]
    rfl

/-! ## Command bytes -/

/-- No command byte without CE rising. -/
theorem commandsFrom_none (d k : Bool) (es es' : List Event) (h : ∀ e ∈ es, e ≠ .set .ce true) :
    ∃ d' k', commandsFrom d k none (es ++ es') = commandsFrom d' k' none es' := by
  induction es generalizing d k with
  | nil => exact ⟨d, k, rfl⟩
  | cons e es ih =>
    have hes := fun d k => ih d k fun x hx => h x (List.mem_cons_of_mem _ hx)
    have he := h e List.mem_cons_self
    cases e with
    | dir l x => simpa [commandsFrom] using hes d k
    | wait T => simpa [commandsFrom] using hes d k
    | get l v => cases l <;> simpa [commandsFrom] using hes _ _
    | set l v =>
      cases l with
      | data => simpa [commandsFrom] using hes v k
      | clk => cases v <;> cases k <;> simpa [commandsFrom] using hes d _
      | ce =>
        cases v with
        | false => simpa [commandsFrom] using hes d k
        | true => exact absurd rfl he

/-- The first eight bits after CE rises are the command byte. -/
theorem commandsFrom_byte (d : Bool) (c : Byte) (es : List Event) :
    ∃ d', commandsFrom d false (some []) (eventsOf ((byteBits c).flatMap shiftBit) [] ++ es) = c :: commandsFrom d' false none es := by
  refine ⟨c.getLsbD 7, ?_⟩
  have h : commandsFrom d false (some []) (eventsOf ((byteBits c).flatMap shiftBit) [] ++ es) =
      byteOf (byteBits c) :: commandsFrom (c.getLsbD 7) false none es := rfl
  rw [h, byteOf_byteBits]

theorem commandsFrom_stop (d k : Bool) (es : List Event) :
    commandsFrom d k none (eventsOf stopOps [] ++ es) = commandsFrom false false none es := by
  cases k <;> rfl

theorem commandsFrom_start (d k : Bool) (acc : Option (List Bool)) (es : List Event) :
    commandsFrom d k acc (eventsOf startOps [] ++ es) = commandsFrom false false (some []) es := by
  cases k <;> cases acc <;> rfl

theorem shiftBits_noCe (bits : List Bool) : ∀ e ∈ eventsOf (bits.flatMap shiftBit) [], e ≠ .set .ce true := by
  induction bits with
  | nil => simp [eventsOf]
  | cons b bits ih =>
    rw [eventsOf_shiftBits_cons]
    intro e he
    rcases List.mem_append.1 he with h | h
    · rintro rfl; simp at h
    · exact ih e h

theorem readBits_noCe (ps : List (Nat × Nat)) (ss : List Bool) :
    ∀ e ∈ eventsOf (ps.flatMap fun p => readBit p.1 p.2) ss, e ≠ .set .ce true := by
  induction ps generalizing ss with
  | nil => simp [eventsOf]
  | cons p ps ih =>
    rw [eventsOf_readBits_cons]
    intro e he
    rcases List.mem_append.1 he with h | h
    · rintro rfl; simp at h
    · exact ih _ e h

/-- A transaction shows its command byte and leaves the lines idle. -/
theorem commandsFrom_transaction (d0 k0 : Bool) (acc : Option (List Bool)) (c : Byte) (d : Direction) (n : DataLen) (b : Vector Byte 8)
    (ss : List Bool) (es : List Event) :
    commandsFrom d0 k0 acc (eventsOf (transactionOps c d n b) ss ++ es) = c :: commandsFrom false false none es := by
  cases d with
  | write =>
    have hsplit : eventsOf (((c :: bufBytes b n).flatMap byteBits).flatMap shiftBit) [] =
        eventsOf ((byteBits c).flatMap shiftBit) [] ++ eventsOf (((bufBytes b n).flatMap byteBits).flatMap shiftBit) [] := by
      rw [List.flatMap_cons, List.flatMap_append, eventsOf_append_noSample _ _ _ (shiftBits_noSample _)]
    rw [eventsOf_write, hsplit]
    simp only [List.append_assoc, commandsFrom_start]
    obtain ⟨d1, h1⟩ := commandsFrom_byte false c
      (eventsOf (((bufBytes b n).flatMap byteBits).flatMap shiftBit) [] ++ (eventsOf stopOps [] ++ es))
    obtain ⟨d2, k2, h2⟩ := commandsFrom_none d1 false _ (eventsOf stopOps [] ++ es) (shiftBits_noCe ((bufBytes b n).flatMap byteBits))
    rw [h1, h2, commandsFrom_stop]
  | read =>
    rw [eventsOf_read]
    simp only [List.append_assoc, commandsFrom_start, List.cons_append]
    obtain ⟨d1, h1⟩ := commandsFrom_byte false c
      (.dir .data .inp :: (eventsOf ((samplePlaces n.count).flatMap fun p => readBit p.1 p.2) ss ++ (eventsOf stopOps [] ++ es)))
    obtain ⟨d2, k2, h2⟩ := commandsFrom_none d1 false _ (eventsOf stopOps [] ++ es) (readBits_noCe (samplePlaces n.count) ss)
    rw [h1, commandsFrom, h2, commandsFrom_stop]

end Sys2Proof.Machine
end

