-- ==== Sys2Proof/Laws/Steps.lean ====
section
/-! SUPPORT. What one event changes, what a Busy step does, and a whole transaction as its engine steps (40_transfer_engine.md R114). -/
namespace Sys2Proof.Machine

open Sys2Proof

/-- What every event leaves alone. -/
structure EventFrame (s t : State) : Prop where
  params : t.params = s.params
  task : t.task = s.task
  arrivals : t.arrivals = s.arrivals
  phase : t.phase = s.phase
  cmd : t.cmd = s.cmd
  dir : t.dir = s.dir
  len : t.len = s.len
  burstMode : t.burstMode = s.burstMode
  hourMode : t.hourMode = s.hourMode
  devState : t.devState = s.devState
  wpRecord : t.wpRecord = s.wpRecord
  ceBinding : t.ceBinding = s.ceBinding
  clkBinding : t.clkBinding = s.clkBinding
  dataBinding : t.dataBinding = s.dataBinding
  pending : t.pending = s.pending
  replies : t.replies = s.replies

theorem setLine_frame (s : State) (l : LineId) (x : Line) : EventFrame s (s.setLine l x) := by
  cases l <;> constructor <;> rfl

/-- One event: everything it can do (R100). -/
theorem perform_ok {op : MicroOp} {s t : State} (h : perform op s = .ok t) :
    (∃ l d, op = .dir l d ∧ t = (s.setLine l ⟨d, (s.line l).level⟩).emit (.dir l d)) ∨
    (∃ l v, op = .set l v ∧ (s.line l).dir = .out ∧
      t = ({ s with chip := (s.chipSees l v).1, draws := (s.chipSees l v).2 }.setLine l ⟨.out, v⟩).emit (.set l v)) ∨
    (∃ k i b x n, op = .sample k i ∧ s.data.dir = .inp ∧ (b, x, n) = s.chip.answer s.params s.cmd s.draws ∧
      t = { s with chip := x, draws := n, data := ⟨.inp, b⟩, buf := orBit s.buf k i b }.emit (.get .data b)) ∨
    (∃ T, op = .wait T ∧ t = s.emit (.wait T)) := by
  cases op with
  | dir l d => exact .inl ⟨l, d, rfl, by simpa [perform] using h.symm⟩
  | set l v =>
    simp only [perform] at h
    split at h
    · cases h
    · exact .inr (.inl ⟨l, v, rfl, ‹_›, by simpa using h.symm⟩)
  | sample k i =>
    simp only [perform] at h
    split at h
    · cases h
    · exact .inr (.inr (.inl ⟨k, i, (s.chip.answer s.params s.cmd s.draws).1, (s.chip.answer s.params s.cmd s.draws).2.1, (s.chip.answer s.params s.cmd s.draws).2.2,
        rfl, ‹_›, rfl, by simpa using h.symm⟩))
  | wait T => exact .inr (.inr (.inr ⟨T, rfl, by simpa [perform] using h.symm⟩))

theorem perform_set {s : State} {l : LineId} (h : (s.line l).dir = .out) (v : Bool) :
    perform (.set l v) s =
      .ok (({ s with chip := (s.chipSees l v).1, draws := (s.chipSees l v).2 }.setLine l ⟨.out, v⟩).emit (.set l v)) := by
  simp only [perform, h]

theorem perform_sample {s : State} (h : s.data.dir = .inp) (k i : Nat) :
    perform (.sample k i) s =
      .ok ({ s with
              chip := (s.chip.answer s.params s.cmd s.draws).2.1
              draws := (s.chip.answer s.params s.cmd s.draws).2.2
              data := ⟨.inp, (s.chip.answer s.params s.cmd s.draws).1⟩
              buf := orBit s.buf k i (s.chip.answer s.params s.cmd s.draws).1 }.emit (.get .data (s.chip.answer s.params s.cmd s.draws).1)) := by
  simp only [perform, h]

theorem perform_frame {op : MicroOp} {s t : State} (h : perform op s = .ok t) : EventFrame s t := by
  obtain ⟨l, d, -, rfl⟩ | ⟨l, v, -, -, rfl⟩ | ⟨k, i, b, x, n, -, -, -, rfl⟩ | ⟨T, -, rfl⟩ := perform_ok h
  · cases l <;> constructor <;> rfl
  · cases l <;> constructor <;> rfl
  · constructor <;> rfl
  · constructor <;> rfl

theorem perform_mpc {op : MicroOp} {s t : State} (h : perform op s = .ok t) : t.mpc = s.mpc := by
  obtain ⟨l, d, -, rfl⟩ | ⟨l, v, -, -, rfl⟩ | ⟨k, i, b, x, n, -, -, -, rfl⟩ | ⟨T, -, rfl⟩ := perform_ok h
  · cases l <;> rfl
  · cases l <;> rfl
  · rfl
  · rfl

/-- Each event adds itself to the observation, and touches no chip register but when CE falls. -/
theorem perform_trace {op : MicroOp} {s t : State} (h : perform op s = .ok t) :
    ∃ e : Event, t.trace = e :: s.trace ∧ (e ≠ .set .ce false → t.chip.cr = s.chip.cr) := by
  obtain ⟨l, d, -, rfl⟩ | ⟨l, v, -, -, rfl⟩ | ⟨k, i, b, x, n, -, -, ha, rfl⟩ | ⟨T, -, rfl⟩ := perform_ok h
  · exact ⟨.dir l d, by cases l <;> rfl, fun _ => by cases l <;> rfl⟩
  · refine ⟨.set l v, by cases l <;> rfl, fun hne => ?_⟩
    cases l <;> cases v <;> first | rfl | exact absurd rfl hne | (simp only [State.emit, State.setLine, State.chipSees]; split <;> rfl)
  · refine ⟨.get .data b, rfl, fun _ => ?_⟩
    have hx : x = (s.chip.answer s.params s.cmd s.draws).2.1 := by rw [← ha]
    show x.cr = _
    rw [hx, answer_cr]
  · exact ⟨.wait T, rfl, fun _ => rfl⟩

/-- An event keeps the register space canonical. -/
theorem takeWrite_wf {m : Memory} (hm : m.wf = true) (p : Params) (c : Byte) (b : Vector Byte 8) (n : Nat) : (m.takeWrite p c b n).1.wf = true := by
  unfold Memory.takeWrite
  split
  · split
    · exact hm
    · exact setReg_wf hm _ _
  · split
    · exact setRegs_wf hm _ _
    · exact setRegs_wf hm _ _
  · exact hm
  · exact hm
  · exact hm

theorem chipSees_wf {s : State} (hm : s.chip.cr.wf = true) (l : LineId) (v : Bool) : (s.chipSees l v).1.cr.wf = true := by
  cases l <;> cases v <;> simp only [State.chipSees]
  case ce.false =>
    split
    · exact takeWrite_wf hm _ _ _ _
    · exact hm
  case clk.true => split <;> exact hm
  all_goals exact hm

theorem perform_wf {op : MicroOp} {s t : State} (h : perform op s = .ok t) (hm : s.chip.cr.wf = true) : t.chip.cr.wf = true := by
  obtain ⟨l, d, -, rfl⟩ | ⟨l, v, -, -, rfl⟩ | ⟨k, i, b, x, n, -, -, ha, rfl⟩ | ⟨T, -, rfl⟩ := perform_ok h
  · cases l <;> exact hm
  · cases l <;> exact chipSees_wf hm _ _
  · have hx : x = (s.chip.answer s.params s.cmd s.draws).2.1 := by rw [← ha]
    show x.cr.wf = true
    rw [hx, answer_cr]
    exact hm
  · exact hm

/-- The event list of a transaction under way stays what it is. -/
theorem perform_ops {op : MicroOp} {s t : State} (hop : s.ops[s.mpc]? = some op) (h : perform op s = .ok t) : t.ops = s.ops := by
  have hf := perform_frame h
  cases hd : s.dir with
  | read => simp only [State.ops, hf.cmd, hf.dir, hf.len, hd, transactionOps, dataOps]
  | write =>
    have hb : t.buf = s.buf := by
      obtain ⟨l, d, -, rfl⟩ | ⟨l, v, -, -, rfl⟩ | ⟨k, i, b, x, n, rfl, -, -, rfl⟩ | ⟨T, -, rfl⟩ := perform_ok h
      · cases l <;> rfl
      · cases l <;> rfl
      · have := (placed_of_get hop).1
        simp [placed, MicroOp.shape, hd] at this
      · rfl
    simp only [State.ops, hf.cmd, hf.dir, hf.len, hb]

/-! ## What other callers ask (60_exceptions.md R236, R242) -/

/-- An arriving request changes the list of arrivals, the waiting requests and the replies, nothing else. -/
theorem arrive_frame (s : State) : ∃ as ps rs, s.arrive = { s with arrivals := as, pending := ps, replies := rs } := by
  unfold State.arrive
  split
  · exact ⟨s.arrivals, s.pending, s.replies, rfl⟩
  · exact ⟨_, s.pending, s.replies, rfl⟩
  · split
    · exact ⟨_, s.pending, _, rfl⟩
    · exact ⟨_, _, s.replies, rfl⟩

/-- Nobody asks anything. -/
theorem arrive_nil {s : State} (h : s.arrivals = []) : s.arrive = s := by simp only [State.arrive, h]

theorem arrivalFails_nil {s : State} (h : s.arrivals = []) : s.arrivalFails = false := by simp only [State.arrivalFails, h]

/-- An INIT lacks a line when one of the three cannot be acquired. -/
theorem lacksLine_init (ce clk data : Binding) (b : Bool) (h : HourMode) :
    (Waiting.request (.init ce clk data b h)).lacksLine = true ↔
      ¬(ce.acquirable = true ∧ clk.acquirable = true ∧ data.acquirable = true) := by
  simp only [Waiting.lacksLine, Bool.not_eq_true', ← Bool.not_eq_true, Bool.and_eq_true, and_assoc]

/-- What fails the binding is an INIT, on an Unbound device, with a line that cannot be acquired. -/
theorem arrivalFails_iff {s : State} : s.arrivalFails = true ↔
    s.devState = .unbound ∧ ∃ ce clk data b h as, s.arrivals = some (.request (.init ce clk data b h)) :: as ∧
      ¬(ce.acquirable = true ∧ clk.acquirable = true ∧ data.acquirable = true) := by
  unfold State.arrivalFails
  split
  · rename_i h; simp [h]
  · rename_i h; simp [h]
  · rename_i w as h
    simp only [h, Bool.and_eq_true, beq_iff_eq, List.cons.injEq, Option.some.injEq]
    refine and_congr_right fun _ => ⟨fun hw => ?_, ?_⟩
    · have hw' := hw
      unfold Waiting.lacksLine at hw'
      split at hw'
      · exact ⟨_, _, _, _, _, as, ⟨rfl, rfl⟩, (lacksLine_init _ _ _ _ _).1 hw⟩
      · cases hw'
    · rintro ⟨ce, clk, data, b, m, as, ⟨rfl, -⟩, hl⟩
      exact (lacksLine_init _ _ _ _ _).2 hl

/-- On a bound device no request that arrives fails the binding. -/
theorem arrivalFails_bound {s : State} (h : s.bound = true) : s.arrivalFails = false := by
  by_contra hf
  have hd := (arrivalFails_iff.1 (by simpa using hf)).1
  simp [State.bound, hd] at h

@[simp] theorem arrive_params (s : State) : s.arrive.params = s.params := by obtain ⟨_, _, _, h⟩ := arrive_frame s; rw [h]
@[simp] theorem arrive_phase (s : State) : s.arrive.phase = s.phase := by obtain ⟨_, _, _, h⟩ := arrive_frame s; rw [h]
@[simp] theorem arrive_task (s : State) : s.arrive.task = s.task := by obtain ⟨_, _, _, h⟩ := arrive_frame s; rw [h]
@[simp] theorem arrive_mpc (s : State) : s.arrive.mpc = s.mpc := by obtain ⟨_, _, _, h⟩ := arrive_frame s; rw [h]
@[simp] theorem arrive_dir (s : State) : s.arrive.dir = s.dir := by obtain ⟨_, _, _, h⟩ := arrive_frame s; rw [h]
@[simp] theorem arrive_len (s : State) : s.arrive.len = s.len := by obtain ⟨_, _, _, h⟩ := arrive_frame s; rw [h]
@[simp] theorem arrive_cmd (s : State) : s.arrive.cmd = s.cmd := by obtain ⟨_, _, _, h⟩ := arrive_frame s; rw [h]
@[simp] theorem arrive_ops (s : State) : s.arrive.ops = s.ops := by obtain ⟨_, _, _, h⟩ := arrive_frame s; rw [h]; rfl
@[simp] theorem arrive_chip (s : State) : s.arrive.chip = s.chip := by obtain ⟨_, _, _, h⟩ := arrive_frame s; rw [h]
@[simp] theorem arrive_trace (s : State) : s.arrive.trace = s.trace := by obtain ⟨_, _, _, h⟩ := arrive_frame s; rw [h]
@[simp] theorem arrive_devState (s : State) : s.arrive.devState = s.devState := by obtain ⟨_, _, _, h⟩ := arrive_frame s; rw [h]
@[simp] theorem arrive_wpRecord (s : State) : s.arrive.wpRecord = s.wpRecord := by obtain ⟨_, _, _, h⟩ := arrive_frame s; rw [h]

/-! ## Steps -/

/-- A request in progress goes on, unless an INIT that arrives fails the binding. -/
theorem step_engaged {s : State} (h : s.engaged = true) (hf : s.arrivalFails = false) : step s = toOutcome (turn s.arrive) := by
  simp [step, State.advance, h, hf]

/-- An INIT that arrives, admitted and without a line, fails the binding (60_exceptions.md R236). -/
theorem step_arrivalFails {s : State} (h : s.engaged = true) (hf : s.arrivalFails = true) :
    step s = .next { s with arrivals := s.arrivals.tail }.bindingFails := by
  simp [step, State.advance, h, hf, toOutcome]

/-- When nothing is in progress the request at the head of the queue is served. -/
theorem step_request {s : State} {r : Request} {rest : List Waiting} (h : s.engaged = false) (hq : s.pending = .request r :: rest) :
    step s = toOutcome (serveRequest r { s with pending := rest }) := by
  simp [step, h, hq]

/-- A request asked when nothing is in progress is served. -/
theorem step_ask {s : State} (h : s.engaged = false) (r : Request) : step (s.ask r) = toOutcome (serveRequest r s) :=
  step_request (s := s.ask r) h rfl

/-- A frame that is no instruction is refused. -/
theorem step_badFrame {s : State} {bytes : List Byte} {rest : List Waiting} (h : s.engaged = false)
    (hq : s.pending = .frame bytes :: rest) (hd : ∀ i, decode s.params bytes ≠ some (i, [])) :
    step s = .next (refuseFrame bytes { s with pending := rest }) := by
  simp only [step, h, hq, Bool.false_eq_true, if_false]
  split
  · rename_i i hi
    exact absurd hi (hd i)
  · rfl
  · rfl

/-- The next waiting frame runs. -/
theorem step_frame {s : State} {bytes : List Byte} {rest : List Waiting} {i : Instr} (h : s.engaged = false)
    (hq : s.pending = .frame bytes :: rest) (hd : decode s.params bytes = some (i, [])) : step s = exec i { s with pending := rest } := by
  simp [step, h, hq, hd]

/-- A Busy engine's turn, when the event succeeds. -/
theorem engineTurn_ok {s s1 : State} {op : MicroOp} (hb : s.phase = .busy) (hop : s.ops[s.mpc]? = some op) (h : perform op s = .ok s1) :
    engineTurn s = .ok
      (if s.mpc + 1 = transactionLength s.dir s.len then { s1 with mpc := s.mpc + 1, phase := .idle }.settle
      else { s1 with mpc := s.mpc + 1 }) := by
  have hf := perform_frame h
  have hm := perform_mpc h
  simp only [engineTurn, engineStep, hop, engineOp, h, hf.dir, hf.len, hm]
  split
  · rfl
  · simp [hf.phase, hb]

/-- A Busy step, when the event succeeds. -/
theorem step_busy {s s1 : State} {op : MicroOp} (hb : s.phase = .busy) (hf : s.arrivalFails = false) (hop : s.ops[s.mpc]? = some op)
    (h : perform op s.arrive = .ok s1) :
    step s = .next
      (if s.mpc + 1 = transactionLength s.dir s.len then { s1 with mpc := s.mpc + 1, phase := .idle }.settle
      else { s1 with mpc := s.mpc + 1 }) := by
  have ht : turn s.arrive = engineTurn s.arrive := by simp [turn, hb]
  rw [step_engaged (by simp [State.engaged, hb]) hf, ht, engineTurn_ok (by rw [arrive_phase, hb]) (by rw [arrive_ops, arrive_mpc, hop]) h]
  simp only [arrive_mpc, arrive_dir, arrive_len, toOutcome]

/-- A step of the request in progress between its transactions. -/
theorem step_task {s : State} {k : Task} (hi : s.phase = .idle) (ht : s.task = some k) (hf : s.arrivalFails = false) :
    step s = toOutcome (taskTurn k s.arrive) := by
  rw [step_engaged (by simp [State.engaged, ht]) hf]
  simp [turn, hi, ht]

/-- One step of any machine's run. -/
theorem core_run_next {M : Host.Core} {s t : M.State} (h : M.step s = .next t) (k : Nat) : M.run (k + 1) s = M.run k t := by
  simp only [Host.Core.run, h]

/-- One step of a run. -/
theorem run_next {s t : State} (h : step s = .next t) (k : Nat) :
    Host.Core.run Sys2Proof.core (k + 1) s = Host.Core.run Sys2Proof.core k t := core_run_next (M := Sys2Proof.core) h k

/-- A run goes on where another ended. -/
theorem core_run_add {M : Host.Core} {j : Nat} {s t : M.State} (h : M.run j s = .next t) (k : Nat) : M.run (j + k) s = M.run k t := by
  induction j generalizing s with
  | zero =>
    simp only [Host.Core.run, Host.Outcome.next.injEq] at h
    rw [h, Nat.zero_add]
  | succ j ih =>
    simp only [Host.Core.run] at h
    rw [Nat.succ_add]
    simp only [Host.Core.run]
    split at h
    · exact ih h
    · cases h
    · cases h

theorem run_add {j : Nat} {s t : State} (h : Host.Core.run Sys2Proof.core j s = .next t) (k : Nat) :
    Host.Core.run Sys2Proof.core (j + k) s = Host.Core.run Sys2Proof.core k t := core_run_add (M := Sys2Proof.core) h k

/-- Running what is left of a transaction, one step an event, while nobody else asks anything. -/
theorem run_rest {s t : State} (pre ops : List MicroOp) (hb : s.phase = .busy) (ha : s.arrivals = []) (hops : s.ops = pre ++ ops) (hne : ops ≠ [])
    (hmpc : s.mpc = pre.length) (h : runOps ops s = .ok t) :
    Host.Core.run Sys2Proof.core ops.length s = .next { t with phase := .idle }.settle := by
  have hL : transactionLength s.dir s.len = (pre ++ ops).length := by
    rw [← length_transactionOps s.cmd s.dir s.len s.buf, ← hops]
    rfl
  induction ops generalizing s pre with
  | nil => exact absurd rfl hne
  | cons op ops ih =>
    have hop : s.ops[s.mpc]? = some op := by rw [hops, hmpc]; simp
    simp only [runOps, engineOp] at h
    cases hp : perform op s with
    | error f => simp [hp] at h
    | ok s1 =>
      rw [hp] at h
      have hf := perform_frame hp
      have hm := perform_mpc hp
      have hstep := step_busy hb (arrivalFails_nil ha) hop (by rw [arrive_nil ha]; exact hp)
      rw [hL] at hstep
      simp only at h
      cases ops with
      | nil =>
        rw [if_pos (by simp [hmpc])] at hstep
        simp only [runOps, Except.ok.injEq] at h
        rw [List.length_cons, run_next hstep, ← h, hm]
        rfl
      | cons op' ops' =>
        rw [if_neg (by simp [hmpc])] at hstep
        rw [List.length_cons, run_next hstep]
        rw [hm] at h
        have ho : ({ s1 with mpc := s.mpc + 1 } : State).ops = (pre ++ [op]) ++ (op' :: ops') := by
          have := perform_ops hop hp
          simp only [State.ops] at this hops ⊢
          rw [this, hops]
          simp
        refine ih (s := { s1 with mpc := s.mpc + 1 }) (pre ++ [op]) ?_ ?_ ho (by simp) (by simp [hmpc]) h ?_
        · simp [hf.phase, hb]
        · simp [hf.arrivals, ha]
        · show transactionLength s1.dir s1.len = _
          rw [hf.dir, hf.len, hL]
          simp

/-- A whole transaction is its engine steps. -/
theorem run_accepted {c : Byte} {d : Direction} {bytes : List Byte} {s t : State} (ha : s.arrivals = []) (h : transact c d bytes s = .ok t) :
    Host.Core.run Sys2Proof.core (transactionLength d (dataLen s.params c)) (accept c d bytes s) = .next t.settle := by
  unfold transact at h
  cases hr : runOps (accept c d bytes s).ops (accept c d bytes s) with
  | error f => simp [hr] at h
  | ok s1 =>
    simp only [hr, Except.ok.injEq] at h
    have hlen : (accept c d bytes s).ops.length = transactionLength d (dataLen s.params c) := length_transactionOps _ _ _ _
    have hne : (accept c d bytes s).ops ≠ [] := by
      intro h0
      rw [h0] at hlen
      cases d <;> simp only [transactionLength, List.length_nil] at hlen <;> omega
    have hrun := run_rest (s := accept c d bytes s) [] (accept c d bytes s).ops rfl ha rfl hne rfl hr
    rw [← hlen, ← h]
    exact hrun

/-- A transaction that no facade request asked for is delivered to its caller. -/
theorem settle_none {s : State} (h : s.task = none) : s.settle = s.deliver := by simp only [State.settle, h]

theorem settle_some {s : State} {k : Task} (h : s.task = some k) : s.settle = k.after s := by simp only [State.settle, h]

end Sys2Proof.Machine
end

