-- ==== Sys2Proof/Laws/Facade.lean ====
section
/-! SUPPORT. What the composites of the facade run: sequences of whole transactions, one event a step, with nothing of another request between them
(42_rtc_facade.md R202 to R206, R211). -/
namespace Sys2Proof.Machine

open Sys2Proof

/-- `t` follows `s` by whole transactions with the events `es`, in order, and nothing else; the request in progress apart. -/
structure Ran (s t : State) (es : List Event) : Prop where
  events : t.trace = es.reverse ++ s.trace
  control : SameControl { s with task := t.task } t
  replies : t.replies = s.replies
  idle : t.linesIdle = true
  phase : t.phase = .idle
  wf : s.chip.cr.wf = true → t.chip.cr.wf = true
  oracle : s.chip.oracle = .reference → t.chip.oracle = .reference

theorem SameControl.setTask {s t : State} (h : SameControl { s with task := t.task } t) (x : Option Task) :
    SameControl { s with task := x } { t with task := x } := by
  obtain ⟨a, b, c, d, e, f, g, i, j, -, l⟩ := h
  exact ⟨a, b, c, d, e, f, g, i, j, rfl, l⟩

theorem Ran.trans {s t u : State} {es fs : List Event} (h : Ran s t es) (h' : Ran t u fs) : Ran s u (es ++ fs) :=
  ⟨by rw [h'.events, h.events]; simp, (h.control.setTask u.task).trans h'.control, h'.replies.trans h.replies, h'.idle, h'.phase,
    fun hm => h'.wf (h.wf hm), fun ho => h'.oracle (h.oracle ho)⟩

theorem Ran.params {s t : State} {es : List Event} (h : Ran s t es) : t.params = s.params := h.control.2.2.2.2.2.2.2.2.1

theorem Ran.arrivals {s t : State} {es : List Event} (h : Ran s t es) : t.arrivals = s.arrivals := h.control.2.2.2.2.2.2.2.2.2.2

theorem Ran.outputs {s t : State} {es : List Event} (h : Ran s t es) : t.outputs = true := linesIdle_outputs h.idle

/-- Which request is in progress is no part of what ran. -/
theorem Ran.setTask {s t : State} {es : List Event} (h : Ran s t es) (x y : Option Task) :
    Ran { s with task := x } { t with task := y } es :=
  ⟨h.events, h.control.setTask y, h.replies, h.idle, h.phase, h.wf, h.oracle⟩

/-! ## Command bytes (40_transfer_engine.md R104, R117) -/

/-- Each transaction shows its command byte. -/
theorem commandsOf_append (c : Byte) (d : Direction) (n : DataLen) (bytes : List Byte) (ss : List Bool) (es : List Event) :
    commandsOf (transactionEvents c d n bytes ss ++ es) = c :: commandsOf es := commandsFrom_transaction _ _ _ _ _ _ _ _ _

theorem commandsOf_transaction (c : Byte) (d : Direction) (n : DataLen) (bytes : List Byte) (ss : List Bool) :
    commandsOf (transactionEvents c d n bytes ss) = [c] := by
  have h := commandsOf_append c d n bytes ss []
  rwa [List.append_nil] at h

theorem commandsOf_flatMap {α : Type} (xs : List α) (c : α → Byte) (d : Direction) (n : DataLen) (bytes : α → List Byte) (ss : α → List Bool) :
    commandsOf (xs.flatMap fun x => transactionEvents (c x) d n (bytes x) (ss x)) = xs.map c := by
  induction xs with
  | nil => rfl
  | cons x xs ih => rw [List.flatMap_cons, commandsOf_append, ih, List.map_cons]

/-! ## One transaction -/

/-- The reference oracle survives its samples. -/
theorem sampledAll_oracle {s : State} (h : s.chip.oracle = .reference) (ps : List (Nat × Nat)) :
    (s.sampledAll ps).chip.oracle = .reference := by
  induction ps generalizing s with
  | nil => exact h
  | cons p ps ih =>
    refine ih (s := s.sampled p.1 p.2) ?_
    cases hc : s.ce.level <;> simp [State.sampled, Chip.answer, hc, h]

theorem afterRead_oracle {s : State} (h : s.chip.oracle = .reference) (c : Byte) : (s.afterRead c).chip.oracle = .reference :=
  sampledAll_oracle (s := s.readStart c) (by show (s.chip.tick s.draws).1.oracle = _; rw [tick_oracle, h]) _

theorem ran_read (s : State) (c : Byte) :
    Ran s (s.afterRead c) (transactionEvents c .read (dataLen s.params c) [] (s.readSamples c)) :=
  ⟨afterRead_events s c, by rw [afterRead_task]; exact afterRead_frame s c, afterRead_replies s c, afterRead_linesIdle s c, afterRead_phase s c,
    fun hm => by rw [afterRead_cr]; exact tick_wf hm _, fun ho => afterRead_oracle ho c⟩

theorem ran_write (s : State) (c : Byte) (bytes : List Byte) :
    Ran s (s.afterWrite c bytes) (transactionEvents c .write (dataLen s.params c) bytes []) :=
  ⟨afterWrite_events s c bytes, by rw [afterWrite_task]; exact afterWrite_frame s c bytes, afterWrite_replies s c bytes,
    afterWrite_linesIdle s c bytes, afterWrite_phase s c bytes, fun hm => by rw [afterWrite_cr]; exact takeWrite_wf (tick_wf hm _) _ _ _ _,
    fun ho => by rw [afterWrite_oracle, ho]⟩

/-- A read of the request in progress, run to its end. -/
theorem run_start_read {s : State} {k : Task} {c : Byte} (ho : s.outputs = true) (ha : s.arrivals = [])
    (hk : k.transaction s.params = some (c, .read, [])) :
    Host.Core.run Sys2Proof.core (transactionLength .read (dataLen s.params c)) (s.start k) =
      .next (k.after (({ s with task := some k } : State).afterRead c)) := by
  have h := run_accepted (s := { s with task := some k }) ha (transact_read (s := { s with task := some k }) ho c)
  rw [settle_some (by rw [afterRead_task])] at h
  rw [← h]
  simp only [State.start, State.proceed, hk]

/-- A write of the request in progress, run to its end. -/
theorem run_start_write {s : State} {k : Task} {c : Byte} {bytes : List Byte} (ho : s.outputs = true) (ha : s.arrivals = [])
    (hk : k.transaction s.params = some (c, .write, bytes)) :
    Host.Core.run Sys2Proof.core (transactionLength .write (dataLen s.params c)) (s.start k) =
      .next (k.after (({ s with task := some k } : State).afterWrite c bytes)) := by
  have h := run_accepted (s := { s with task := some k }) ha (transact_write (s := { s with task := some k }) ho c bytes)
  rw [settle_some (by rw [afterWrite_task])] at h
  rw [← h]
  simp only [State.start, State.proceed, hk]

/-- Between two transactions of a request: the next one is accepted. -/
theorem step_next {s : State} {k : Task} (hi : s.phase = .idle) (ha : s.arrivals = []) (hk : ∀ op rest, k ≠ .lines op rest) :
    step { s with task := some k } = .next (s.start k) := by
  rw [step_task (s := { s with task := some k }) hi rfl (arrivalFails_nil (s := { s with task := some k }) ha), arrive_nil (s := { s with task := some k }) ha]
  cases k with
  | lines op rest => exact absurd rfl (hk op rest)
  | readWp init => rfl
  | clearWp init => rfl
  | gather got r rest => rfl
  | gatherBurst => rfl
  | spread r v rest => rfl
  | spreadBurst bytes => rfl

/-! ## A chip whose registers nothing else changes (20_memory.md R60, R61) -/

/-- A read of the reference chip leaves its registers alone. -/
theorem afterRead_reference_cr {s : State} (ho : s.chip.oracle = .reference) (c : Byte) : (s.afterRead c).chip.cr = s.chip.cr := by
  rw [afterRead_cr, tick_reference ho]

/-- A discrete read of the reference chip. -/
theorem afterRead_byte {s : State} (hp : s.params.wf = true) (ho : s.chip.oracle = .reference) (r : Reg) :
    bufByte (s.afterRead (cmdRead s.params (r.field s.params))).buf 0 = s.chip.cr.reg r := by
  rw [afterRead_reference ho _ (by simp [hp]), response, decodeCommand_cmdRead hp]
  rfl

/-- A burst read of the reference chip. -/
theorem afterRead_burst {s : State} (hp : s.params.wf = true) (ho : s.chip.oracle = .reference) :
    bufBytes (s.afterRead (burstReadAddr s.params)).buf .eight = Reg.all.map s.chip.cr.reg := by
  have h := fun k hk => afterRead_reference ho (burstReadAddr s.params) (k := k) hk
  simp only [dataLen_burstRead, count_eight, response, decodeCommand_burstRead hp] at h
  unfold bufBytes
  refine List.ext_getElem (by simp [Reg.all]) fun k h1 h2 => ?_
  simp only [List.length_map, List.length_range, count_eight] at h1
  simp only [List.getElem_map, List.getElem_range, h k h1, List.getD_eq_getElem?_getD, List.getElem?_eq_getElem h2, Option.getD_some]

/-! ## One discrete transaction of the request in progress -/

theorem run_read_one {s : State} {k : Task} (r : Reg) (ho : s.outputs = true) (ha : s.arrivals = []) (hp : s.params.wf = true)
    (hk : k.transaction s.params = some (cmdRead s.params (r.field s.params), .read, [])) :
    ∃ v ss, Host.Core.run Sys2Proof.core 90 (s.start k) = .next (k.after v) ∧ ss.length = 8 ∧ bufByte v.buf 0 = byteOf ss ∧
      Ran s v (readEvents s.params r ss) ∧ (s.chip.oracle = .reference → v.chip.cr = s.chip.cr ∧ bufByte v.buf 0 = s.chip.cr.reg r) := by
  have h := run_start_read ho ha hk
  have h1 := ran_read { s with task := some k } (cmdRead s.params (r.field s.params))
  have h2 := length_readSamples { s with task := some k } (cmdRead s.params (r.field s.params))
  have h3 := afterRead_bufByte { s with task := some k } (cmdRead s.params (r.field s.params)) 0
  simp only [dataLen_cmdRead hp, count_one, Nat.mul_one, Nat.zero_lt_one, if_true, Nat.mul_zero, List.drop_zero] at h h1 h2 h3
  exact ⟨_, _, h, h2, h3, h1.setTask s.task _, fun hr =>
    ⟨afterRead_reference_cr (s := { s with task := some k }) hr _, afterRead_byte (s := { s with task := some k }) hp hr r⟩⟩

theorem run_write_one {s : State} {k : Task} (r : Reg) (b : Byte) (ho : s.outputs = true) (ha : s.arrivals = []) (hp : s.params.wf = true)
    (hk : k.transaction s.params = some (cmdWrite s.params (r.field s.params), .write, [b])) :
    ∃ v, Host.Core.run Sys2Proof.core 105 (s.start k) = .next (k.after v) ∧ Ran s v (writeEvents s.params r b) ∧
      (s.chip.oracle = .reference → s.chip.cr.guarded s.params = false ∨ r = .wp → v.chip.cr = s.chip.cr.setReg r b) := by
  have h := run_start_write ho ha hk
  have h1 := ran_write { s with task := some k } (cmdWrite s.params (r.field s.params)) [b]
  simp only [dataLen_cmdWrite hp] at h h1
  refine ⟨_, h, h1.setTask s.task _, fun hr hg => ?_⟩
  rw [afterWrite_reg (s := { s with task := some k }) hp r b, tick_reference (c := ({ s with task := some k } : State).chip) hr]
  exact if_neg (by rcases hg with hg | hg <;> simp [hg])

/-! ## READTIME (42_rtc_facade.md R203, R204) -/

/-- Discrete reads one after the other: 90 events each, and a step between two to accept the next. -/
theorem run_gather (rest : List Reg) {s : State} (got : List Byte) (r : Reg) (ho : s.outputs = true) (ha : s.arrivals = [])
    (hp : s.params.wf = true) :
    ∃ sss u, Host.Core.run Sys2Proof.core (90 + 91 * rest.length) (s.start (.gather got r rest)) =
        .next (u.timeRead (got ++ sss.map byteOf)) ∧
      sss.length = (r :: rest).length ∧ (∀ ss ∈ sss, ss.length = 8) ∧
      Ran s u (((r :: rest).zip sss).flatMap fun q => readEvents s.params q.1 q.2) ∧
      (s.chip.oracle = .reference → u.chip.cr = s.chip.cr ∧ sss.map byteOf = (r :: rest).map s.chip.cr.reg) := by
  induction rest generalizing s got r with
  | nil =>
    obtain ⟨v, ss, h, hl, hb, hran, href⟩ := run_read_one (k := .gather got r []) r ho ha hp rfl
    rw [Task.after, hb] at h
    refine ⟨[ss], v, h, rfl, by simpa using hl, ?_, fun hr => ⟨(href hr).1, ?_⟩⟩
    · simpa using hran
    · simp [← hb, (href hr).2]
  | cons q rest ih =>
    obtain ⟨v, ss, h, hl, hb, hran, href⟩ := run_read_one (k := .gather got r (q :: rest)) r ho ha hp rfl
    have h2 := step_next (k := .gather (got ++ [bufByte v.buf 0]) q rest) hran.phase (hran.arrivals.trans ha) (by simp)
    obtain ⟨sss, u, h3, hl3, hm3, h4, h5⟩ :=
      ih (got ++ [bufByte v.buf 0]) q hran.outputs (hran.arrivals.trans ha) (by rw [hran.params]; exact hp)
    rw [hran.params] at h4
    refine ⟨ss :: sss, u, ?_, by simp [hl3], ?_, hran.trans h4, fun hr => ?_⟩
    · rw [List.length_cons, show 90 + 91 * (rest.length + 1) = 90 + (90 + 91 * rest.length + 1) by omega, run_add h, Task.after,
        run_next h2, h3, List.append_assoc, hb]
      rfl
    · intro x hx
      rcases List.mem_cons.1 hx with rfl | hx
      · exact hl
      · exact hm3 x hx
    · obtain ⟨h6, h7⟩ := h5 (hran.oracle hr)
      rw [(href hr).1] at h6 h7
      exact ⟨h6, by rw [List.map_cons, h7, ← hb, (href hr).2]; rfl⟩

/-- How many steps READTIME takes after the one that starts it. -/
def State.readTimeSteps (s : State) : Nat := if s.burst then 314 else 636

/-- The events of a READTIME that samples `sss`, one list a transaction (42_rtc_facade.md R203, R204). -/
def readTimeEvents (p : Params) (burst : Bool) (sss : List (List Bool)) : List Event :=
  if burst then sss.flatMap (transactionEvents (burstReadAddr p) .read .eight [])
  else (Reg.calendar.zip sss).flatMap fun q => readEvents p q.1 q.2

theorem run_readTime {s : State} (hs : s.canTransact = true) (ha : s.arrivals = []) (hd : s.devState = .ready) :
    ∃ sss bs u, Host.Core.run Sys2Proof.core (1 + s.readTimeSteps) (s.ask .readTime) = .next (u.timeRead bs) ∧
      (s.burst = true → sss.length = 1 ∧ (∀ ss ∈ sss, ss.length = 64) ∧ bs = sss.flatMap (bytesOfSamples 8)) ∧
      (s.burst = false → sss.length = 7 ∧ (∀ ss ∈ sss, ss.length = 8) ∧ bs = sss.map byteOf) ∧
      Ran s u (readTimeEvents s.params s.burst sss) ∧
      (s.chip.oracle = .reference → u.chip.cr = s.chip.cr ∧ RawTime.ofList bs = s.chip.cr.calendar) := by
  obtain ⟨-, he, ho, hp⟩ := canTransact_iff.1 hs
  have h0 : step (s.ask .readTime) =
      .next (s.start (if s.burst then .gatherBurst else .gather [] .sec [.min, .hour, .date, .month, .wday, .year])) := by
    rw [step_ask he]
    simp [serveRequest, serveReadTime, hd, he]
  rw [Nat.add_comm, run_next h0]
  cases hb : s.burst with
  | true =>
    have h := run_start_read (k := .gatherBurst) ho ha rfl
    have h1 := ran_read { s with task := some .gatherBurst } (burstReadAddr s.params)
    have h2 := length_readSamples { s with task := some .gatherBurst } (burstReadAddr s.params)
    have h3 := afterRead_bytes { s with task := some .gatherBurst } (burstReadAddr s.params)
    simp only [dataLen_burstRead, count_eight] at h h1 h2 h3
    simp only [State.readTimeSteps, hb, if_true]
    refine ⟨[_], _, _, h, fun _ => ⟨rfl, by simpa using h2, by simpa using h3⟩, nofun, ?_,
      fun hr => ⟨afterRead_reference_cr (s := { s with task := some .gatherBurst }) hr _, by
        rw [afterRead_burst (s := { s with task := some .gatherBurst }) hp hr]; rfl⟩⟩
    rw [readTimeEvents, if_pos rfl, List.flatMap_singleton]
    exact h1.setTask s.task _
  | false =>
    obtain ⟨sss, u, h1, h2, h3, h4, h5⟩ := run_gather [.min, .hour, .date, .month, .wday, .year] [] .sec ho ha hp
    simp only [List.length_cons, List.length_nil, Nat.reduceAdd, Nat.reduceMul] at h1 h2
    simp only [State.readTimeSteps, hb, Bool.false_eq_true, if_false]
    refine ⟨sss, sss.map byteOf, u, h1, nofun, fun _ => ⟨h2, h3, rfl⟩, h4, fun hr => ⟨(h5 hr).1, by rw [(h5 hr).2]; rfl⟩⟩

/-! ## SETTIME (42_rtc_facade.md R205, R206) -/

/-- Discrete writes one after the other: 105 events each, and a step between two to accept the next. -/
theorem run_spread (rest : List (Reg × Byte)) {s : State} (r : Reg) (b : Byte) (ho : s.outputs = true) (ha : s.arrivals = [])
    (hp : s.params.wf = true) :
    ∃ u, Host.Core.run Sys2Proof.core (105 + 106 * rest.length) (s.start (.spread r b rest)) = .next (u.finish .none) ∧
      Ran s u (((r, b) :: rest).flatMap fun q => writeEvents s.params q.1 q.2) ∧
      (s.chip.oracle = .reference → s.chip.cr.wf = true → s.chip.cr.guarded s.params = false → (∀ q ∈ (r, b) :: rest, q.1 ≠ .wp) →
        u.chip.cr = ((r, b) :: rest).foldl (fun m q => m.setReg q.1 q.2) s.chip.cr) := by
  induction rest generalizing s r b with
  | nil =>
    obtain ⟨v, h, hran, href⟩ := run_write_one (k := .spread r b []) r b ho ha hp rfl
    exact ⟨v, h, by simpa using hran, fun hr _ hg _ => href hr (.inl hg)⟩
  | cons q rest ih =>
    obtain ⟨q, w⟩ := q
    obtain ⟨v, h, hran, href⟩ := run_write_one (k := .spread r b ((q, w) :: rest)) r b ho ha hp rfl
    have h2 := step_next (k := .spread q w rest) hran.phase (hran.arrivals.trans ha) (by simp)
    obtain ⟨u, h3, h4, h5⟩ := ih q w hran.outputs (hran.arrivals.trans ha) (by rw [hran.params]; exact hp)
    rw [hran.params] at h4 h5
    refine ⟨u, ?_, hran.trans h4, fun hr hm hg hw => ?_⟩
    · rw [List.length_cons, show 105 + 106 * (rest.length + 1) = 105 + (105 + 106 * rest.length + 1) by omega, run_add h, Task.after,
        run_next h2, h3]
    · rw [href hr (.inl hg)] at h5
      rw [h5 (hran.oracle hr) (setReg_wf hm _ _) _ fun p hp => hw p (List.mem_cons_of_mem _ hp)]
      · rfl
      · rw [Memory.guarded, reg_setReg hm, if_neg (Ne.symm (hw _ List.mem_cons_self))]
        exact hg

/-- The registers after writing all seven calendar bytes, one register at a time. -/
theorem foldl_calendar {m : Memory} (hm : m.wf = true) (raw : RawTime) :
    ((Reg.calendar.zip raw.toList).foldl (fun m p => m.setReg p.1 p.2) m).calendar = raw ∧
      ((Reg.calendar.zip raw.toList).foldl (fun m p => m.setReg p.1 p.2) m).reg .wp = m.reg .wp := by
  have h1 := setReg_wf hm .sec raw.sec
  have h2 := setReg_wf h1 .min raw.min
  have h3 := setReg_wf h2 .hour raw.hour
  have h4 := setReg_wf h3 .date raw.date
  have h5 := setReg_wf h4 .month raw.month
  have h6 := setReg_wf h5 .wday raw.wday
  simp only [Reg.calendar, RawTime.toList, List.zip_cons_cons, List.zip_nil_right, List.foldl_cons, List.foldl_nil, Memory.calendar,
    reg_setReg h6, reg_setReg h5, reg_setReg h4, reg_setReg h3, reg_setReg h2, reg_setReg h1, reg_setReg hm, reduceCtorEq, if_true,
    if_false, and_self]

/-- How many steps SETTIME takes after the one that starts it. -/
def State.setTimeSteps (s : State) : Nat := if s.burst then 441 else 741

/-- The events of a SETTIME that writes `raw` (42_rtc_facade.md R205, R206). -/
def setTimeEvents (p : Params) (burst : Bool) (raw : RawTime) : List Event :=
  if burst then transactionEvents (burstWriteAddr p) .write .eight (encodedBytes true raw) []
  else (Reg.calendar.zip raw.toList).flatMap fun q => writeEvents p q.1 q.2

theorem run_setTime {s : State} (hs : s.canTransact = true) (ha : s.arrivals = []) (hd : s.devState = .ready) {τ : WallClock}
    (hv : τ.valid = true) {raw : RawTime} (he' : encodeTime s.hours τ = some raw) :
    ∃ u, Host.Core.run Sys2Proof.core (1 + s.setTimeSteps) (s.ask (.setTime τ)) = .next (u.finish .none) ∧
      Ran s u (setTimeEvents s.params s.burst raw) ∧
      (s.chip.oracle = .reference → s.chip.cr.wf = true → s.chip.cr.guarded s.params = false →
        u.chip.cr.calendar = raw ∧ u.chip.cr.reg .wp = if s.burst = true then 0x00#8 else s.chip.cr.reg .wp) := by
  obtain ⟨-, he, ho, hp⟩ := canTransact_iff.1 hs
  have h0 : step (s.ask (.setTime τ)) = .next (s.start (raw.writes s.burst)) := by
    rw [step_ask he]
    simp [serveRequest, serveSetTime, hd, he, hv, he']
  rw [Nat.add_comm, run_next h0]
  cases hb : s.burst with
  | true =>
    have h := run_start_write (k := .spreadBurst (encodedBytes true raw)) ho ha rfl
    have h1 := ran_write { s with task := some (.spreadBurst (encodedBytes true raw)) } (burstWriteAddr s.params) (encodedBytes true raw)
    simp only [dataLen_burstWrite] at h h1
    simp only [State.setTimeSteps, hb, if_true, RawTime.writes, setTimeEvents]
    refine ⟨_, h, h1.setTask s.task _, fun hr hm hg => ?_⟩
    have hcr := afterWrite_burst (s := { s with task := some (.spreadBurst (encodedBytes true raw)) }) hp (encodedBytes true raw)
    rw [tick_reference (c := ({ s with task := some (.spreadBurst (encodedBytes true raw)) } : State).chip) hr] at hcr
    simp only [hg, Bool.false_eq_true, if_false] at hcr
    rw [hcr]
    constructor
    · simp only [Memory.calendar, reg_setRegs hm, mem_all, if_true, bufByte_latch]
      rfl
    · rw [reg_setRegs hm, if_pos (mem_all _), bufByte_latch]
      rfl
  | false =>
    obtain ⟨u, h1, h2, h3⟩ := run_spread [(.min, raw.min), (.hour, raw.hour), (.date, raw.date), (.month, raw.month), (.wday, raw.wday),
      (.year, raw.year)] .sec raw.sec ho ha hp
    simp only [List.length_cons, List.length_nil, Nat.reduceAdd, Nat.reduceMul] at h1
    simp only [State.setTimeSteps, hb, Bool.false_eq_true, if_false, RawTime.writes]
    refine ⟨u, h1, h2, fun hr hm hg => ?_⟩
    rw [h3 hr hm hg (by simp)]
    exact foldl_calendar hm raw

/-! ## Write-protect clear (41_calendar_codec.md R174) -/

/-- The events of a write-protect clear whose read samples `ss`. -/
def clearEvents (p : Params) (ss : List Bool) : List Event :=
  readEvents p .wp ss ++ if guardSet p (byteOf ss) = true then writeEvents p .wp 0x00#8 else []

/-- The record of a write-protect clear whose read samples `ss` (10_state.md R34). -/
def clearRecord (p : Params) (ss : List Bool) : WpRecord := if guardSet p (byteOf ss) = true then .wasSet else .wasClear

/-- How many steps a write-protect clear takes whose read samples `ss`, from the acceptance of the read on. -/
def clearSteps (p : Params) (ss : List Bool) : Nat := if guardSet p (byteOf ss) = true then 196 else 90

/-- What the write-protect clear does to the registers of the reference chip. -/
def ClearsGuard (s u : State) (w : WpRecord) : Prop :=
  s.chip.oracle = .reference →
    (s.chip.cr.guarded s.params = true → w = .wasSet ∧ u.chip.cr = s.chip.cr.setReg .wp 0x00#8) ∧
      (s.chip.cr.guarded s.params = false → w = .wasClear ∧ u.chip.cr = s.chip.cr)

/-- The write-protect clear run to its end, CLRWP's or INIT's, whatever the oracle. -/
theorem run_clear {s : State} (init : Bool) (ho : s.outputs = true) (ha : s.arrivals = []) (hp : s.params.wf = true) :
    ∃ u ss, ss.length = 8 ∧
      Host.Core.run Sys2Proof.core (clearSteps s.params ss) (s.start (.readWp init)) = .next (u.cleared (clearRecord s.params ss) init) ∧
      Ran s u (clearEvents s.params ss) ∧ ClearsGuard s u (clearRecord s.params ss) := by
  obtain ⟨v, ss, h, hl, hb, hran, href⟩ := run_read_one (k := .readWp init) .wp ho ha hp rfl
  have hgv : guardSet v.params (bufByte v.buf 0) = guardSet s.params (byteOf ss) := by rw [hran.params, hb]
  simp only [Task.after, hgv] at h
  have hgd : s.chip.oracle = .reference → s.chip.cr.guarded s.params = guardSet s.params (byteOf ss) := fun hr => by
    rw [Memory.guarded, ← (href hr).2, hb]
  cases hg : guardSet s.params (byteOf ss) with
  | false =>
    rw [hg] at h
    refine ⟨v, ss, hl, ?_, ?_, fun hr => ⟨fun hg' => ?_, fun _ => ⟨?_, (href hr).1⟩⟩⟩
    · simpa [clearSteps, clearRecord, hg] using h
    · simpa [clearEvents, hg] using hran
    · rw [hgd hr, hg] at hg'
      cases hg'
    · simp [clearRecord, hg]
  | true =>
    rw [hg, if_pos rfl] at h
    have h2 := step_next (k := .clearWp init) hran.phase (hran.arrivals.trans ha) (by simp)
    obtain ⟨u, h3, hran2, href2⟩ := run_write_one (s := v) (k := .clearWp init) .wp 0x00#8 hran.outputs (hran.arrivals.trans ha)
      (by rw [hran.params]; exact hp) rfl
    rw [hran.params] at hran2
    refine ⟨u, ss, hl, ?_, ?_, fun hr => ⟨fun _ => ⟨?_, ?_⟩, fun hg' => ?_⟩⟩
    · simp only [clearSteps, clearRecord, hg, if_true]
      rw [show 196 = 90 + (105 + 1) by rfl, run_add h, run_next h2, h3]
      rfl
    · simpa [clearEvents, hg] using hran.trans hran2
    · simp [clearRecord, hg]
    · rw [href2 (hran.oracle hr) (.inr rfl), (href hr).1]
    · rw [hgd hr, hg] at hg'
      cases hg'

/-! ## CLRWP and INIT -/

theorem run_clrWp {s : State} (hs : s.canTransact = true) (ha : s.arrivals = []) :
    ∃ u ss, ss.length = 8 ∧
      Host.Core.run Sys2Proof.core (1 + clearSteps s.params ss) (s.ask .clrWp) = .next (u.cleared (clearRecord s.params ss) false) ∧
      Ran s u (clearEvents s.params ss) ∧ ClearsGuard s u (clearRecord s.params ss) := by
  obtain ⟨hb, he, ho, hp⟩ := canTransact_iff.1 hs
  have h0 : step (s.ask .clrWp) = .next (s.start (.readWp false)) := by
    rw [step_ask he]
    simp [serveRequest, serveClrWp, hb, he]
  obtain ⟨u, ss, hl, h, h1, h2⟩ := run_clear false ho ha hp
  exact ⟨u, ss, hl, by rw [Nat.add_comm, run_next h0, h], h1, h2⟩

/-- The block after INIT's six idle-setting events, the lines idle (42_rtc_facade.md R202). -/
def State.linesSet (s : State) : State :=
  { s with
    ce := ⟨.out, false⟩
    clk := ⟨.out, false⟩
    data := ⟨.out, false⟩
    phase := .idle
    devState := .initialising
    task := some (.readWp true)
    chip := { s.chip with bitPos := 0 }
    trace := (eventsOf initOps []).reverse ++ s.trace }

theorem run_lines {s : State} (hi : s.phase = .idle) (ha : s.arrivals = []) :
    Host.Core.run Sys2Proof.core 6 (s.linesLeft initOps) = .next s.linesSet := by
  obtain ⟨_, ⟨_, cl⟩, ⟨_, _⟩, ⟨_, _⟩, ph⟩ := s
  simp only at hi ha
  subst hi ha
  cases cl <;> rfl

/-- INIT of an Unbound device whose lines can be acquired, run to its end. -/
theorem run_init {ce clk data : Binding} (burst : Bool) (m : HourMode) {s : State} (he : s.engaged = false) (hd : s.devState = .unbound)
    (ha : s.arrivals = []) (hp : s.params.wf = true) (h1 : ce.acquirable = true) (h2 : clk.acquirable = true) (h3 : data.acquirable = true) :
    ∃ u ss, ss.length = 8 ∧
      Host.Core.run Sys2Proof.core (1 + 6 + 1 + clearSteps s.params ss) (s.ask (.init ce clk data burst m)) =
        .next (u.cleared (clearRecord s.params ss) true) ∧
      Ran (s.latchInit ce clk data burst m).linesSet u (clearEvents s.params ss) ∧ ClearsGuard s u (clearRecord s.params ss) := by
  have h0 : step (s.ask (.init ce clk data burst m)) = .next ((s.latchInit ce clk data burst m).linesLeft initOps) := by
    rw [step_ask he]
    simp [serveRequest, serveInit, hd, he, h1, h2, h3]
  have h4 := run_lines (s := s.latchInit ce clk data burst m) (engaged_idle he) ha
  have h5 : step (s.latchInit ce clk data burst m).linesSet = .next ((s.latchInit ce clk data burst m).linesSet.start (.readWp true)) :=
    step_next (s := (s.latchInit ce clk data burst m).linesSet) (k := .readWp true) rfl ha (by simp)
  obtain ⟨u, ss, hl, h, h6, h7⟩ := run_clear (s := (s.latchInit ce clk data burst m).linesSet) true rfl ha hp
  refine ⟨u, ss, hl, ?_, h6, h7⟩
  rw [show 1 + 6 + 1 + clearSteps s.params ss = 6 + (clearSteps s.params ss + 1) + 1 by omega, run_next h0, run_add h4, run_next h5]
  exact h

end Sys2Proof.Machine
end

