-- ==== Sys2Proof/Laws/Invariant.lean ====
section
/-! SUPPORT. The invariant of Safety.lean under events, along a transaction, under outcomes and under the moves of a facade request. -/
namespace Sys2Proof.Machine

open Sys2Proof

/-! ## The invariant where no transaction is under way -/

/-- The buffer, the chip's timekeeping, the waiting requests, the observation and the draws are no part of the invariant. -/
theorem BusyInv.update {s : State} (h : BusyInv s) (b : Vector Byte 8) (x : Chip) (ps : List Waiting) (as : List (Option Waiting))
    (es : List Event) (rs : List Reply) (n : Nat) :
    BusyInv { s with buf := b, chip := x, pending := ps, arrivals := as, trace := es, replies := rs, draws := n } :=
  ⟨h.bound, h.command, h.direction, h.length, h.mpc_lt, h.outputs, h.data_dir, h.ce_level, h.clk_low, h.task⟩

theorem InitLines.update {k : Nat} {s : State} (h : InitLines k s) (b : Vector Byte 8) (x : Chip) (ps : List Waiting)
    (as : List (Option Waiting)) (es : List Event) (rs : List Reply) (n : Nat) :
    InitLines k { s with buf := b, chip := x, pending := ps, arrivals := as, trace := es, replies := rs, draws := n } :=
  ⟨h.ce_dir, h.ce_low, h.clk_dir, h.clk_low, h.data_dir⟩

theorem Inv.update {s : State} (h : Inv s) (b : Vector Byte 8) {x : Chip} (hx : x.cr.wf = true) (ps : List Waiting)
    (as : List (Option Waiting)) (es : List Event) (rs : List Reply) (n : Nat) :
    Inv { s with buf := b, chip := x, pending := ps, arrivals := as, trace := es, replies := rs, draws := n } :=
  ⟨h.params, hx, h.idle, fun hb => (h.busy hb).update b x ps as es rs n,
    fun op rest ht => let ⟨k, hk, hl⟩ := h.starting op rest ht; ⟨k, hk, hl.update b x ps as es rs n⟩,
    h.task, h.initialising, h.latched, h.unlatched, h.record⟩

theorem Inv.reply {s : State} (h : Inv s) (r : Reply) : Inv (s.reply r) := h.update s.buf h.memory s.pending s.arrivals s.trace _ s.draws

theorem Inv.queue {s : State} (h : Inv s) (q : List Waiting) : Inv { s with pending := q } :=
  h.update s.buf h.memory q s.arrivals s.trace s.replies s.draws

theorem Inv.arrive {s : State} (h : Inv s) : Inv s.arrive := by
  obtain ⟨as, ps, rs, e⟩ := arrive_frame s
  rw [e]
  exact h.update s.buf h.memory ps as s.trace rs s.draws

/-- A task of INIT's idle-setting events, or one that runs transactions. -/
def Task.isLines : Task → Bool
  | .lines _ _ => true
  | .readWp _ => false
  | .clearWp _ => false
  | .gather _ _ _ => false
  | .gatherBurst => false
  | .spread _ _ _ => false
  | .spreadBurst _ => false

theorem bound_of_task {s : State} {k : Task} (hd : s.devState = k.devState) (hk : k.isLines = false) : s.bound = true := by
  cases k with
  | lines op rest => cases hk
  | readWp init => cases init <;> simp [State.bound, hd, Task.devState]
  | clearWp init => cases init <;> simp [State.bound, hd, Task.devState]
  | gather got r rest => simp [State.bound, hd, Task.devState]
  | gatherBurst => simp [State.bound, hd, Task.devState]
  | spread r v rest => simp [State.bound, hd, Task.devState]
  | spreadBurst bytes => simp [State.bound, hd, Task.devState]

/-- The transaction of a request in progress is an admitted one. -/
theorem transaction_admitted {p : Params} (hp : p.wf = true) {k : Task} (hk : k.isLines = false) :
    ∃ c d bytes, k.transaction p = some (c, d, bytes) ∧ (decodeCommand p c).isSome = true ∧ d = dirOf p c ∧ (d = .read → bytes = []) := by
  have h1 := decodeCommand_cmdRead hp .wp
  have h2 := decodeCommand_cmdWrite hp .wp
  have h3 := dirOf_cmdRead hp .wp
  have h4 := dirOf_cmdWrite hp .wp
  simp only [Reg.field] at h1 h2 h3 h4
  cases k with
  | lines op rest => cases hk
  | readWp init => exact ⟨_, _, _, rfl, by simp [h1], h3.symm, fun _ => rfl⟩
  | clearWp init => exact ⟨_, _, _, rfl, by simp [h2], h4.symm, nofun⟩
  | gather got r rest => exact ⟨_, _, _, rfl, by simp [hp], by simp [hp], fun _ => rfl⟩
  | gatherBurst => exact ⟨_, _, _, rfl, by simp [hp], by simp [hp], fun _ => rfl⟩
  | spread r v rest => exact ⟨_, _, _, rfl, by simp [hp], by simp [hp], nofun⟩
  | spreadBurst bytes => exact ⟨_, _, _, rfl, by simp [hp], by simp [hp], nofun⟩

/-- An Idle state of the invariant in which a request that runs transactions may be in progress, or none: with another request in progress, another
record, or none. -/
theorem Inv.setTask {s : State} (h : Inv s) (hi : s.phase = .idle) (hl : s.linesIdle = true) (hlt : s.latched) {x : Option Task}
    {d : DevState} {w : WpRecord} (hb : ({ s with devState := d } : State).bound = true) (hx : ∀ k, x = some k → d = k.devState ∧ k.isLines = false)
    (hn : d = .initialising → x.isSome = true) (hw : w ≠ .unknown ↔ d = .ready) :
    Inv { s with task := x, devState := d, wpRecord := w } :=
  ⟨h.params, h.memory, fun _ _ => hl, (fun hb => by rw [hi] at hb; cases hb), (fun op rest ht => by have := (hx _ ht).2; cases this),
    fun k hk => (hx k hk).1, hn, fun _ => hlt, (fun hf => by have := hf.symm.trans hb; cases this), hw⟩

theorem Inv.canTransact {s : State} (h : Inv s) (he : s.engaged = false) (hb : s.bound = true) : s.canTransact = true :=
  canTransact_iff.2 ⟨hb, he, linesIdle_outputs (h.idle (engaged_idle he) hb), h.params⟩

theorem Inv.ready {s : State} (h : Inv s) (he : s.engaged = false) (hb : s.bound = true) : s.devState = .ready := by
  cases hd : s.devState with
  | ready => rfl
  | initialising =>
    have := h.initialising hd
    rw [engaged_task he] at this
    cases this
  | unbound => simp [State.bound, hd] at hb
  | failed => simp [State.bound, hd] at hb

/-! ## The invariant along a transaction -/

/-- Acceptance starts a transaction with the invariant. -/
theorem Inv.accept {s : State} (h : Inv s) (hp : s.phase = .idle) (hb : s.bound = true) {c : Byte} {d : Direction} (bytes : List Byte)
    (hc : (decodeCommand s.params c).isSome = true) (hd : d = dirOf s.params c)
    (hk : ∀ k, s.task = some k → ∃ bs, k.transaction s.params = some (c, d, bs)) : Inv (accept c d bytes s) := by
  have hl := h.idle hp hb
  have ho := linesIdle_outputs hl
  simp only [State.linesIdle, Bool.and_eq_true, beq_iff_eq] at hl
  refine ⟨h.params, tick_wf h.memory _, fun hi => ?_, fun _ => ?_, fun op rest ht => ?_, h.task, h.initialising, h.latched, h.unlatched, h.record⟩
  · cases hi
  · refine ⟨hb, hc, hd, rfl, ?_, ho, ?_, ?_, fun hle => ?_, hk⟩
    · show 0 < transactionLength d (dataLen s.params c)
      cases d <;> simp only [transactionLength] <;> omega
    · show s.data.dir = State.dataDirAt _
      rw [hl.2]
      cases d <;> rfl
    · show s.ce.level = _
      rw [hl.1.1]
      rfl
    · show s.clk.level = false
      rw [hl.1.2]
  · have := h.task _ ht
    simp only [Task.devState] at this
    simp [State.bound, this] at hb

/-- The next transaction of the request in progress is accepted with the invariant. -/
theorem Inv.proceed {s : State} (h : Inv s) (hi : s.phase = .idle) {k : Task} (ht : s.task = some k) (hk : k.isLines = false) :
    Inv (s.proceed k) := by
  obtain ⟨c, d, bytes, he, hc, hd, -⟩ := transaction_admitted h.params hk
  simp only [State.proceed, he]
  refine h.accept hi (bound_of_task (h.task k ht) hk) bytes hc hd fun j hj => ⟨bytes, ?_⟩
  rw [ht] at hj
  cases hj
  exact he

/-- A facade request starts with the invariant. -/
theorem Inv.start {s : State} (h : Inv s) (he : s.engaged = false) {k : Task} (hd : s.devState = k.devState) (hk : k.isLines = false) :
    Inv (s.start k) := by
  have hb := bound_of_task hd hk
  have h1 : Inv { s with task := some k } := h.setTask (engaged_idle he) (h.idle (engaged_idle he) hb) (h.latched (.inl hb)) (x := some k)
    (d := s.devState) (w := s.wpRecord) hb (fun j hj => by cases hj; exact ⟨hd, hk⟩) (fun _ => rfl) h.record
  exact h1.proceed (engaged_idle (s := s) he) rfl hk

/-- The end of a transaction of the request in progress keeps the invariant. -/
theorem Inv.after {s : State} (h : Inv s) (hi : s.phase = .idle) {k : Task} (ht : s.task = some k) (hk : k.isLines = false) : Inv (k.after s) := by
  have hd := h.task k ht
  have hb := bound_of_task hd hk
  have hl := h.idle hi hb
  have hlt := h.latched (.inl hb)
  have hgo : ∀ j : Task, j.devState = k.devState → j.isLines = false → Inv { s with task := some j } := fun j h1 h2 =>
    h.setTask hi hl hlt (x := some j) (d := s.devState) (w := s.wpRecord) hb (fun i hj => by cases hj; exact ⟨hd.trans h1.symm, h2⟩)
      (fun _ => rfl) h.record
  have hend : ∀ r, k.devState = .ready → Inv (s.finish r) := fun r h1 =>
    (h.setTask hi hl hlt (x := none) (d := s.devState) (w := s.wpRecord) hb nofun (fun hx => by rw [hd, h1] at hx; cases hx) h.record).reply _
  have hclear : ∀ w init, w ≠ .unknown → (init = false → s.devState = .ready) → Inv (s.cleared w init) := fun w init hw h1 => by
    have hr : (if init then DevState.ready else s.devState) = .ready := by cases init <;> simp [h1]
    refine (h.setTask hi hl hlt (x := none) (d := if init then .ready else s.devState) (w := w) ?_ nofun ?_ ?_).reply _
    · simp [State.bound, hr]
    · rw [hr]; nofun
    · rw [hr]; simp [hw]
  cases k with
  | lines op rest => cases hk
  | readWp init =>
    simp only [Task.after]
    split
    · exact hgo _ rfl rfl
    · exact hclear _ _ (by decide) fun hx => by rw [hd, hx]; rfl
  | clearWp init => exact hclear _ _ (by decide) fun hx => by rw [hd, hx]; rfl
  | gather got r rest =>
    cases rest with
    | nil => exact hend _ rfl
    | cons q rest => exact hgo _ rfl rfl
  | gatherBurst => exact hend _ rfl
  | spread r v rest =>
    cases rest with
    | nil => exact hend _ rfl
    | cons q rest => exact hgo _ rfl rfl
  | spreadBurst bytes => exact hend _ rfl

/-- The end of a transaction keeps the invariant, whoever asked for it. -/
theorem Inv.settle {s : State} (h : Inv s) (hi : s.phase = .idle) (hb : s.bound = true) : Inv s.settle := by
  cases ht : s.task with
  | none => rw [settle_none ht]; exact h.reply _
  | some k =>
    rw [settle_some ht]
    refine h.after hi ht ?_
    cases k with
    | lines op rest =>
      have := h.task _ ht
      simp only [Task.devState] at this
      simp [State.bound, this] at hb
    | readWp init => rfl
    | clearWp init => rfl
    | gather got r rest => rfl
    | gatherBurst => rfl
    | spread r v rest => rfl
    | spreadBurst bytes => rfl

theorem length_eq_stop (d : Direction) (n : DataLen) : transactionLength d n = stopIndex d n + 4 := by
  cases d <;> simp only [transactionLength, stopIndex] <;> omega

theorem stop_big (d : Direction) (n : DataLen) : 86 ≤ stopIndex d n := by
  cases d <;> cases n <;> decide

/-- DATA's direction while Busy, by the next event's index (10_state.md R23). -/
def dataDir (d : Direction) (m stop : Nat) : LineDir := if d = .read ∧ 54 ≤ m ∧ m ≤ stop + 2 then .inp else .out

theorem dataDirAt_eq (s : State) : s.dataDirAt = dataDir s.dir s.mpc (stopIndex s.dir s.len) := by
  unfold State.dataDirAt dataDir
  cases s.dir <;> simp

theorem dataDir_same {d : Direction} {m stop : Nat} (h53 : d = .read → m ≠ 53) (hs : m ≠ stop + 2) :
    dataDir d (m + 1) stop = dataDir d m stop := by
  unfold dataDir
  cases d with
  | write => simp
  | read =>
    have := h53 rfl
    have hiff : (54 ≤ m + 1 ∧ m + 1 ≤ stop + 2) ↔ (54 ≤ m ∧ m ≤ stop + 2) := by omega
    simp only [hiff]

/-- The line facts of the invariant, for lines `ce`, `clk`, `data` with event `m` next. -/
structure LinesAt (d : Direction) (m stop : Nat) (ce clk data : Line) : Prop where
  ce_dir : ce.dir = .out
  clk_dir : clk.dir = .out
  data_dir : data.dir = dataDir d m stop
  ce_level : ce.level = decide (4 ≤ m ∧ m ≤ stop)
  clk_low : stop + 2 ≤ m → clk.level = false
  data_low : stop + 4 ≤ m → data.level = false

/-- What the fixed places say of the micro-op at index `m`. -/
theorem fixedAt_cases {d : Direction} {n : DataLen} {m : Nat} {op : MicroOp} (h : fixedAt d n m op = true) :
    (m = 3 → op = .set .ce true) ∧ (m = stopIndex d n → op = .set .ce false) ∧ (m = stopIndex d n + 1 → op = .set .clk false) ∧
      (m = stopIndex d n + 2 → op = .dir .data .out) ∧ (m = stopIndex d n + 3 → op = .set .data false) ∧
      (d = .read → m = 53 → op = .dir .data .inp) := by
  simp only [fixedAt, Bool.and_eq_true, Bool.or_eq_true, bne_iff_ne, ne_eq, beq_iff_eq] at h
  obtain ⟨⟨⟨⟨⟨⟨h1, h2⟩, h3⟩, h4⟩, h5⟩, -⟩, h7⟩ := h
  exact ⟨fun e => h1.resolve_left (fun k => k e), fun e => h2.resolve_left (fun k => k e), fun e => h3.resolve_left (fun k => k e),
    fun e => h4.resolve_left (fun k => k e), fun e => h5.resolve_left (fun k => k e),
    fun e e' => h7.resolve_left (fun k => k.elim (fun k => k e) (fun k => k e'))⟩

/-- An event that leaves all three lines as they are, or only CLK's level or DATA's level, between the fixed places. -/
theorem LinesAt.next {d : Direction} {m stop : Nat} {ce clk data clk' data' : Line} (h : LinesAt d m stop ce clk data) (h3 : m ≠ 3)
    (hs : m ≠ stop) (hs2 : m ≠ stop + 2) (h53 : d = .read → m ≠ 53) (hk : clk'.dir = clk.dir) (hd : data'.dir = data.dir)
    (hlow : stop + 2 ≤ m + 1 → clk'.level = false) (hdata : stop + 4 ≤ m + 1 → data'.level = false) :
    LinesAt d (m + 1) stop ce clk' data' := by
  refine ⟨h.ce_dir, hk.trans h.clk_dir, ?_, ?_, hlow, hdata⟩
  · rw [dataDir_same h53 hs2, hd, h.data_dir]
  · rw [h.ce_level]
    exact decide_eq_decide.2 (by omega)

/-- An event at its place keeps the line facts, and its preconditions hold there (R100, R116). -/
theorem perform_lines {op : MicroOp} {s : State} {d : Direction} {n : DataLen} {m : Nat} (hm : m < stopIndex d n + 4)
    (h : LinesAt d m (stopIndex d n) s.ce s.clk s.data) (hp : placed d n m op.shape = true) (hf : fixedAt d n m op.shape = true)
    (hlast : m = stopIndex d n + 3 → op = .set .data false) :
    ∃ t, perform op s = .ok t ∧ LinesAt d (m + 1) (stopIndex d n) t.ce t.clk t.data := by
  have hbig := stop_big d n
  obtain ⟨f3, fs, fs1, fs2, fs3, f53⟩ := fixedAt_cases hf
  cases op with
  | dir l x =>
    cases l with
    | ce => simp [MicroOp.shape, placed] at hp
    | clk => simp [MicroOp.shape, placed] at hp
    | data =>
      refine ⟨_, rfl, ?_⟩
      have hce : ∀ k, LinesAt d m (stopIndex d n) s.ce s.clk s.data → k = m + 1 → (m = 0 ∨ m = stopIndex d n + 2 ∨ m = 53) →
          s.ce.level = decide (4 ≤ k ∧ k ≤ stopIndex d n) := by
        rintro k h rfl hm
        rw [h.ce_level]
        exact decide_eq_decide.2 (by omega)
      cases x with
      | out =>
        simp only [MicroOp.shape, placed, Bool.or_eq_true, beq_iff_eq] at hp
        refine ⟨h.ce_dir, h.clk_dir, ?_, hce _ h rfl (by omega), fun _ => h.clk_low (by omega), fun _ => ?_⟩
        · show LineDir.out = _
          unfold dataDir
          rw [if_neg (by omega)]
        · omega
      | inp =>
        simp only [MicroOp.shape, placed, Bool.and_eq_true, beq_iff_eq] at hp
        refine ⟨h.ce_dir, h.clk_dir, ?_, hce _ h rfl (by omega), fun _ => h.clk_low (by omega), fun _ => ?_⟩
        · show LineDir.inp = _
          unfold dataDir
          rw [if_pos ⟨hp.1, by omega⟩]
        · omega
  | set l v =>
    cases l with
    | ce =>
      refine ⟨_, perform_set (l := .ce) h.ce_dir v, ?_⟩
      cases v with
      | true =>
        simp only [MicroOp.shape, placed, beq_iff_eq] at hp
        refine ⟨rfl, h.clk_dir, ?_, ?_, fun _ => h.clk_low (by omega), fun _ => by omega⟩
        · rw [dataDir_same (by omega) (by omega)]
          exact h.data_dir
        · show true = _
          symm
          rw [decide_eq_true_eq]
          omega
      | false =>
        simp only [MicroOp.shape, placed, beq_iff_eq] at hp
        refine ⟨rfl, h.clk_dir, ?_, ?_, fun _ => by omega, fun _ => by omega⟩
        · rw [dataDir_same (by omega) (by omega)]
          exact h.data_dir
        · show false = _
          symm
          rw [decide_eq_false_iff_not]
          omega
    | clk =>
      refine ⟨_, perform_set (l := .clk) h.clk_dir v, ?_⟩
      have n3 : m ≠ 3 := fun e => by have := f3 e; simp [MicroOp.shape] at this
      have ns : m ≠ stopIndex d n := fun e => by have := fs e; simp [MicroOp.shape] at this
      have ns2 : m ≠ stopIndex d n + 2 := fun e => by have := fs2 e; simp [MicroOp.shape] at this
      have n53 : d = .read → m ≠ 53 := fun e e' => by have := f53 e e'; simp [MicroOp.shape] at this
      cases v with
      | true =>
        simp only [MicroOp.shape, placed, Bool.and_eq_true, decide_eq_true_eq] at hp
        exact h.next n3 ns ns2 n53 h.clk_dir.symm rfl (by omega) (by omega)
      | false =>
        simp only [MicroOp.shape, placed, Bool.and_eq_true, decide_eq_true_eq] at hp
        exact h.next n3 ns ns2 n53 h.clk_dir.symm rfl (fun _ => rfl) (by omega)
    | data =>
      have hshape : (MicroOp.set .data v).shape = .set .data false := rfl
      rw [hshape] at hp f3 fs fs1 fs2 fs3 f53
      have n3 : m ≠ 3 := fun e => by have := f3 e; simp at this
      have ns : m ≠ stopIndex d n := fun e => by have := fs e; simp at this
      have ns1 : m ≠ stopIndex d n + 1 := fun e => by have := fs1 e; simp at this
      have ns2 : m ≠ stopIndex d n + 2 := fun e => by have := fs2 e; simp at this
      have n53 : d = .read → m ≠ 53 := fun e e' => by have := f53 e e'; simp at this
      simp only [placed, Bool.and_eq_true, Bool.or_eq_true, decide_eq_true_eq, beq_iff_eq] at hp
      have hout : s.data.dir = .out := by
        rw [h.data_dir]
        unfold dataDir
        rw [if_neg]
        rintro ⟨rfl, h1, h2⟩
        rcases hp.1.2 with (h | h) | h
        · cases h
        · omega
        · omega
      refine ⟨_, perform_set (l := .data) hout v, ?_⟩
      refine h.next n3 ns ns2 n53 rfl hout.symm (fun hle => h.clk_low (by omega)) (fun hle => ?_)
      have hv := hlast (by omega)
      simp only [MicroOp.set.injEq, true_and] at hv
      exact hv
  | sample k i =>
    have n3 : m ≠ 3 := fun e => by have := f3 e; simp [MicroOp.shape] at this
    have ns : m ≠ stopIndex d n := fun e => by have := fs e; simp [MicroOp.shape] at this
    have ns2 : m ≠ stopIndex d n + 2 := fun e => by have := fs2 e; simp [MicroOp.shape] at this
    have n53 : d = .read → m ≠ 53 := fun e e' => by have := f53 e e'; simp [MicroOp.shape] at this
    simp only [MicroOp.shape, placed, Bool.and_eq_true, decide_eq_true_eq, beq_iff_eq] at hp
    have hin : s.data.dir = .inp := by
      rw [h.data_dir]
      unfold dataDir
      rw [if_pos ⟨hp.1.1, by omega⟩]
    exact ⟨_, perform_sample hin k i, h.next n3 ns ns2 n53 rfl hin.symm (by omega) (by omega)⟩
  | wait T =>
    have n3 : m ≠ 3 := fun e => by have := f3 e; simp [MicroOp.shape] at this
    have ns : m ≠ stopIndex d n := fun e => by have := fs e; simp [MicroOp.shape] at this
    have ns2 : m ≠ stopIndex d n + 2 := fun e => by have := fs2 e; simp [MicroOp.shape] at this
    have n53 : d = .read → m ≠ 53 := fun e e' => by have := f53 e e'; simp [MicroOp.shape] at this
    simp only [MicroOp.shape, placed, Bool.and_eq_true, decide_eq_true_eq] at hp
    exact ⟨_, rfl, h.next n3 ns ns2 n53 rfl rfl (by omega) (by omega)⟩

/-- The last event (R111). -/
theorem last_event {c : Byte} {d : Direction} {n : DataLen} {b : Vector Byte 8} {op : MicroOp}
    (h : (transactionOps c d n b)[stopIndex d n + 3]? = some op) : op = .set .data false := by
  have hsplit : transactionOps c d n b = (startOps ++ (shiftBytes [c] ++ dataOps d n b)) ++ stopOps := by simp [transactionOps]
  have hlen := length_transactionOps c d n b
  rw [hsplit, List.length_append, length_eq_stop, show stopOps.length = 4 from rfl] at hlen
  rw [hsplit, List.getElem?_append_right (by omega), show stopIndex d n + 3 - (startOps ++ (shiftBytes [c] ++ dataOps d n b)).length = 3 by omega] at h
  simpa [stopOps] using h.symm

theorem BusyInv.linesAt {s : State} (h : BusyInv s) : LinesAt s.dir s.mpc (stopIndex s.dir s.len) s.ce s.clk s.data := by
  have ho := h.outputs
  simp only [State.outputs, Bool.and_eq_true, beq_iff_eq] at ho
  have hlt := h.mpc_lt
  rw [length_eq_stop] at hlt
  exact ⟨ho.1, ho.2, by rw [h.data_dir, dataDirAt_eq], h.ce_level, h.clk_low, fun hle => by omega⟩

/-- A Busy engine with the invariant has a next event, and it succeeds and keeps the line facts. -/
theorem BusyInv.event {s : State} (h : BusyInv s) :
    ∃ op t, s.ops[s.mpc]? = some op ∧ perform op s = .ok t ∧ LinesAt s.dir (s.mpc + 1) (stopIndex s.dir s.len) t.ce t.clk t.data := by
  have hlen : s.ops.length = transactionLength s.dir s.len := length_transactionOps _ _ _ _
  have hlt : s.mpc < s.ops.length := by rw [hlen]; exact h.mpc_lt
  have hget : s.ops[s.mpc]? = some s.ops[s.mpc] := List.getElem?_eq_getElem hlt
  obtain ⟨hp, hf⟩ := placed_of_get hget
  have hm := h.mpc_lt
  rw [length_eq_stop] at hm
  obtain ⟨t, ht, hl⟩ := perform_lines hm h.linesAt hp hf fun e => last_event (c := s.cmd) (d := s.dir) (n := s.len) (b := s.buf) (by
    rw [← e]
    exact hget)
  exact ⟨_, t, hget, ht, hl⟩

/-- A Busy engine's step from the invariant: it succeeds and keeps the invariant. -/
theorem Inv.engineTurn {s : State} (h : Inv s) (hb : s.phase = .busy) : ∃ t, engineTurn s = .ok t ∧ Inv t := by
  have hbi := h.busy hb
  obtain ⟨op, s1, hop, hp, hl⟩ := hbi.event
  have hf := perform_frame hp
  have hwf := perform_wf hp h.memory
  have hbound : s1.bound = true := by rw [bound_of_devState hf.devState]; exact hbi.bound
  have hpar : s1.params.wf = true := by rw [hf.params]; exact h.params
  have htask : ∀ k, s1.task = some k → s1.devState = k.devState := fun k hk => by rw [hf.devState]; exact h.task k (hf.task ▸ hk)
  have hstart : ∀ op rest, s1.task ≠ some (.lines op rest) := fun op rest hk => by
    have := htask _ hk
    simp only [Task.devState] at this
    simp [State.bound, this] at hbound
  have hinit : s1.devState = .initialising → s1.task.isSome = true := fun hd => by rw [hf.task]; exact h.initialising (hf.devState ▸ hd)
  have hlatched : s1.latched := by
    unfold State.latched
    rw [hf.burstMode, hf.hourMode, hf.ceBinding, hf.clkBinding, hf.dataBinding]
    exact h.latched (.inl hbi.bound)
  have hrec : s1.wpRecord ≠ .unknown ↔ s1.devState = .ready := by rw [hf.wpRecord, hf.devState]; exact h.record
  have hno : ∀ {p : Prop}, s1.bound = false → p := fun hbf => by rw [hbound] at hbf; cases hbf
  refine ⟨_, engineTurn_ok hb hop hp, ?_⟩
  rw [length_eq_stop]
  by_cases he : s.mpc + 1 = stopIndex s.dir s.len + 4
  · rw [if_pos he]
    refine Inv.settle ?_ rfl hbound
    refine ⟨hpar, hwf, fun _ _ => ?_, nofun, fun op rest hk => absurd hk (hstart op rest), htask, hinit, fun _ => hlatched, fun hx => hno hx, hrec⟩
    obtain ⟨h1, h2, h3, h4, h5, h6⟩ := hl
    have e1 : s1.ce = ⟨.out, false⟩ := by
      have : s1.ce.level = false := by rw [h4, decide_eq_false_iff_not]; omega
      rw [← h1, ← this]
    have e2 : s1.clk = ⟨.out, false⟩ := by
      have := h5 (by omega)
      rw [← h2, ← this]
    have e3 : s1.data = ⟨.out, false⟩ := by
      have := h6 (by omega)
      have hd : s1.data.dir = .out := by rw [h3]; unfold dataDir; rw [if_neg (by omega)]
      rw [← hd, ← this]
    simp [State.linesIdle, e1, e2, e3]
  · rw [if_neg he]
    refine ⟨hpar, hwf, fun hx => ?_, fun _ => ?_, fun op rest hk => absurd hk (hstart op rest), htask, hinit, fun _ => hlatched, fun hx => hno hx, hrec⟩
    · have hx : s1.phase = .idle := hx
      rw [hf.phase, hb] at hx
      cases hx
    · have hlt := hbi.mpc_lt
      rw [length_eq_stop] at hlt
      refine ⟨hbound, ?_, ?_, ?_, ?_, ?_, ?_, ?_, ?_, ?_⟩
      · show (decodeCommand s1.params s1.cmd).isSome = true
        rw [hf.params, hf.cmd]; exact hbi.command
      · show s1.dir = dirOf s1.params s1.cmd
        rw [hf.dir, hf.params, hf.cmd]; exact hbi.direction
      · show s1.len = dataLen s1.params s1.cmd
        rw [hf.len, hf.params, hf.cmd]; exact hbi.length
      · show s.mpc + 1 < transactionLength s1.dir s1.len
        rw [hf.dir, hf.len, length_eq_stop]; omega
      · simp [State.outputs, hl.ce_dir, hl.clk_dir]
      · rw [dataDirAt_eq]
        show s1.data.dir = dataDir s1.dir (s.mpc + 1) (stopIndex s1.dir s1.len)
        rw [hf.dir, hf.len]; exact hl.data_dir
      · show s1.ce.level = decide (4 ≤ s.mpc + 1 ∧ s.mpc + 1 ≤ stopIndex s1.dir s1.len)
        rw [hf.dir, hf.len]; exact hl.ce_level
      · intro hle
        refine hl.clk_low ?_
        have hle : stopIndex s1.dir s1.len + 2 ≤ s.mpc + 1 := hle
        rw [hf.dir, hf.len] at hle
        exact hle
      · intro k hk
        show ∃ bytes, k.transaction s1.params = some (s1.cmd, s1.dir, bytes)
        rw [hf.params, hf.cmd, hf.dir]
        exact hbi.task k (hf.task ▸ hk)

/-! ## INIT's idle-setting events -/

/-- The next of them succeeds, and keeps what is known of the lines. -/
theorem InitLines.event {n : Nat} {op : MicroOp} {rest : List MicroOp} {s : State} (h : InitLines n s) (hn : initOps.drop n = op :: rest) :
    ∃ t, perform op s = .ok t ∧ InitLines (n + 1) t ∧ initOps.drop (n + 1) = rest ∧ (rest = [] → t.linesIdle = true) := by
  have hlt : n < 6 := by
    by_contra hge
    rw [List.drop_eq_nil_of_le (by simp [initOps]; omega)] at hn
    cases hn
  have hdir : ∀ l, (l = .ce → 1 ≤ n) → (l = .clk → 3 ≤ n) → (l = .data → 5 ≤ n) → (s.line l).dir = .out := by
    intro l h1 h2 h3
    cases l with
    | ce => exact h.ce_dir (h1 rfl)
    | clk => exact h.clk_dir (h2 rfl)
    | data => exact h.data_dir (h3 rfl)
  obtain ⟨c1, c2, k1, k2, d1⟩ := h
  interval_cases n <;> simp only [initOps, List.drop_zero, List.drop_succ_cons, List.cons.injEq] at hn <;> obtain ⟨rfl, rfl⟩ := hn
  · exact ⟨_, rfl, ⟨fun _ => rfl, by omega, by omega, by omega, by omega⟩, rfl, nofun⟩
  · exact ⟨_, perform_set (hdir .ce (by omega) nofun nofun) _, ⟨fun _ => rfl, fun _ => rfl, by omega, by omega, by omega⟩, rfl, nofun⟩
  · exact ⟨_, rfl, ⟨fun _ => c1 (by omega), fun _ => c2 (by omega), fun _ => rfl, by omega, by omega⟩, rfl, nofun⟩
  · exact ⟨_, perform_set (hdir .clk nofun (by omega) nofun) _,
      ⟨fun _ => c1 (by omega), fun _ => c2 (by omega), fun _ => rfl, fun _ => rfl, by omega⟩, rfl, nofun⟩
  · exact ⟨_, rfl, ⟨fun _ => c1 (by omega), fun _ => c2 (by omega), fun _ => k1 (by omega), fun _ => k2 (by omega), fun _ => rfl⟩, rfl, nofun⟩
  · refine ⟨_, perform_set (hdir .data nofun nofun (by omega)) _,
      ⟨fun _ => c1 (by omega), fun _ => c2 (by omega), fun _ => k1 (by omega), fun _ => k2 (by omega), fun _ => rfl⟩, rfl, fun _ => ?_⟩
    have e1 : s.ce = ⟨.out, false⟩ := by rw [← c1 (by omega), ← c2 (by omega)]
    have e2 : s.clk = ⟨.out, false⟩ := by rw [← k1 (by omega), ← k2 (by omega)]
    show (s.ce == _ && s.clk == _ && _) = true
    simp [e1, e2]

/-- INIT's lines, begun or going on, with the invariant. -/
theorem Inv.linesLeft {s : State} (hp : s.params.wf = true) (hm : s.chip.cr.wf = true) (hi : s.phase = .idle) (hd : s.devState = .unbound)
    (hw : s.wpRecord = .unknown) (hlt : s.latched) {n : Nat} (hl : InitLines n s) {ops : List MicroOp} (hn : initOps.drop n = ops)
    (hidle : ops = [] → s.linesIdle = true) : Inv (s.linesLeft ops) := by
  cases ops with
  | nil =>
    exact ⟨hp, hm, fun _ _ => hidle rfl, nofun, nofun, fun k hk => by cases hk; rfl, fun _ => rfl, fun _ => hlt, nofun,
      by show s.wpRecord ≠ _ ↔ _; simp [hw, State.linesLeft]⟩
  | cons op rest =>
    refine ⟨hp, hm, fun _ hb => ?_, fun hb => ?_, fun op' rest' hk => ?_, fun k hk => ?_, fun _ => rfl, fun _ => hlt, nofun, ?_⟩
    · have hb : s.bound = true := hb
      simp [State.bound, hd] at hb
    · have hb : s.phase = .busy := hb
      rw [hi] at hb
      cases hb
    · cases hk
      exact ⟨n, hn, hl.ce_dir, hl.ce_low, hl.clk_dir, hl.clk_low, hl.data_dir⟩
    · cases hk
      exact hd
    · show s.wpRecord ≠ .unknown ↔ s.devState = .ready
      simp [hw, hd]

/-- A step of the request in progress between its transactions keeps the invariant. -/
theorem Inv.taskTurn {s : State} (h : Inv s) (hi : s.phase = .idle) {k : Task} (ht : s.task = some k) : ∃ t, taskTurn k s = .ok t ∧ Inv t := by
  cases k with
  | lines op rest =>
    obtain ⟨n, hn, hl⟩ := h.starting op rest ht
    obtain ⟨s1, hp, hl1, hn1, hidle⟩ := hl.event hn
    have hf := perform_frame hp
    have hd : s.devState = .unbound := h.task _ ht
    refine ⟨_, by simp only [Sys2Proof.Machine.taskTurn, hp], Inv.linesLeft ?_ (perform_wf hp h.memory) ?_ ?_ ?_ ?_ hl1 hn1 hidle⟩
    · rw [hf.params]; exact h.params
    · rw [hf.phase]; exact hi
    · rw [hf.devState]; exact hd
    · rw [hf.wpRecord]
      by_contra hw
      have := h.record.1 hw
      rw [hd] at this
      cases this
    · unfold State.latched
      rw [hf.burstMode, hf.hourMode, hf.ceBinding, hf.clkBinding, hf.dataBinding]
      exact h.latched (.inr (by rw [ht]; rfl))
  | readWp init => exact ⟨_, rfl, h.proceed hi ht rfl⟩
  | clearWp init => exact ⟨_, rfl, h.proceed hi ht rfl⟩
  | gather got r rest => exact ⟨_, rfl, h.proceed hi ht rfl⟩
  | gatherBurst => exact ⟨_, rfl, h.proceed hi ht rfl⟩
  | spread r v rest => exact ⟨_, rfl, h.proceed hi ht rfl⟩
  | spreadBurst bytes => exact ⟨_, rfl, h.proceed hi ht rfl⟩

/-- A binding that fails on an Unbound device keeps the invariant. -/
theorem Inv.bindingFails {s : State} (h : Inv s) (hd : s.devState = .unbound) : Inv s.bindingFails :=
  ⟨h.params, h.memory, nofun, nofun, nofun, nofun, nofun, fun hb => hb.elim nofun nofun, fun _ _ => ⟨rfl, rfl, rfl, rfl, rfl⟩,
    ⟨fun hw => (nomatch hd.symm.trans (h.record.1 hw)), nofun⟩⟩

/-- A step of what is in progress, from the invariant: it answers a next state, which has the invariant. -/
theorem Inv.step_engaged {s : State} (h : Inv s) (he : s.engaged = true) : ∃ t, step s = .next t ∧ Inv t := by
  cases hf : s.arrivalFails with
  | true => exact ⟨_, step_arrivalFails he hf, Inv.bindingFails (h.update s.buf h.memory s.pending _ s.trace s.replies s.draws) (arrivalFails_iff.1 hf).1⟩
  | false =>
  have ha := h.arrive
  rw [Sys2Proof.Machine.step_engaged he hf]
  cases hp : s.phase with
  | busy =>
    obtain ⟨t, h1, h2⟩ := ha.engineTurn (by simp [hp])
    exact ⟨t, by simp [turn, hp, h1, toOutcome], h2⟩
  | idle =>
    cases ht : s.task with
    | none => simp [State.engaged, hp, ht] at he
    | some k =>
      obtain ⟨t, h1, h2⟩ := ha.taskTurn (by simp [hp]) (k := k) (by simp [ht])
      exact ⟨t, by simp [turn, hp, ht, h1, toOutcome], h2⟩

end Sys2Proof.Machine
end

