-- ==== Sys2Proof/Laws/PerInstr.lean ====
section
/-! SUPPORT. Statements about every instruction as syntax, one lemma per constructor (30_encoding.md R70, R74, R75). -/
namespace Sys2Proof.Laws.FrameShape

open Sys2Proof

/-- The frame of a well-formed instruction, under parameters that tell the commands apart: an admitted command byte, then as many bytes as its
direction and length ask for, and the decoder reads all of them. -/
def Statement (i : Instr) : Prop :=
  ∀ p : Params, p.wf = true → WellFormed i →
    ∃ c bytes, encode p i = c :: bytes ∧ (decodeCommand p c).isSome = true ∧ (c :: bytes).length = frameLength p c ∧
      oneFrame p (encode p i) = encode p i

open Sys2Proof.Machine in
/-- The shared argument: a frame of the right length is taken whole. -/
theorem of_command {p : Params} (hp : p.wf = true) {i : Instr} (k : Command) (bytes : List Byte) (he : encode p i = k.byte p :: bytes)
    (hl : bytes.length = match k.direction with | .read => 0 | .write => k.len.count) :
    ∃ c bs, encode p i = c :: bs ∧ (decodeCommand p c).isSome = true ∧ (c :: bs).length = frameLength p c ∧
      oneFrame p (encode p i) = encode p i := by
  have hd : dirOf p (k.byte p) = k.direction := dirOf_byte hp k
  have hf : (k.byte p :: bytes).length = frameLength p (k.byte p) := by
    simp only [frameLength, dataLen_byte hp, List.length_cons, hl]
    unfold dirOf at hd
    cases hr : isRead p (k.byte p) <;> simp only [hr, Bool.false_eq_true, if_false, if_true] at hd ⊢ <;> simp [← hd, Nat.add_comm]
  refine ⟨_, _, he, by simp [hp], hf, ?_⟩
  rw [he, oneFrame, ← hf]
  exact List.take_length

theorem wrSec (v : Byte) : Statement (.wrSec v) := fun _ hp _ => of_command hp (.write .sec) [v] rfl rfl
theorem rdSec : Statement .rdSec := fun _ hp _ => of_command hp (.read .sec) [] rfl rfl
theorem wrMin (v : Byte) : Statement (.wrMin v) := fun _ hp _ => of_command hp (.write .min) [v] rfl rfl
theorem rdMin : Statement .rdMin := fun _ hp _ => of_command hp (.read .min) [] rfl rfl
theorem wrHour (v : Byte) : Statement (.wrHour v) := fun _ hp _ => of_command hp (.write .hour) [v] rfl rfl
theorem rdHour : Statement .rdHour := fun _ hp _ => of_command hp (.read .hour) [] rfl rfl
theorem wrDate (v : Byte) : Statement (.wrDate v) := fun _ hp _ => of_command hp (.write .date) [v] rfl rfl
theorem rdDate : Statement .rdDate := fun _ hp _ => of_command hp (.read .date) [] rfl rfl
theorem wrMonth (v : Byte) : Statement (.wrMonth v) := fun _ hp _ => of_command hp (.write .month) [v] rfl rfl
theorem rdMonth : Statement .rdMonth := fun _ hp _ => of_command hp (.read .month) [] rfl rfl
theorem wrWday (v : Byte) : Statement (.wrWday v) := fun _ hp _ => of_command hp (.write .wday) [v] rfl rfl
theorem rdWday : Statement .rdWday := fun _ hp _ => of_command hp (.read .wday) [] rfl rfl
theorem wrYear (v : Byte) : Statement (.wrYear v) := fun _ hp _ => of_command hp (.write .year) [v] rfl rfl
theorem rdYear : Statement .rdYear := fun _ hp _ => of_command hp (.read .year) [] rfl rfl
theorem wrWp (v : Byte) : Statement (.wrWp v) := fun _ hp _ => of_command hp (.write .wp) [v] rfl rfl
theorem rdWp : Statement .rdWp := fun _ hp _ => of_command hp (.read .wp) [] rfl rfl

theorem wrBurst (bytes : List Byte) : Statement (.wrBurst bytes) := fun _ hp h =>
  of_command hp .writeBurst bytes rfl (show bytes.length = 8 by simpa [WellFormed, Instr.wellFormed] using h)

theorem rdBurst : Statement .rdBurst := fun _ hp _ => of_command hp .readBurst [] rfl rfl

end Sys2Proof.Laws.FrameShape
end

