-- ==== Sys2Proof/Laws/Run.lean ====
section
/-! SUPPORT. Each instruction run to its end: the acceptance that exec answers, and then the engine's steps, one event each, while nobody else asks
anything (00_scope.md R7, 40_transfer_engine.md R114). -/
namespace Sys2Proof.Machine

open Sys2Proof

/-- The engine's steps of an accepted read that no facade request asked for. -/
theorem run_read {s : State} (hs : s.canTransact = true) (ha : s.arrivals = []) (c : Byte) :
    Host.Core.run Sys2Proof.core (transactionLength .read (dataLen s.params c)) (accept c .read [] s) = .next (s.afterRead c).deliver := by
  rw [run_accepted ha (transact_read (canTransact_outputs hs) c),
    settle_none (by rw [afterRead_task]; exact engaged_task (canTransact_iff.1 hs).2.1)]

/-- The engine's steps of an accepted write that no facade request asked for. -/
theorem run_write {s : State} (hs : s.canTransact = true) (ha : s.arrivals = []) (c : Byte) (bytes : List Byte) :
    Host.Core.run Sys2Proof.core (transactionLength .write (dataLen s.params c)) (accept c .write bytes s) = .next (s.afterWrite c bytes).deliver := by
  rw [run_accepted ha (transact_write (canTransact_outputs hs) c bytes),
    settle_none (by rw [afterWrite_task]; exact engaged_task (canTransact_iff.1 hs).2.1)]

theorem run_readOf {s : State} (hs : s.canTransact = true) (ha : s.arrivals = []) (r : Reg) :
    Host.Core.run Sys2Proof.core 90 (accept (cmdRead s.params (r.field s.params)) .read [] s) =
      .next (s.afterRead (cmdRead s.params (r.field s.params))).deliver := by
  have h := run_read hs ha (cmdRead s.params (r.field s.params))
  rw [dataLen_cmdRead (canTransact_params hs)] at h
  exact h

theorem run_writeOf {s : State} (hs : s.canTransact = true) (ha : s.arrivals = []) (r : Reg) (v : Byte) :
    Host.Core.run Sys2Proof.core 105 (accept (cmdWrite s.params (r.field s.params)) .write [v] s) =
      .next (s.afterWrite (cmdWrite s.params (r.field s.params)) [v]).deliver := by
  have h := run_write hs ha (cmdWrite s.params (r.field s.params)) [v]
  rw [dataLen_cmdWrite (canTransact_params hs)] at h
  exact h

theorem run_rdBurst {s : State} (hs : s.canTransact = true) (ha : s.arrivals = []) :
    Host.Core.run Sys2Proof.core 314 (accept (burstReadAddr s.params) .read [] s) = .next (s.afterRead (burstReadAddr s.params)).deliver := by
  have h := run_read hs ha (burstReadAddr s.params)
  rw [dataLen_burstRead] at h
  exact h

theorem run_wrBurst {s : State} (hs : s.canTransact = true) (ha : s.arrivals = []) (bytes : List Byte) :
    Host.Core.run Sys2Proof.core 441 (accept (burstWriteAddr s.params) .write bytes s) =
      .next (s.afterWrite (burstWriteAddr s.params) bytes).deliver := by
  have h := run_write hs ha (burstWriteAddr s.params) bytes
  rw [dataLen_burstWrite] at h
  exact h

end Sys2Proof.Machine
end

