-- ==== Sys2Proof/Laws/Turn.lean ====
section
/-! SUPPORT. What a step of what is in progress can change, whatever the state, and the refusal for the device state of a request that is served
(10_state.md R31 to R35, 60_exceptions.md R236, R242). -/
namespace Sys2Proof.Machine

open Sys2Proof

/-- What no step of a request in progress writes. -/
structure TurnFrame (s t : State) : Prop where
  params : t.params = s.params
  burstMode : t.burstMode = s.burstMode
  hourMode : t.hourMode = s.hourMode
  ceBinding : t.ceBinding = s.ceBinding
  clkBinding : t.clkBinding = s.clkBinding
  dataBinding : t.dataBinding = s.dataBinding
  pending : t.pending = s.pending
  arrivals : t.arrivals = s.arrivals

theorem TurnFrame.trans {s t u : State} (h : TurnFrame s t) (h' : TurnFrame t u) : TurnFrame s u :=
  ⟨h'.params.trans h.params, h'.burstMode.trans h.burstMode, h'.hourMode.trans h.hourMode, h'.ceBinding.trans h.ceBinding,
    h'.clkBinding.trans h.clkBinding, h'.dataBinding.trans h.dataBinding, h'.pending.trans h.pending, h'.arrivals.trans h.arrivals⟩

theorem EventFrame.turn {s t : State} (h : EventFrame s t) : TurnFrame s t :=
  ⟨h.params, h.burstMode, h.hourMode, h.ceBinding, h.clkBinding, h.dataBinding, h.pending, h.arrivals⟩

theorem TurnFrame.sequenced {s t : State} (h : TurnFrame s t) (p : Phase) (m : Nat) : TurnFrame s { t with phase := p, mpc := m } :=
  ⟨h.params, h.burstMode, h.hourMode, h.ceBinding, h.clkBinding, h.dataBinding, h.pending, h.arrivals⟩

/-- What the end of a transaction brings is a next transaction, an outcome, and a record. -/
theorem after_cases (k : Task) (s : State) :
    (∃ x, k.after s = { s with task := x }) ∨ (∃ r, k.after s = s.finish r) ∨
      ∃ w init, k.after s = s.cleared w init ∧ w ≠ .unknown ∧ (k = .readWp init ∨ k = .clearWp init) := by
  cases k with
  | lines op rest => exact .inl ⟨s.task, rfl⟩
  | readWp init =>
    simp only [Task.after]
    split
    · exact .inl ⟨_, rfl⟩
    · exact .inr (.inr ⟨_, _, rfl, by decide, .inl rfl⟩)
  | clearWp init => exact .inr (.inr ⟨_, _, rfl, by decide, .inr rfl⟩)
  | gather got r rest =>
    cases rest with
    | nil => exact .inr (.inl ⟨_, rfl⟩)
    | cons q rest => exact .inl ⟨_, rfl⟩
  | gatherBurst => exact .inr (.inl ⟨_, rfl⟩)
  | spread r v rest =>
    cases rest with
    | nil => exact .inr (.inl ⟨_, rfl⟩)
    | cons q rest => exact .inl ⟨_, rfl⟩
  | spreadBurst bytes => exact .inr (.inl ⟨_, rfl⟩)

/-- What the end of a transaction leaves alone, whoever asked for it. -/
theorem settle_frame (s : State) : TurnFrame s s.settle ∧ s.settle.trace = s.trace ∧ s.settle.chip = s.chip := by
  unfold State.settle
  split
  · exact ⟨⟨rfl, rfl, rfl, rfl, rfl, rfl, rfl, rfl⟩, rfl, rfl⟩
  · rename_i k _
    obtain ⟨x, h⟩ | ⟨r, h⟩ | ⟨w, init, h, -⟩ := after_cases k s <;> rw [h] <;> exact ⟨⟨rfl, rfl, rfl, rfl, rfl, rfl, rfl, rfl⟩, rfl, rfl⟩

/-- The write-protect record and the device state after the end of a transaction. -/
theorem settle_record (s : State) :
    (s.settle.wpRecord = s.wpRecord ∧ s.settle.devState = s.devState) ∨
      (s.settle.wpRecord ≠ .unknown ∧ ∃ init, (s.task = some (.readWp init) ∨ s.task = some (.clearWp init)) ∧
        (s.settle.devState = s.devState ∨ init = true)) := by
  unfold State.settle
  split
  · exact .inl ⟨rfl, rfl⟩
  · rename_i k hk
    obtain ⟨x, h⟩ | ⟨r, h⟩ | ⟨w, init, h, hw, hi⟩ := after_cases k s
    · rw [h]; exact .inl ⟨rfl, rfl⟩
    · rw [h]; exact .inl ⟨rfl, rfl⟩
    · refine .inr ⟨by rw [h]; exact hw, init, by rcases hi with rfl | rfl <;> simp [hk], ?_⟩
      rw [h]
      cases init
      · exact .inl rfl
      · exact .inr rfl

theorem proceed_frame (k : Task) (s : State) :
    TurnFrame s (s.proceed k) ∧ (s.proceed k).trace = s.trace ∧ (s.proceed k).wpRecord = s.wpRecord ∧ (s.proceed k).devState = s.devState ∧
      (s.proceed k).task = s.task := by
  unfold State.proceed
  split <;> exact ⟨⟨rfl, rfl, rfl, rfl, rfl, rfl, rfl, rfl⟩, rfl, rfl, rfl, rfl⟩

/-- Everything a step of what is in progress can do: nothing; one event of the transaction, and its end after the last; one idle-setting event of INIT;
or the acceptance of the next transaction. -/
theorem turn_cases {s t : State} (h : turn s = .ok t) :
    (s.phase = .idle ∧ s.task = none ∧ t = s) ∨
      (∃ op s1, s.phase = .busy ∧ s.ops[s.mpc]? = some op ∧ perform op s = .ok s1 ∧
        t = if s.mpc + 1 = transactionLength s.dir s.len then { s1 with mpc := s.mpc + 1, phase := .idle }.settle
          else { s1 with mpc := s.mpc + 1 }) ∨
      (∃ op rest s1, s.phase = .idle ∧ s.task = some (.lines op rest) ∧ perform op s = .ok s1 ∧ t = s1.linesLeft rest) ∨
      ∃ k, s.phase = .idle ∧ s.task = some k ∧ t = s.proceed k := by
  cases hp : s.phase with
  | busy =>
    have ht : turn s = engineTurn s := by simp [turn, hp]
    rw [ht] at h
    cases hop : s.ops[s.mpc]? with
    | none => simp [engineTurn, engineStep, hop] at h
    | some op =>
      cases h1 : perform op s with
      | error f => simp [engineTurn, engineStep, hop, engineOp, h1] at h
      | ok s1 =>
        rw [engineTurn_ok hp hop h1] at h
        exact .inr (.inl ⟨op, s1, rfl, rfl, h1, (Except.ok.inj h).symm⟩)
  | idle =>
    cases hk : s.task with
    | none =>
      simp only [turn, hp, hk, Except.ok.injEq] at h
      exact .inl ⟨rfl, rfl, h.symm⟩
    | some k =>
      simp only [turn, hp, hk] at h
      cases k with
      | lines op rest =>
        simp only [taskTurn] at h
        cases h1 : perform op s with
        | error f => simp [h1] at h
        | ok s1 =>
          simp only [h1, Except.ok.injEq] at h
          exact .inr (.inr (.inl ⟨op, rest, s1, rfl, rfl, h1, h.symm⟩))
      | readWp init => exact .inr (.inr (.inr ⟨_, rfl, rfl, (Except.ok.inj h).symm⟩))
      | clearWp init => exact .inr (.inr (.inr ⟨_, rfl, rfl, (Except.ok.inj h).symm⟩))
      | gather got r rest => exact .inr (.inr (.inr ⟨_, rfl, rfl, (Except.ok.inj h).symm⟩))
      | gatherBurst => exact .inr (.inr (.inr ⟨_, rfl, rfl, (Except.ok.inj h).symm⟩))
      | spread r v rest => exact .inr (.inr (.inr ⟨_, rfl, rfl, (Except.ok.inj h).symm⟩))
      | spreadBurst bytes => exact .inr (.inr (.inr ⟨_, rfl, rfl, (Except.ok.inj h).symm⟩))

theorem linesLeft_frame (ops : List MicroOp) (s : State) :
    TurnFrame s (s.linesLeft ops) ∧ (s.linesLeft ops).trace = s.trace ∧ (s.linesLeft ops).wpRecord = s.wpRecord ∧
      (s.linesLeft ops).chip = s.chip := by
  cases ops <;> exact ⟨⟨rfl, rfl, rfl, rfl, rfl, rfl, rfl, rfl⟩, rfl, rfl, rfl⟩

/-- A step of what is in progress leaves the configuration and the waiting requests alone. -/
theorem turn_frame {s t : State} (h : turn s = .ok t) : TurnFrame s t := by
  obtain ⟨-, -, rfl⟩ | ⟨op, s1, -, -, h1, rfl⟩ | ⟨op, rest, s1, -, -, h1, rfl⟩ | ⟨k, -, -, rfl⟩ := turn_cases h
  · exact ⟨rfl, rfl, rfl, rfl, rfl, rfl, rfl, rfl⟩
  · split
    · exact ((perform_frame h1).turn.sequenced _ _).trans (settle_frame _).1
    · exact (perform_frame h1).turn.sequenced _ _
  · exact (perform_frame h1).turn.trans (linesLeft_frame rest s1).1
  · exact (proceed_frame k s).1

/-- A step of what is in progress, when it answers. -/
theorem turn_of_step {s t : State} (he : s.engaged = true) (hf : s.arrivalFails = false) (h : step s = .next t) : turn s.arrive = .ok t := by
  rw [step_engaged he hf] at h
  cases ht : turn s.arrive with
  | error f => simp [ht, toOutcome] at h
  | ok u =>
    simp only [ht, toOutcome, Host.Outcome.next.injEq] at h
    rw [h]

/-- The device-state check comes first (60_exceptions.md R236): a request that arrives to be refused for the device state would be refused so if it
were served. -/
theorem serve_stateRefusal {r : Request} {s : State} {why : RefusalReason} (h : (Waiting.request r).stateRefusal s = some why) :
    serveRequest r s = .ok (s.refuse why) := by
  have hb : s.lacksBinding = some why → s.bound = false ∧ why = .notBound := by
    unfold State.lacksBinding; split <;> simp_all
  have hi : s.lacksInit = some why → s.devState ≠ .ready ∧ why = .notReady := by
    unfold State.lacksInit; split <;> simp_all
  have hu : s.alreadyBound = some why → s.devState ≠ .unbound ∧ why = .notUnbound := by
    unfold State.alreadyBound; split <;> simp_all
  cases r with
  | transact c d n bytes => obtain ⟨h1, rfl⟩ := hb h; simp [serveRequest, serveEngine, admission, h1]
  | rdb a => obtain ⟨h1, rfl⟩ := hb h; simp [serveRequest, serveField, h1]
  | wrb a v => obtain ⟨h1, rfl⟩ := hb h; simp [serveRequest, serveField, h1]
  | rdBurst => obtain ⟨h1, rfl⟩ := hb h; simp [serveRequest, serveEngine, admission, h1]
  | wrBurst bytes => obtain ⟨h1, rfl⟩ := hb h; simp [serveRequest, serveEngine, admission, h1]
  | clrWp => obtain ⟨h1, rfl⟩ := hb h; simp [serveRequest, serveClrWp, h1]
  | init ce clk data b m => obtain ⟨h1, rfl⟩ := hu h; simp [serveRequest, serveInit, h1]
  | readTime => obtain ⟨h1, rfl⟩ := hi h; simp [serveRequest, serveReadTime, h1]
  | setTime t => obtain ⟨h1, rfl⟩ := hi h; simp [serveRequest, serveSetTime, h1]
  | decode raw => cases h
  | encode t => cases h
  | unbind => cases h
  | powerCycle => cases h

/-- BindingError comes before the wait (60_exceptions.md R236): an INIT that arrives to fail the binding would fail it so if it were served. -/
theorem serve_arrivalFails {r : Request} {s : State} (hd : s.devState = .unbound) (h : (Waiting.request r).lacksLine = true) :
    serveRequest r s = .ok s.bindingFails := by
  unfold Waiting.lacksLine at h
  split at h
  · rename_i e
    cases e
    simp only [serveRequest, serveInit, hd, h, ne_eq, not_true_eq_false, if_false, if_true]
  · cases h

end Sys2Proof.Machine
end

