-- ==== Sys2Proof/Tests/Slice0.lean ====
section
/-! SUPPORT. Tests: the well-formedness check, every command byte written out from 30_encoding.md R70 and R74, the vectors of
95_test_vectors.md, every instruction's acceptance and one of its events, and for every statement with hypotheses a concrete state and operands that meet them. -/
namespace Sys2Proof.Tests.Slice0

open Sys2Proof Sys2Proof.Machine

/-! ## Well-formedness: the one check, and a term it refuses -/

theorem test_wf_burst_of_eight : WellFormed (.wrBurst [0, 1, 2, 3, 4, 5, 6, 7]) := by decide
theorem test_wf_burst_of_seven_refused : ¬ WellFormed (.wrBurst [0, 1, 2, 3, 4, 5, 6]) := by decide
theorem test_wf_burst_of_nine_refused : ¬ WellFormed (.wrBurst [0, 1, 2, 3, 4, 5, 6, 7, 8]) := by decide

/-! ## Decoding: the 18 words of R74, bit by bit, and words of each refused class (R76) -/

theorem test_decode_wrSec : decode .default [0b10000000, 0x5A] = some (.wrSec 0x5A, []) := by decide
theorem test_decode_rdSec : decode .default [0b10000001] = some (.rdSec, []) := by decide
theorem test_decode_wrMin : decode .default [0b10000010, 0x5A] = some (.wrMin 0x5A, []) := by decide
theorem test_decode_rdMin : decode .default [0b10000011] = some (.rdMin, []) := by decide
theorem test_decode_wrHour : decode .default [0b10000100, 0x5A] = some (.wrHour 0x5A, []) := by decide
theorem test_decode_rdHour : decode .default [0b10000101] = some (.rdHour, []) := by decide
theorem test_decode_wrDate : decode .default [0b10000110, 0x5A] = some (.wrDate 0x5A, []) := by decide
theorem test_decode_rdDate : decode .default [0b10000111] = some (.rdDate, []) := by decide
theorem test_decode_wrMonth : decode .default [0b10001000, 0x5A] = some (.wrMonth 0x5A, []) := by decide
theorem test_decode_rdMonth : decode .default [0b10001001] = some (.rdMonth, []) := by decide
theorem test_decode_wrWday : decode .default [0b10001010, 0x5A] = some (.wrWday 0x5A, []) := by decide
theorem test_decode_rdWday : decode .default [0b10001011] = some (.rdWday, []) := by decide
theorem test_decode_wrYear : decode .default [0b10001100, 0x5A] = some (.wrYear 0x5A, []) := by decide
theorem test_decode_rdYear : decode .default [0b10001101] = some (.rdYear, []) := by decide
theorem test_decode_wrWp : decode .default [0b10001110, 0x5A] = some (.wrWp 0x5A, []) := by decide
theorem test_decode_rdWp : decode .default [0b10001111] = some (.rdWp, []) := by decide
theorem test_decode_wrBurst :
    decode .default [0b10111110, 0x05, 0x33, 0x19, 0x11, 0x11, 0x04, 0x26, 0x00] =
      some (.wrBurst [0x05, 0x33, 0x19, 0x11, 0x11, 0x04, 0x26, 0x00], []) := by decide
theorem test_decode_rdBurst : decode .default [0b10111111] = some (.rdBurst, []) := by decide
theorem test_decode_no_frame_bit : decode .default [0b00000001] = none := by decide
theorem test_decode_ram : decode .default [0b11000001] = none := by decide
theorem test_decode_trickle_charger : decode .default [0b10010001] = none := by decide
theorem test_decode_select_30 : decode .default [0b10111101] = none := by decide
theorem test_decode_short_write : decode .default [0b10000000] = none := by decide
theorem test_decode_short_burst : decode .default [0b10111110, 1, 2, 3, 4, 5, 6, 7] = none := by decide
theorem test_table_word_write : decodeTableWord 8 0b10000000 = some (.wrSec 0) := by decide
theorem test_table_word_burst_read : decodeTableWord 8 0b10111111 = some .rdBurst := by decide

/-! ## The codec (95_test_vectors.md L1, L2.1 to L2.4) -/

theorem test_bcd2bin_0x09 : bcd2bin 0x09 = 9 := by decide
theorem test_bcd2bin_0x59 : bcd2bin 0x59 = 59 := by decide
theorem test_bcd2bin_0x99 : bcd2bin 0x99 = 99 := by decide
theorem test_bcd2bin_0x0A : bcd2bin 0x0A = 10 := by decide
theorem test_bcd2bin_0xA0 : bcd2bin 0xA0 = 100 := by decide
theorem test_bcd2bin_0xFF : bcd2bin 0xFF = 165 := by decide
theorem test_bin2bcd_59 : bin2bcd 59 = 0x59 := by decide
theorem test_bin2bcd_100 : bin2bcd 100 = 0xA0 := by decide
theorem test_bin2bcd_159 : bin2bcd 159 = 0xF9 := by decide
theorem test_bin2bcd_160 : bin2bcd 160 = 0x00 := by decide
theorem test_bin2bcd_165 : bin2bcd 165 = 0x05 := by decide
theorem test_bin2bcd_255 : bin2bcd 255 = 0x95 := by decide
theorem test_decode_running :
    decodeTime .h24 ⟨0x05, 0x33, 0x19, 0x11, 0x11, 0x04, 0x26⟩ = ⟨5, 33, 19, 11, 10, 3, 126⟩ := by decide
theorem test_decode_top :
    decodeTime .h24 ⟨0xFF, 0xFF, 0xFF, 0xFF, 0xFF, 0xFF, 0xFF⟩ = ⟨165, 165, 165, 165, 164, 164, 265⟩ := by decide
theorem test_decode_zeros : decodeTime .h24 ⟨0, 0, 0, 0, 0, 0, 0⟩ = ⟨0, 0, 0, 0, -1, -1, 100⟩ := by decide
theorem test_decode_hour12 :
    [0x81, 0x92, 0xA1, 0xA2, 0xB2, 0x80, 0x12, 0x9F, 0x3F].map (decodeHour .h12) = [0, 11, 12, 13, 23, -1, 11, 24, 36] := by decide
theorem test_decode_hour12_as_24 : decodeHour .h24 0xB2 = 112 := by decide
theorem test_encode_running :
    (encodeTime .h24 ⟨5, 33, 19, 11, 10, 3, 126⟩).map (encodedBytes true) =
      some [0x05, 0x33, 0x19, 0x11, 0x11, 0x04, 0x26, 0x00] := by decide
theorem test_encode_discrete :
    (encodeTime .h24 ⟨5, 33, 19, 11, 10, 3, 126⟩).map (encodedBytes false) =
      some [0x05, 0x33, 0x19, 0x11, 0x11, 0x04, 0x26] := by decide
theorem test_encode_hour12 :
    [0, 11, 12, 13, 23, -1, 31].map (encodeHour .h12) =
      [some 0x81, some 0x92, some 0xA1, some 0xA2, some 0xB2, some 0x80, some 0xA0] := by decide
theorem test_encode_out_of_range : encodeTime .h24 ⟨60, 0, 0, 100, -1, 0, 100⟩ = some ⟨0x60, 0, 0, 0xA0, 0, 0x01, 0⟩ := by decide
theorem test_encode_refused :
    encodeTime .h24 ⟨0, 0, 0, 1, 0, -2, 100⟩ = none ∧ encodeTime .h24 ⟨0, 0, 0, 1, 0, 0, 99⟩ = none ∧
      encodeTime .h12 ⟨0, 0, -2, 1, 0, 0, 100⟩ = none := by decide
theorem test_valid :
    (WallClock.valid ⟨0, 0, 0, 1, 0, 0, 100⟩ && WallClock.valid ⟨59, 59, 23, 31, 11, 6, 199⟩ &&
      WallClock.valid ⟨0, 0, 0, 31, 1, 0, 100⟩) = true := by decide
theorem test_invalid :
    ([⟨60, 0, 0, 1, 0, 0, 100⟩, ⟨0, 60, 0, 1, 0, 0, 100⟩, ⟨0, 0, 24, 1, 0, 0, 100⟩, ⟨0, 0, 0, 0, 0, 0, 100⟩,
      ⟨0, 0, 0, 32, 0, 0, 100⟩, ⟨0, 0, 0, 1, 12, 0, 100⟩, ⟨0, 0, 0, 1, 0, 7, 100⟩, ⟨0, 0, 0, 1, 0, 0, 99⟩,
      ⟨0, 0, 0, 1, 0, 0, 200⟩, ⟨-1, 0, 0, 1, 0, 0, 100⟩] : List WallClock).all (fun t => !t.valid) = true := by decide

/-! ## Every instruction: what exec accepts, and the event in which it has its effect, on a small device -/

/-- The running example's registers (95_test_vectors.md), with the given write-protect byte. -/
def regs (wp : Byte) : Memory :=
  Memory.setRegs (fun k => [0x05, 0x33, 0x19, 0x11, 0x11, 0x04, 0x26, wp].getD k 0) Reg.all []

/-- A Ready device, discrete mode, H24, on the given chip. -/
def ready (o : Oracle) (m : Memory) : State := { State.reset.asInitialised with chip := ⟨o, m, [], 0⟩ }

/-- The device in burst mode. -/
def readyBurst (o : Oracle) (m : Memory) : State := { ready o m with burstMode := some true }

/-- What one step answers: the outcomes, the registers, and the events oldest first. -/
def seen (x : Host.Outcome State Fault Refusal) : Option (List Reply × Memory × List Event) :=
  match x with
  | .next t => some (t.replies, t.chip.cr, t.trace.reverse)
  | _ => none

/-- The outcomes alone. -/
def replies (x : Host.Outcome State Fault Refusal) : Option (List Reply) := (seen x).map fun p => p.1

/-- The registers alone. -/
def registers (x : Host.Outcome State Fault Refusal) : Option Memory := (seen x).map fun p => p.2.1

/-- What exec accepts: command byte, direction, the bytes latched, and the number of events so far; nothing unless it is Busy at the first event. -/
def accepted (i : Instr) : Option (Byte × Direction × List Byte × Nat) :=
  match exec i (ready .reference (regs 0)) with
  | .next t => if t.phase = .busy ∧ t.mpc = 0 then some (t.cmd, t.dir, bufBytes t.buf t.len, t.trace.length) else none
  | _ => none

/-- The registers after the event in which CE falls at the end of a write with command `c`, at index `m`, on a chip that holds `x`. -/
def stored (c : Byte) (m : Nat) (bytes : List Byte) (x : Memory) : Option Memory :=
  registers (step { accept c .write bytes (ready .reference x) with mpc := m, ce := ⟨.out, true⟩ })

/-- The state before the `GET` of bit `j` of a read with command `c`. -/
def beforeGet (c : Byte) (j : Nat) (o : Oracle) (x : Memory) : State :=
  { accept c .read [] (ready o x) with
    mpc := 57 + 4 * j, ce := ⟨.out, true⟩, clk := ⟨.out, true⟩, data := ⟨.inp, false⟩, chip := ⟨o, x, [], 9 + j⟩ }

/-- The level that `GET` returns. -/
def got (x : Host.Outcome State Fault Refusal) : Option Event :=
  match x with
  | .next t => t.trace.head?
  | _ => none

/-- The levels of the first `n` bits of a read with command `c`, each by its own step. -/
def sampledBits (c : Byte) (n : Nat) (x : Memory) : List (Option Event) :=
  (List.range n).map fun j => got (step (beforeGet c j .reference x))

/-- The `GET` events of the bits of `bytes`, least significant first. -/
def gets (bytes : List Byte) : List (Option Event) := (bytes.flatMap byteBits).map fun b => some (.get .data b)

theorem test_exec_rdSec :
    accepted .rdSec = some (0x81, .read, [0x00], 0) ∧ sampledBits 0x81 8 (regs 0) = gets [0x05] := by decide +kernel
theorem test_exec_rdMin :
    accepted .rdMin = some (0x83, .read, [0x00], 0) ∧ sampledBits 0x83 8 (regs 0) = gets [0x33] := by decide +kernel
theorem test_exec_rdHour :
    accepted .rdHour = some (0x85, .read, [0x00], 0) ∧ sampledBits 0x85 8 (regs 0) = gets [0x19] := by decide +kernel
theorem test_exec_rdDate :
    accepted .rdDate = some (0x87, .read, [0x00], 0) ∧ sampledBits 0x87 8 (regs 0) = gets [0x11] := by decide +kernel
theorem test_exec_rdMonth :
    accepted .rdMonth = some (0x89, .read, [0x00], 0) ∧ sampledBits 0x89 8 (regs 0) = gets [0x11] := by decide +kernel
theorem test_exec_rdWday :
    accepted .rdWday = some (0x8B, .read, [0x00], 0) ∧ sampledBits 0x8B 8 (regs 0) = gets [0x04] := by decide +kernel
theorem test_exec_rdYear :
    accepted .rdYear = some (0x8D, .read, [0x00], 0) ∧ sampledBits 0x8D 8 (regs 0) = gets [0x26] := by decide +kernel
theorem test_exec_rdWp :
    accepted .rdWp = some (0x8F, .read, [0x00], 0) ∧ sampledBits 0x8F 8 (regs 0x80) = gets [0x80] := by decide +kernel
theorem test_exec_wrSec :
    accepted (.wrSec 0xB0) = some (0x80, .write, [0xB0], 0) ∧ stored 0x80 101 [0xB0] (regs 0) = some ((regs 0).setReg .sec 0xB0) := by
  decide +kernel
theorem test_exec_wrMin :
    accepted (.wrMin 0xB0) = some (0x82, .write, [0xB0], 0) ∧ stored 0x82 101 [0xB0] (regs 0) = some ((regs 0).setReg .min 0xB0) := by
  decide +kernel
theorem test_exec_wrHour :
    accepted (.wrHour 0xB0) = some (0x84, .write, [0xB0], 0) ∧ stored 0x84 101 [0xB0] (regs 0) = some ((regs 0).setReg .hour 0xB0) := by
  decide +kernel
theorem test_exec_wrDate :
    accepted (.wrDate 0xB0) = some (0x86, .write, [0xB0], 0) ∧ stored 0x86 101 [0xB0] (regs 0) = some ((regs 0).setReg .date 0xB0) := by
  decide +kernel
theorem test_exec_wrMonth :
    accepted (.wrMonth 0xB0) = some (0x88, .write, [0xB0], 0) ∧ stored 0x88 101 [0xB0] (regs 0) = some ((regs 0).setReg .month 0xB0) := by
  decide +kernel
theorem test_exec_wrWday :
    accepted (.wrWday 0xB0) = some (0x8A, .write, [0xB0], 0) ∧ stored 0x8A 101 [0xB0] (regs 0) = some ((regs 0).setReg .wday 0xB0) := by
  decide +kernel
theorem test_exec_wrYear :
    accepted (.wrYear 0xB0) = some (0x8C, .write, [0xB0], 0) ∧ stored 0x8C 101 [0xB0] (regs 0) = some ((regs 0).setReg .year 0xB0) := by
  decide +kernel
theorem test_exec_wrWp :
    accepted (.wrWp 0xB0) = some (0x8E, .write, [0xB0], 0) ∧ stored 0x8E 101 [0xB0] (regs 0) = some ((regs 0).setReg .wp 0xB0) := by
  decide +kernel
theorem test_exec_rdBurst :
    accepted .rdBurst = some (0xBF, .read, [0, 0, 0, 0, 0, 0, 0, 0], 0) ∧
      sampledBits 0xBF 64 (regs 0) = gets [0x05, 0x33, 0x19, 0x11, 0x11, 0x04, 0x26, 0x00] := by decide +kernel
theorem test_exec_wrBurst :
    accepted (.wrBurst [0x05, 0x33, 0x19, 0x11, 0x11, 0x04, 0x26, 0x00]) = some (0xBE, .write, [0x05, 0x33, 0x19, 0x11, 0x11, 0x04, 0x26, 0x00], 0) ∧
      stored 0xBE 437 [0x05, 0x33, 0x19, 0x11, 0x11, 0x04, 0x26, 0x00] [] = some (regs 0) := by decide +kernel
theorem test_wrBurst_edges :
    let l := dataAtRise false false (transactionEvents 0xBE .write .eight [0x05, 0x33, 0x19, 0x11, 0x11, 0x04, 0x26, 0x00] [])
    (l.length, l.take 16) =
      (72, [false, true, true, true, true, true, false, true, true, false, true, false, false, false, false, false]) := by decide +kernel
theorem test_wrWp_edges :
    dataAtRise false false (transactionEvents 0x8E .write .one [0x80] []) =
      [false, true, true, true, false, false, false, true, false, false, false, false, false, false, false, true] := by decide +kernel
theorem test_wrSec_guarded : stored 0x80 101 [0xB0] (regs 0x80) = some (regs 0x80) := by decide +kernel
theorem test_wrWp_guarded : stored 0x8E 101 [0x00] (regs 0x80) = some (regs 0x00) := by decide +kernel
theorem test_get_replayed :
    (match step (beforeGet 0x81 0 (.replay [true, false]) []) with
      | .next t => some (t.trace.head?, t.chip.oracle)
      | _ => none) = some (some (.get .data true), .replay [false]) := by decide +kernel
theorem test_whole_event_trace :
    (transactionEvents 0x8F .read .one [] [false, false, false, false, false, false, false, true]).length = 90 ∧
      (transactionEvents 0x8F .read .one [] [false, false, false, false, false, false, false, true])[85]? = some (.get .data true) ∧
      (transactionEvents 0x8F .read .one [] [false, false, false, false, false, false, false, true])[53]? = some (.dir .data .inp) := by decide +kernel

/-! ## Requests: one step each -/

/-- What of a step's answer is looked at: outcomes, device state, record, what is in progress, the latched command and the number of events. -/
structure Moved where
  replies : List Reply
  devState : DevState
  wpRecord : WpRecord
  task : Option Task
  cmd : Byte
  events : Nat
  deriving DecidableEq, Repr

def moves (x : Host.Outcome State Fault Refusal) : Option Moved :=
  match x with
  | .next t => some ⟨t.replies, t.devState, t.wpRecord, t.task, t.cmd, t.trace.length⟩
  | _ => none

/-- A Ready device at the last event of its read of `r`, part of request `k`, with `v` sampled. -/
def lastRead (k : Task) (r : Reg) (v : Byte) : State :=
  let s := accept (cmdRead .default (r.field .default)) .read [] (ready .reference (regs 0))
  { s with mpc := 89, task := some k, buf := s.buf.set 0 v }

/-- A Ready device at the last event of its write of `r`, part of request `k`. -/
def lastWrite (k : Task) (r : Reg) (v : Byte) : State :=
  { accept (cmdWrite .default (r.field .default)) .write [v] (ready .reference (regs 0)) with mpc := 104, task := some k }

theorem test_read_delivers :
    replies (step { lastRead (.readWp false) .sec 0x59 with task := none }) = some [.ok (.bytes [0x59])] := by decide +kernel
theorem test_clrWp_starts :
    moves (step ((ready .reference (regs 0x80)).ask .clrWp)) = some ⟨[], .ready, .wasClear, some (.readWp false), 0x8F, 0⟩ := by decide
theorem test_clrWp_guard_set :
    moves (step (lastRead (.readWp false) .wp 0x80)) = some ⟨[], .ready, .wasClear, some (.clearWp false), 0x8F, 1⟩ := by decide +kernel
theorem test_clrWp_guard_clear :
    moves (step { lastRead (.readWp false) .wp 0x7F with wpRecord := .wasSet }) = some ⟨[.ok .none], .ready, .wasClear, none, 0x8F, 1⟩ := by
  decide +kernel
theorem test_clrWp_writes :
    moves (step { ready .reference (regs 0x80) with task := some (.clearWp false) }) =
      some ⟨[], .ready, .wasClear, some (.clearWp false), 0x8E, 0⟩ := by decide
theorem test_clrWp_ends : moves (step (lastWrite (.clearWp false) .wp 0)) = some ⟨[.ok .none], .ready, .wasSet, none, 0x8E, 1⟩ := by
  decide +kernel
theorem test_init_starts :
    moves (step (State.reset.ask (.init ⟨7, true⟩ ⟨8, true⟩ ⟨9, true⟩ true .h12))) =
      some ⟨[], .unbound, .unknown, some (.lines (.dir .ce .out)
        [.set .ce false, .dir .clk .out, .set .clk false, .dir .data .out, .set .data false]), 0, 0⟩ := by decide
theorem test_init_initialising :
    moves (step { State.reset with data := ⟨.out, true⟩, task := some (.lines (.set .data false) []) }) =
      some ⟨[], .initialising, .unknown, some (.readWp true), 0, 1⟩ := by decide
theorem test_init_ends :
    moves (step { lastRead (.readWp true) .wp 0x00 with devState := .initialising, wpRecord := .unknown }) =
      some ⟨[.ok .none], .ready, .wasClear, none, 0x8F, 1⟩ := by decide +kernel
theorem test_init_no_line :
    replies (step (State.reset.ask (.init ⟨7, true⟩ ⟨8, false⟩ ⟨9, true⟩ true .h12))) = some [.bindingError] := by decide
theorem test_readTime_starts :
    moves (step ((ready .reference (regs 0)).ask .readTime)) =
      some ⟨[], .ready, .wasClear, some (.gather [] .sec [.min, .hour, .date, .month, .wday, .year]), 0x81, 0⟩ := by decide
theorem test_readTime_ends :
    moves (step (lastRead (.gather [0x05, 0x33, 0x19, 0x11, 0x11, 0x04] .year []) .year 0x26)) =
      some ⟨[.ok (.time ⟨5, 33, 19, 11, 10, 3, 126⟩)], .ready, .wasClear, none, 0x8D, 1⟩ := by decide +kernel
theorem test_setTime_burst_starts :
    moves (step ((readyBurst .reference []).ask (.setTime ⟨5, 33, 19, 11, 10, 3, 126⟩))) =
      some ⟨[], .ready, .wasClear, some (.spreadBurst [0x05, 0x33, 0x19, 0x11, 0x11, 0x04, 0x26, 0x00]), 0xBE, 0⟩ := by decide
theorem test_setTime_goes_on :
    moves (step (lastWrite (.spread .sec 0x05 [(.min, 0x33)]) .sec 0x05)) = some ⟨[], .ready, .wasClear, some (.spread .min 0x33 []), 0x80, 1⟩ := by
  decide +kernel
theorem test_setTime_invalid :
    seen (step ((ready .reference []).ask (.setTime ⟨60, 0, 0, 1, 0, 0, 100⟩))) = some ([.invalidArgument], [], []) := by decide
theorem test_transact_direction :
    replies (step ((ready .reference []).ask (.transact 0x81 .write 1 [0]))) = some [.refused .directionMismatch] := by decide
theorem test_transact_length :
    replies (step ((ready .reference []).ask (.transact 0xBF .read 1 []))) = some [.refused .lengthMismatch] := by decide
theorem test_rdb_of_a_command_byte :
    replies (step ((ready .reference []).ask (.rdb 0x81))) = some [.refused .unknownCommand] := by decide
theorem test_init_while_busy_refused_at_once :
    replies (step { accept 0x81 .read [] (ready .reference []) with
      arrivals := [some (.request (.init ⟨7, true⟩ ⟨8, true⟩ ⟨9, true⟩ true .h12))], pending := [.request .unbind] }) =
      some [.refused .notUnbound] := by decide
theorem test_init_without_a_line_while_lines_are_set :
    seen (step { State.reset.latchInit ⟨7, true⟩ ⟨8, true⟩ ⟨9, true⟩ true .h12 with
      task := some (.lines (.set .data false) [])
      arrivals := [some (.request (.init ⟨7, true⟩ ⟨8, true⟩ ⟨9, false⟩ false .h24))] }) = some ([.bindingError, .bindingError], [], []) := by decide
theorem test_readTime_while_initialising_refused_at_once :
    replies (step { lastRead (.readWp true) .wp 0x80 with devState := .initialising, arrivals := [some (.request .readTime)] }) =
      some [.refused .notReady] := by decide +kernel
theorem test_fetch_word_runs :
    moves (step (State.reset.withFetchWord 8 0x80)) = some ⟨[], .ready, .wasClear, none, 0x80, 0⟩ := by decide +kernel
theorem test_frame_too_short :
    replies (step { ready .reference [] with pending := [.frame [0x80]] }) = some [.refused .lengthMismatch] := by decide
theorem test_reset_waits : step State.reset = .next State.reset := rfl

/-! ## Other parameters (00_scope.md R8) -/

/-- The direction at bit 7 and no frame bit: no layout of the default, and still 18 commands told apart. -/
def otherParams : Params := { Params.default with cmdWriteBit := 0x00, cmdReadBit := 0x80 }

theorem test_other_params :
    otherParams.wf = true ∧ decode otherParams [0x80] = some (.rdSec, []) ∧ decode otherParams [0x0E, 0x5A] = some (.wrWp 0x5A, []) ∧
      decode otherParams [0x81] = none ∧ Params.wf { Params.default with cmdReadBit := 0x80 } = false := by decide

/-! ## Concrete states and operands that meet the hypotheses of each statement -/

/-- A device that can transact, on a frozen reference chip. -/
def dev : State := ready .reference (regs 0)
/-- The same in burst mode. -/
def devBurst : State := readyBurst .reference (regs 0)
/-- The same with the guard bit set. -/
def devGuarded : State := ready .reference (regs 0x80)
/-- The same on a test double that replays 70 levels. -/
def devReplay : State := ready (.replay (List.replicate 70 true)) (regs 0)
/-- A Busy engine at the start of a read. -/
def busy : State := accept 0x81 .read [] dev
/-- A Busy engine at the last event of a read. -/
def busyLast : State := { busy with mpc := 89 }
/-- A Busy engine at the falling edge of CE in a write. -/
def busyStop : State := { accept 0x80 .write [0x59] dev with mpc := 101, ce := ⟨.out, true⟩ }
/-- A facade request between two of its transactions: CLRWP before its write. -/
def between : State := { devGuarded with task := some (.clearWp false) }
/-- A Busy engine at the last event of a facade request's transaction. -/
def busyTask : State := lastRead (.readWp false) .wp 0x80
/-- An INIT in progress: its first idle-setting event comes. -/
def initing : State :=
  { State.reset.latchInit ⟨7, true⟩ ⟨8, true⟩ ⟨9, true⟩ true .h12 with
    task := some (.lines (.dir .ce .out) [.set .ce false, .dir .clk .out, .set .clk false, .dir .data .out, .set .data false]) }
/-- The same, and an INIT arrives whose CE cannot be acquired. -/
def intruded : State := { initing with arrivals := [some (.request (.init ⟨7, false⟩ ⟨8, true⟩ ⟨9, true⟩ true .h12))] }
/-- A valid time. -/
def time : WallClock := ⟨5, 33, 19, 11, 10, 3, 126⟩

theorem witness_DecodeInvertsEncode :
    WellFormed (.wrBurst [1, 2, 3, 4, 5, 6, 7, 8]) ∧ WellFormed (.wrSec 0xFF) ∧ Params.default.wf = true ∧ otherParams.wf = true := by decide
theorem witness_DecodedBytesAreAnEncoding :
    decode .default [0xBE, 1, 2, 3, 4, 5, 6, 7, 8, 9] = some (.wrBurst [1, 2, 3, 4, 5, 6, 7, 8], [9]) ∧ decode .default [0x8F] = some (.rdWp, []) := by decide
theorem witness_AdmittedCommandSet :
    ∀ c ∈ [0x00, 0x7F, 0x90, 0xBD, 0xC0, 0xFF], c ∉ ([0x80, 0x81, 0x8F, 0xBE, 0xBF] : List Byte) := by decide
theorem witness_UnknownCommandBytesAreRefused :
    decodeCommand .default 0x90 = none ∧ dev.params = .default ∧ dev.bound = true ∧ dev.engaged = false := by decide
theorem witness_LengthFollowsFromCommand : decodeCommand .default 0xBE = some .writeBurst ∧ decodeCommand .default 0x8F = some (.read .wp) := by decide
theorem witness_StepRunsTheDecodedFrame :
    let s := { dev with pending := [.frame [0x81]] }
    s.engaged = false ∧ s.pending = .frame [0x81] :: [] ∧ decode s.params [0x81] = some (.rdSec, []) := by decide
theorem witness_IllFormedFramesAreRefused :
    (let s := { State.reset with pending := [.frame [0x81]] }
     s.engaged = false ∧ s.pending = .frame [0x81] :: [] ∧ s.devState = .unbound) ∧
      (let s := { dev with pending := [.frame []] }
       s.engaged = false ∧ s.devState = .ready ∧ s.pending = .frame [] :: []) ∧
      (let s := { dev with pending := [.frame [0x90, 1]] }
       s.pending = .frame [0x90, 1] :: [] ∧ decodeCommand s.params 0x90 = none) ∧
      (let s := { dev with pending := [.frame [0x81, 1]] }
       s.pending = .frame [0x81, 1] :: [] ∧ decodeCommand s.params 0x81 = some (.read .sec) ∧ ([1] : List Byte).length ≠ 0) ∧
      (let s := { dev with pending := [.frame [0x80]] }
       s.pending = .frame [0x80] :: [] ∧ decodeCommand s.params 0x80 = some (.write .sec) ∧ ([] : List Byte).length ≠ 1) ∧
      let s := { dev with pending := [.frame [0xBE, 1, 2, 3, 4, 5, 6, 7, 8, 9]] }
      decodeCommand s.params 0xBE = some .writeBurst ∧ ([1, 2, 3, 4, 5, 6, 7, 8, 9] : List Byte).length ≠ 8 := by decide
theorem witness_BusyStepPerformsTheNextEvent :
    (busy.phase = .busy ∧ busy.arrivals = [] ∧ busy.ops[busy.mpc]? = some (.dir .data .out) ∧ busy.mpc + 1 ≠ transactionLength busy.dir busy.len ∧
        ∃ t, perform (.dir .data .out) busy = .ok t) ∧
      (busyLast.phase = .busy ∧ busyLast.arrivals = [] ∧ busyLast.ops[busyLast.mpc]? = some (.set .data false) ∧
        busyLast.mpc + 1 = transactionLength busyLast.dir busyLast.len ∧ busyLast.task = none ∧ ∃ t, perform (.set .data false) busyLast = .ok t) ∧
      (busyTask.phase = .busy ∧ busyTask.arrivals = [] ∧ busyTask.ops[busyTask.mpc]? = some (.set .data false) ∧
        busyTask.mpc + 1 = transactionLength busyTask.dir busyTask.len ∧ busyTask.task = some (.readWp false) ∧
        ∃ t, perform (.set .data false) busyTask = .ok t) ∧
      dev.engaged = false ∧ dev.pending = [] :=
  ⟨⟨rfl, rfl, by decide, by decide, _, rfl⟩, ⟨rfl, rfl, by decide, by decide, rfl, _, rfl⟩, ⟨rfl, rfl, by decide, by decide, rfl, _, rfl⟩, rfl, rfl⟩
theorem witness_OneEventChangesLineState :
    (dev.line .ce).dir = .out ∧ dev.data.dir = .out ∧ (State.reset.line .clk).dir = .inp ∧ State.reset.data.dir = .inp := by decide
theorem witness_BusyStepEmitsOneEvent :
    (busy.phase = .busy ∧ busy.arrivalFails = false ∧ busy.mpc + 1 ≠ transactionLength busy.dir busy.len ∧ ∃ t, step busy = .next t) ∧
      (busyStop.phase = .busy ∧ busyStop.arrivalFails = false ∧ busyStop.ops[busyStop.mpc]? = some (.set .ce false) ∧ ∃ t, step busyStop = .next t) ∧
      (between.phase = .idle ∧ between.engaged = true ∧ ∃ t, step between = .next t) ∧
      (initing.phase = .idle ∧ initing.engaged = true ∧ ∃ t, step initing = .next t) ∧
      (intruded.engaged = true ∧ intruded.arrivalFails = true ∧ ∃ t, step intruded = .next t) ∧
      (dev.engaged = false ∧ ∃ t, step (dev.ask .clrWp) = .next t) ∧
      ({ dev with pending := [.frame [0x81]] } : State).engaged = false ∧ ∃ t, step { dev with pending := [.frame [0x81]] } = .next t :=
  ⟨⟨rfl, rfl, by decide, _, step_busy (s := busy) (op := .dir .data .out) rfl rfl (by decide) rfl⟩,
    ⟨rfl, rfl, by decide, _, step_busy (s := busyStop) (op := .set .ce false) rfl rfl (by decide) (perform_set (l := .ce) rfl false)⟩,
    ⟨rfl, rfl, _, rfl⟩, ⟨rfl, rfl, _, rfl⟩, ⟨rfl, rfl, _, rfl⟩, ⟨rfl, _, rfl⟩, rfl, _, rfl⟩
theorem witness_ArrivingRequestsAreRefusedOrWait :
    let init : Waiting := .request (.init ⟨7, true⟩ ⟨8, true⟩ ⟨9, true⟩ true .h12)
    (initing.engaged = true ∧ initing.devState = .unbound ∧ ({ initing with arrivals := [some (.request .clrWp)] } : State).arrivals.head? =
        some (some (.request .clrWp))) ∧
      (busy.engaged = true ∧ busy.devState ≠ .unbound ∧ ({ busy with arrivals := [some init, none] } : State).arrivals = some init :: [none]) ∧
      (initing.devState ≠ .ready ∧ ({ initing with arrivals := [some (.request .readTime)] } : State).arrivals = some (.request .readTime) :: []) ∧
      (busy.devState = .ready ∧ ({ busy with arrivals := [some (.request (.rdb 0))] } : State).arrivals = some (.request (.rdb 0)) :: []) ∧
      (∃ t, step { busy with arrivals := [some (.request (.rdb 0))] } = .next t ∧ t.pending = [.request (.rdb 0)]) ∧
      (intruded.engaged = true ∧ intruded.devState = .unbound ∧
        intruded.arrivals = some (.request (.init ⟨7, false⟩ ⟨8, true⟩ ⟨9, true⟩ true .h12)) :: [] ∧ ∃ t, step intruded = .next t) ∧
      (initing.engaged = true ∧ initing.devState = .unbound ∧ ({ initing with arrivals := [some init] } : State).arrivals = some init :: []) ∧
      ∃ t, step { initing with arrivals := [some init] } = .next t ∧ t.pending = [init] ∧ t.replies = [] :=
  ⟨⟨rfl, rfl, rfl⟩, ⟨rfl, nofun, rfl⟩, ⟨nofun, rfl⟩, ⟨rfl, rfl⟩, ⟨_,
    step_busy (s := { busy with arrivals := [some (.request (.rdb 0))] }) (op := .dir .data .out) rfl rfl (by decide) rfl, rfl⟩,
    ⟨rfl, rfl, rfl, _, rfl⟩, ⟨rfl, rfl, rfl⟩, _, rfl, rfl, rfl⟩
theorem witness_StartAndCommandPhase : 7 < 8 := by decide
theorem witness_WriteDataPhase :
    7 < DataLen.eight.count ∧ 0 < DataLen.one.count ∧ 7 < 8 ∧ 53 ≤ 53 ∧ 53 ≤ 100 ∧ 100 ≤ 52 + 48 * DataLen.one.count := by decide
theorem witness_ReadDataPhase :
    7 < DataLen.eight.count ∧ 0 < DataLen.one.count ∧ 7 < 8 ∧ 53 ≤ 53 ∧ 53 ≤ 88 ∧ 88 ≤ 54 + 32 * DataLen.one.count + 2 := by decide
theorem witness_SourcesBitOrderExample : dev.canTransact = true ∧ dev.params = .default ∧ dev.arrivals = [] := by decide
theorem witness_AdmissionChecksInOrder :
    (admission 0x90 .read 1 [] dev = .refuse .unknownCommand ∧ dev.engaged = false) ∧ State.reset.devState = .unbound ∧
      (busy.devState = .ready ∧ busy.engaged = true ∧ ∃ t, step (busy.ask (.transact 0x81 .read 1 [])) = .next t) ∧
      (dev.devState = .ready ∧ decodeCommand dev.params 0x90 = none) ∧
      (decodeCommand dev.params 0x81 ≠ none ∧ ¬(Direction.write = .read ↔ isRead dev.params 0x81 = true)) ∧
      ((Direction.read = .read ↔ isRead dev.params 0x81 = true) ∧ 8 ≠ (dataLen dev.params 0x81).count) ∧
      ((Direction.write = .read ↔ isRead dev.params 0xBE = true) ∧ 8 = (dataLen dev.params 0xBE).count ∧
        ([1, 2, 3, 4, 5, 6, 7] : List Byte).length ≠ 8) ∧
      ((Direction.write = .read ↔ isRead dev.params 0x80 = true) ∧ 1 = (dataLen dev.params 0x80).count ∧ ([0xB0] : List Byte).length = 1) :=
  ⟨⟨by decide, rfl⟩, rfl, ⟨rfl, rfl, _, step_busy (s := busy.ask (.transact 0x81 .read 1 [])) (op := .dir .data .out) rfl rfl (by decide) rfl⟩,
    ⟨rfl, by decide⟩, ⟨by decide, by decide⟩, ⟨by decide, by decide⟩, ⟨by decide, by decide, by decide⟩, by decide, by decide, by decide⟩
theorem witness_UnboundDeviceRefusesEveryInstruction :
    State.reset.devState = .unbound ∧ ({ State.reset with devState := .failed } : State).devState = .failed := ⟨rfl, rfl⟩
theorem witness_BusyEngineHoldsEveryInstruction :
    busy.devState = .ready ∧ busy.engaged = true ∧ between.devState = .ready ∧ between.engaged = true := ⟨rfl, rfl, rfl, rfl⟩
theorem witness_BurstWriteOfAnotherLengthIsRefused :
    dev.bound = true ∧ dev.engaged = false ∧ dev.params.wf = true ∧ ([1, 2, 3, 4, 5, 6, 7] : List Byte).length ≠ 8 ∧
      ([1, 2, 3, 4, 5, 6, 7, 8, 9] : List Byte).length ≠ 8 := by decide
theorem witness_FieldIsCheckedBeforeFraming :
    (dev.bound = true ∧ dev.engaged = false ∧ (∀ r : Reg, r.field dev.params ≠ 0x01) ∧ ∀ r : Reg, r.field dev.params ≠ 0x80) ∧
      (State.reset.engaged = false ∧ State.reset.devState = .unbound) ∧ ({ State.reset with devState := .failed } : State).devState = .failed :=
  ⟨⟨rfl, rfl, fun r => by cases r <;> decide, fun r => by cases r <;> decide⟩, ⟨rfl, rfl⟩, rfl⟩
theorem witness_RegisterRequestsRunTheirInstruction :
    dev.canTransact = true ∧ dev.arrivals = [] ∧ ([1, 2, 3, 4, 5, 6, 7, 8] : List Byte).length = 8 ∧ ([] : List Byte).length ≠ 8 := by decide
theorem witness_EveryInstructionCompletesWithIdleLines :
    WellFormed (.wrBurst [1, 2, 3, 4, 5, 6, 7, 8]) ∧ WellFormed .rdBurst ∧ WellFormed (.wrWp 0xFF) ∧ WellFormed .rdSec ∧
      dev.canTransact = true ∧ dev.arrivals = [] := by decide
theorem witness_DiscreteReadResultAndFrame :
    (dev.canTransact = true ∧ dev.arrivals = []) ∧ (devReplay.canTransact = true ∧ devReplay.arrivals = []) ∧
      devReplay.chip.oracle = .replay (List.replicate 70 true) ∧ 8 ≤ (List.replicate 70 true).length := by decide
theorem witness_ReferenceReadReturnsTheRegister :
    dev.canTransact = true ∧ dev.arrivals = [] ∧ dev.chip.oracle = .reference := by decide
theorem witness_DiscreteWriteEffectAndFrame :
    (dev.canTransact = true ∧ dev.arrivals = [] ∧ dev.chip.cr.wf = true ∧ dev.chip.cr.guarded dev.params = false) ∧
      devGuarded.canTransact = true ∧ devGuarded.arrivals = [] ∧ devGuarded.chip.cr.wf = true ∧ devGuarded.chip.cr.guarded devGuarded.params = true := by decide
theorem witness_BurstReadResultAndFrame :
    (dev.canTransact = true ∧ dev.arrivals = []) ∧ (devReplay.canTransact = true ∧ devReplay.arrivals = []) ∧
      devReplay.chip.oracle = .replay (List.replicate 70 true) ∧ 64 ≤ (List.replicate 70 true).length := by decide
theorem witness_ReferenceBurstReadReturnsAllRegisters :
    dev.canTransact = true ∧ dev.arrivals = [] ∧ dev.chip.oracle = .reference := by decide
theorem witness_BurstWriteEffectAndFrame :
    dev.canTransact = true ∧ dev.arrivals = [] ∧ dev.chip.cr.wf = true ∧ ([1, 2, 3, 4, 5, 6, 7, 8] : List Byte).length = 8 ∧ dev.chip.cr.guarded dev.params = false := by
  decide
theorem witness_GuardedBurstWriteCompletes :
    devGuarded.canTransact = true ∧ devGuarded.arrivals = [] ∧ devGuarded.chip.cr.wf = true ∧ ([1, 2, 3, 4, 5, 6, 7, 8] : List Byte).length = 8 ∧
      devGuarded.chip.cr.guarded devGuarded.params = true := by decide
theorem witness_ReadAfterWriteReturnsTheValue :
    dev.canTransact = true ∧ dev.arrivals = [] ∧ dev.chip.cr.wf = true ∧ dev.chip.oracle = .reference ∧ dev.chip.cr.guarded dev.params = false := by
  decide
theorem witness_WholeTransactionIsItsEngineSteps :
    dev.canTransact = true ∧ dev.arrivals = [] ∧ admission 0x80 .write 1 [0xB0] dev = .accept ∧ admission 0xBF .read 8 [] dev = .accept := by decide
theorem witness_TicksTouchTheCalendarAlone :
    (dev.chip.cr.wf = true ∧ dev.chip.oracle = .reference) ∧
      (let x : Chip := ⟨.unconstrained, regs 0, [some ⟨6, 0x33, 0x19, 0x11, 0x11, 4, 0x26⟩, none], 0⟩
       x.cr.wf = true ∧ x.oracle ≠ .reference ∧ x.ticks = some ⟨6, 0x33, 0x19, 0x11, 0x11, 4, 0x26⟩ :: [none]) ∧
      (let x : Chip := ⟨.running, regs 0, [none], 0⟩
       x.cr.wf = true ∧ x.oracle ≠ .reference ∧ x.ticks = none :: []) ∧
      let x : Chip := ⟨.replay [true], regs 0, [], 0⟩
      x.cr.wf = true ∧ x.oracle ≠ .reference ∧ x.ticks = [] ∧ Reg.sec ≠ .wp := by decide
theorem witness_BcdPrimitivesInvertEachOther :
    99 ≤ 99 ∧ ((0x99#8).extractLsb 7 4).toNat ≤ 9 ∧ ((0x99#8).extractLsb 3 0).toNat ≤ 9 := by decide
theorem witness_EncodeWritesTheDecimalDigits :
    encodeTime .h24 time = some ⟨0x05, 0x33, 0x19, 0x11, 0x11, 0x04, 0x26⟩ ∧
      encodeTime .h12 ⟨0, 0, 0, 1, 0, 0, 100⟩ = some ⟨0, 0, 0x81, 1, 1, 1, 0⟩ ∧
      encodeTime .h12 ⟨0, 0, 11, 1, 0, 0, 100⟩ = some ⟨0, 0, 0x92, 1, 1, 1, 0⟩ ∧
      encodeTime .h12 ⟨0, 0, 12, 1, 0, 0, 100⟩ = some ⟨0, 0, 0xA1, 1, 1, 1, 0⟩ ∧
      encodeTime .h12 ⟨0, 0, 23, 1, 0, 0, 100⟩ = some ⟨0, 0, 0xB2, 1, 1, 1, 0⟩ ∧
      encodeTime .h12 ⟨0, 0, -1, 1, 0, 0, 100⟩ = some ⟨0, 0, 0x80, 1, 1, 1, 0⟩ ∧
      encodeTime .h12 ⟨0, 0, 24, 1, 0, 0, 100⟩ = some ⟨0, 0, 0xB3, 1, 1, 1, 0⟩ ∧
      encodeTime .h12 ⟨0, 0, 31, 1, 0, 0, 100⟩ = some ⟨0, 0, 0xA0, 1, 1, 1, 0⟩ := by decide
theorem witness_DecodeOfEncodeIsTheTime :
    WallClock.valid ⟨59, 59, 23, 31, 11, 6, 199⟩ = true ∧ WallClock.valid ⟨0, 0, 0, 1, 0, 0, 100⟩ = true := by decide
theorem witness_CodecRequestsAnswerAndChangeNothing :
    dev.engaged = false ∧ encodeTime (dev.hourMode.getD .h24) time = some ⟨0x05, 0x33, 0x19, 0x11, 0x11, 0x04, 0x26⟩ ∧
      encodeTime (dev.hourMode.getD .h24) ⟨0, 0, 0, 1, 0, -2, 100⟩ = none := by decide
theorem witness_ClearWriteProtectClearsTheGuard :
    (dev.canTransact = true ∧ dev.arrivals = [] ∧ dev.chip.cr.wf = true ∧ dev.chip.oracle = .reference ∧ dev.chip.cr.guarded dev.params = false) ∧
      (devGuarded.canTransact = true ∧ devGuarded.arrivals = [] ∧ devGuarded.chip.cr.wf = true ∧ devGuarded.chip.oracle = .reference ∧
        devGuarded.chip.cr.guarded devGuarded.params = true) ∧
      (devReplay.canTransact = true ∧ devReplay.arrivals = []) ∧ guardSet .default (byteOf (List.replicate 8 true)) = true ∧
      guardSet .default (byteOf [true, true, true, true, true, true, true, false]) = false := by decide
theorem witness_InitMakesTheDeviceReady :
    let s : State := { State.reset with chip := ⟨.reference, regs 0x80, [], 0⟩ }
    let u : State := { State.reset with chip := ⟨.reference, regs 0, [], 0⟩ }
    (State.reset.devState = .unbound ∧ State.reset.engaged = false ∧ State.reset.arrivals = [] ∧ State.reset.params.wf = true ∧
        (⟨0, true⟩ : Binding).acquirable = true) ∧
      (s.devState = .unbound ∧ s.engaged = false ∧ s.arrivals = [] ∧ s.params.wf = true ∧ s.chip.oracle = .reference ∧ s.chip.cr.wf = true ∧
        s.chip.cr.guarded s.params = true) ∧
      (u.devState = .unbound ∧ u.engaged = false ∧ u.arrivals = [] ∧ u.params.wf = true ∧ u.chip.oracle = .reference ∧ u.chip.cr.wf = true ∧
        u.chip.cr.guarded u.params = false) ∧ State.reset.chip.oracle = .unconstrained := by decide
theorem witness_InitFailsOrIsRefused :
    State.reset.engaged = false ∧ State.reset.devState = .unbound ∧
      ¬((⟨0, true⟩ : Binding).acquirable = true ∧ (⟨1, true⟩ : Binding).acquirable = true ∧ (⟨2, false⟩ : Binding).acquirable = true) ∧
      dev.engaged = false ∧ dev.devState ≠ .unbound := by decide
theorem witness_ReadTimeNeverFails :
    (dev.devState = .ready ∧ dev.canTransact = true ∧ dev.arrivals = [] ∧ dev.burstMode ≠ some true ∧ dev.chip.oracle = .reference) ∧
      (devReplay.devState = .ready ∧ devReplay.canTransact = true ∧ devReplay.arrivals = []) ∧
      devBurst.devState = .ready ∧ devBurst.canTransact = true ∧ devBurst.arrivals = [] ∧ devBurst.burstMode = some true := by decide
theorem witness_ReadTimeDecodesTheRegisters :
    (dev.devState = .ready ∧ dev.canTransact = true ∧ dev.arrivals = [] ∧ dev.chip.oracle = .reference ∧ dev.burstMode ≠ some true) ∧
      devBurst.devState = .ready ∧ devBurst.canTransact = true ∧ devBurst.arrivals = [] ∧ devBurst.chip.oracle = .reference ∧
      devBurst.burstMode = some true := by decide
theorem witness_BurstAndDiscreteReadTimeAgree :
    devBurst.devState = .ready ∧ dev.devState = .ready ∧ devBurst.canTransact = true ∧ devBurst.arrivals = [] ∧ dev.canTransact = true ∧ dev.arrivals = [] ∧
      devBurst.chip.oracle = .reference ∧ dev.chip.oracle = .reference ∧
      devBurst.burstMode = some true ∧ dev.burstMode = some false ∧ devBurst.hourMode = dev.hourMode ∧ devBurst.chip.cr = dev.chip.cr ∧
      time.valid = true ∧ devBurst.chip.cr.wf = true ∧ dev.chip.cr.wf = true ∧ devBurst.chip.cr.guarded devBurst.params = false ∧
      dev.chip.cr.guarded dev.params = false := by decide
theorem witness_SetTimeWritesTheEncoding :
    (time.valid = true ∧ dev.devState = .ready ∧ dev.canTransact = true ∧ dev.arrivals = [] ∧ dev.chip.oracle = .reference ∧
      dev.chip.cr.wf = true ∧ dev.chip.cr.guarded dev.params = false ∧ dev.burstMode ≠ some true) ∧
      devBurst.devState = .ready ∧ devBurst.canTransact = true ∧ devBurst.arrivals = [] ∧ devBurst.chip.oracle = .reference ∧
      devBurst.chip.cr.wf = true ∧ devBurst.chip.cr.guarded devBurst.params = false ∧ devBurst.burstMode = some true := by decide
theorem witness_FacadeRejectionsChangeNothing :
    dev.engaged = false ∧ dev.devState = .ready ∧ WallClock.valid ⟨60, 0, 0, 1, 0, 0, 100⟩ = false ∧
      State.reset.engaged = false ∧ State.reset.devState ≠ .ready := by decide
theorem witness_ReadTimeReturnsTheTimeSet :
    time.valid = true ∧ dev.devState = .ready ∧ dev.canTransact = true ∧ dev.arrivals = [] ∧ dev.chip.cr.wf = true ∧ dev.chip.oracle = .reference ∧
      dev.chip.ticks = [] ∧ dev.chip.cr.guarded dev.params = false := by decide
theorem witness_UnbindReleasesTheLines :
    dev.engaged = false ∧ (busy.engaged = true ∧ ∃ t, step (busy.ask .unbind) = .next t) ∧
      (between.engaged = true ∧ between.arrivalFails = false ∧ ∃ t, step (between.ask .unbind) = .next t) ∧
      intruded.engaged = true ∧ intruded.arrivalFails = true ∧ ∃ t, step (intruded.ask .unbind) = .next t :=
  ⟨rfl, ⟨rfl, _, step_busy (s := busy.ask .unbind) (op := .dir .data .out) rfl rfl (by decide) rfl⟩, ⟨rfl, rfl, _, rfl⟩, rfl, rfl, _, rfl⟩
theorem witness_PowerCycleStartsFromUnbound : dev.engaged = false ∧ dev.chip.cr.wf = true := by decide

/-- The device meets the invariant. -/
theorem inv_dev : Inv dev :=
  ⟨by decide, by decide, fun _ _ => rfl, nofun, nofun, nofun, nofun, fun _ => ⟨rfl, rfl, rfl, rfl, rfl⟩, nofun, by decide⟩

theorem inv_busy : Inv busy := inv_dev.accept rfl rfl [] (by decide) (by decide) nofun

/-- So does an INIT in progress. -/
theorem inv_initing : Inv initing :=
  Inv.linesLeft (s := State.reset.latchInit ⟨7, true⟩ ⟨8, true⟩ ⟨9, true⟩ true .h12) (n := 0) rfl rfl rfl rfl rfl
    ⟨rfl, rfl, rfl, rfl, rfl⟩ ⟨nofun, nofun, nofun, nofun, nofun⟩ rfl nofun

theorem inv_intruded : Inv intruded := inv_initing.update initing.buf inv_initing.memory initing.pending _ initing.trace initing.replies initing.draws

theorem witness_EveryStepKeepsTheInvariant :
    (Inv (dev.ask (.decode ⟨0, 0, 0, 1, 1, 1, 0⟩)) ∧ ∃ t, step (dev.ask (.decode ⟨0, 0, 0, 1, 1, 1, 0⟩)) = .next t) ∧
      (Inv busy ∧ ∃ t, step busy = .next t) ∧ (Inv initing ∧ ∃ t, step initing = .next t) ∧ Inv intruded ∧ ∃ t, step intruded = .next t :=
  ⟨⟨inv_dev.queue _, _, rfl⟩, ⟨inv_busy, _, step_busy (s := busy) (op := .dir .data .out) rfl rfl (by decide) rfl⟩, ⟨inv_initing, _, rfl⟩, inv_intruded, _, rfl⟩
theorem witness_InvariantStatesNeverFault : Inv dev ∧ Inv busy ∧ Inv initing ∧ Inv intruded := ⟨inv_dev, inv_busy, inv_initing, inv_intruded⟩
theorem witness_OnlyLifeCycleRequestsWriteTheConfiguration :
    let s := dev.ask (.decode ⟨0, 0, 0, 1, 1, 1, 0⟩)
    (∃ t, step s = .next t) ∧ (∀ ce clk data burst h, s.pending.head? ≠ some (.request (.init ce clk data burst h))) ∧
      s.pending.head? ≠ some (.request .unbind) ∧ s.pending.head? ≠ some (.request .powerCycle) ∧ (∃ t, step (dev.ask .unbind) = .next t) ∧
      (∃ t, step initing = .next t) ∧ intruded.engaged = true ∧ intruded.arrivalFails = true ∧ ∃ t, step intruded = .next t :=
  ⟨⟨_, rfl⟩, nofun, nofun, nofun, ⟨_, rfl⟩, ⟨_, rfl⟩, rfl, rfl, _, rfl⟩
theorem witness_RefusalChangesNothingElse :
    State.reset.engaged = false ∧
      ∃ t, step (State.reset.ask .readTime) = .next t ∧ t.replies = .refused .notReady :: (State.reset.ask .readTime).replies :=
  ⟨rfl, _, rfl, rfl⟩

end Sys2Proof.Tests.Slice0
end

/-! What a step emits (00_scope.md R7, 40_transfer_engine.md R114): one event while the engine is Busy, at most one while a facade request is between
its transactions, and none when a request or a frame is served. -/
namespace Sys2Proof.Machine

open Sys2Proof

/-! ## Events and the chip's registers (20_memory.md R60) -/

/-- Without a transaction under way no driven level reaches the chip's registers. -/
theorem chipSees_cr_of_idle {s : State} (hi : s.phase = .idle) (l : LineId) (v : Bool) : (s.chipSees l v).1.cr = s.chip.cr := by
  cases l <;> cases v
  case ce.false => simp [State.chipSees, hi]
  case clk.true => simp only [State.chipSees]; split <;> rfl
  all_goals rfl

/-- Without a transaction under way no event changes a chip register, not even CE falling. -/
theorem perform_cr_of_idle {op : MicroOp} {s t : State} (hi : s.phase = .idle) (h : perform op s = .ok t) : t.chip.cr = s.chip.cr := by
  obtain ⟨l, d, -, rfl⟩ | ⟨l, v, -, -, rfl⟩ | ⟨k, i, b, x, n, -, -, ha, rfl⟩ | ⟨T, -, rfl⟩ := perform_ok h
  · cases l <;> rfl
  · have hc := chipSees_cr_of_idle hi l v
    cases l <;> exact hc
  · have hx : x = (s.chip.answer s.params s.cmd s.draws).2.1 := by rw [← ha]
    simpa [hx] using answer_cr s.chip s.params s.cmd s.draws
  · rfl

/-- An event keeps the control block, the waiting requests and what is in progress. -/
theorem EventFrame.sameControl {s t : State} (h : EventFrame s t) : SameControl s t :=
  ⟨h.burstMode, h.hourMode, h.devState, h.wpRecord, h.ceBinding, h.clkBinding, h.dataBinding, h.pending, h.params, h.task, h.arrivals⟩

/-! ## Steps of what is in progress -/

/-- A Busy step that answers performs the event at `mpc`, and what has ended after the last one is settled. -/
theorem step_busy_inv {s t : State} (hb : s.phase = .busy) (hf : s.arrivalFails = false) (h : step s = .next t) :
    ∃ op s1, perform op s.arrive = .ok s1 ∧
      t = if s.mpc + 1 = transactionLength s.dir s.len then { s1 with mpc := s.mpc + 1, phase := .idle }.settle
        else { s1 with mpc := s.mpc + 1 } := by
  obtain ⟨hp, -, -⟩ | ⟨op, s1, -, -, h1, ht⟩ | ⟨-, -, -, hp, -, -, -⟩ | ⟨-, hp, -, -⟩ := turn_cases (turn_of_step (engaged_of_busy hb) hf h)
  · simp [hb] at hp
  · exact ⟨op, s1, h1, by simpa using ht⟩
  · simp [hb] at hp
  · simp [hb] at hp

/-- A Busy step emits one event, and changes a chip register only when that is CE falling. -/
theorem step_busy_emits {s t : State} (hb : s.phase = .busy) (hf : s.arrivalFails = false) (h : step s = .next t) :
    ∃ e : Event, t.trace = e :: s.trace ∧ (e ≠ .set .ce false → t.chip.cr = s.chip.cr) := by
  obtain ⟨op, s1, h1, rfl⟩ := step_busy_inv hb hf h
  obtain ⟨e, he, hcr⟩ := perform_trace h1
  rw [arrive_trace] at he
  rw [arrive_chip] at hcr
  refine ⟨e, ?_⟩
  split
  · obtain ⟨-, htrace, hchip⟩ := settle_frame { s1 with mpc := s.mpc + 1, phase := .idle }
    rw [htrace, hchip]
    exact ⟨he, hcr⟩
  · exact ⟨he, hcr⟩

/-- Before the last event a Busy step keeps the control block and, but for what arrives, what waits and what is in progress (60_exceptions.md R242). -/
theorem step_busy_sameControl {s t : State} (hb : s.phase = .busy) (hf : s.arrivalFails = false) (h : step s = .next t)
    (hl : s.mpc + 1 ≠ transactionLength s.dir s.len) : SameControl s.arrive t := by
  obtain ⟨op, s1, h1, rfl⟩ := step_busy_inv hb hf h
  rw [if_neg hl]
  exact (perform_frame h1).sameControl

/-- Between its transactions a facade request emits nothing, or one of INIT's idle-setting events, which changes no chip register. -/
theorem step_task_emits {s t : State} (hi : s.phase = .idle) (he : s.engaged = true) (hf : s.arrivalFails = false) (h : step s = .next t) :
    t.trace = s.trace ∨
      ∃ e : Event, t.trace = e :: s.trace ∧ t.chip.cr = s.chip.cr ∧ ∃ op rest, s.task = some (.lines op rest) := by
  obtain ⟨-, -, rfl⟩ | ⟨-, -, hb, -, -, -⟩ | ⟨op, rest, s1, -, hk, h1, rfl⟩ | ⟨k, -, -, rfl⟩ := turn_cases (turn_of_step he hf h)
  · exact .inl (arrive_trace s)
  · simp [hi] at hb
  · obtain ⟨e, htrace, -⟩ := perform_trace h1
    have hcr := perform_cr_of_idle (by rw [arrive_phase, hi]) h1
    obtain ⟨-, hlines, -, hchip⟩ := linesLeft_frame rest s1
    exact .inr ⟨e, by rw [hlines, htrace, arrive_trace], by rw [hchip, hcr, arrive_chip], op, rest, by rw [← arrive_task, hk]⟩
  · obtain ⟨-, htrace, -⟩ := proceed_frame k s.arrive
    exact .inl (htrace.trans (arrive_trace s))

/-- An INIT that arrives to fail the binding finds an Unbound device, and its step emits nothing (60_exceptions.md R231, R236). -/
theorem step_arrivalFails_emits {s t : State} (he : s.engaged = true) (hf : s.arrivalFails = true) (h : step s = .next t) :
    t.trace = s.trace ∧ s.devState = .unbound := by
  rw [step_arrivalFails he hf, Host.Outcome.next.injEq] at h
  subst h
  exact ⟨rfl, (arrivalFails_iff.1 hf).1⟩

/-! ## Steps that serve -/

/-- What becomes of `s` when a request is served while nothing is in progress: it is answered at once, its transaction is accepted, it starts as the
request in progress, or it is one of the life cycle's. -/
inductive Served (s : State) : State → Prop
  | replied (r : Reply) : Served s (s.reply r)
  | accepted {c : Byte} {d : Direction} {n : Nat} {bytes : List Byte} (h : admission c d n bytes s = .accept) : Served s (accept c d bytes s)
  | started (k : Task) (h : s.bound = true) : Served s (s.start k)
  | bindingFailed (h : s.devState = .unbound) : Served s s.bindingFails
  | initStarted (ce clk data : Binding) (burst : Bool) (m : HourMode) (h : s.devState = .unbound) :
    Served s ((s.latchInit ce clk data burst m).linesLeft initOps)
  | unbound : Served s (s.unbound.reply (.ok .none))
  | powerCycled {t : State} (h : servePowerCycle s = .ok t) : Served s t

/-- Serving emits nothing: the events of what it accepts or starts are steps that follow. -/
theorem Served.trace_eq {s t : State} (h : Served s t) : t.trace = s.trace := by
  cases h with
  | replied r => rfl
  | accepted _ => rfl
  | started k _ =>
    obtain ⟨-, htrace, -⟩ := proceed_frame k { s with task := some k }
    exact htrace
  | bindingFailed _ => rfl
  | initStarted ce clk data burst m _ => rfl
  | unbound => rfl
  | powerCycled h => cases h; rfl

/-- A transaction waits only while something is in progress (R102 A1). -/
theorem admission_ne_hold {s : State} (he : s.engaged = false) (c : Byte) (d : Direction) (n : Nat) (bytes : List Byte) :
    admission c d n bytes s ≠ .hold := by
  simp only [admission, he, Bool.false_eq_true, if_false]
  split
  · nofun
  · split <;> nofun

theorem served_of_serveEngine {w : Waiting} {c : Byte} {d : Direction} {n : Nat} {bytes : List Byte} {s t : State} (he : s.engaged = false)
    (h : serveEngine w c d n bytes s = .ok t) : Served s t := by
  unfold serveEngine at h
  split at h
  · cases h; exact .replied _
  · exact absurd ‹_› (admission_ne_hold he c d n bytes)
  · cases h; exact .accepted ‹_›

theorem served_of_serveField {a : Byte} {w : Request} {go : Reg → State → Except Fault State} {s t : State} (he : s.engaged = false)
    (hgo : ∀ q, go q s = .ok t → Served s t) (h : serveField a w go s = .ok t) : Served s t := by
  simp only [serveField, he, Bool.false_eq_true, if_false] at h
  split at h
  · cases h; exact .replied _
  · split at h
    · cases h; exact .replied _
    · exact hgo _ h

theorem served_encode (τ : WallClock) (s : State) : Served s (serveEncode τ s) := by
  unfold serveEncode
  split
  · exact .replied _
  · exact .replied _

theorem served_of_serveClrWp {s t : State} (he : s.engaged = false) (h : serveClrWp s = .ok t) : Served s t := by
  simp only [serveClrWp, he, Bool.false_eq_true, if_false] at h
  split at h
  · cases h; exact .replied _
  · cases h; exact .started _ (eq_true_of_ne_false ‹_›)

theorem served_of_serveInit {ce clk data : Binding} {burst : Bool} {m : HourMode} {s t : State} (he : s.engaged = false)
    (h : serveInit ce clk data burst m s = .ok t) : Served s t := by
  simp only [serveInit, he, Bool.false_eq_true, if_false] at h
  split at h
  · cases h; exact .replied _
  · have hd : s.devState = .unbound := not_not.1 ‹_›
    split at h
    · cases h; exact .bindingFailed hd
    · cases h; exact .initStarted ce clk data burst m hd

theorem bound_of_ready {s : State} (h : s.devState = .ready) : s.bound = true := by simp [State.bound, h]

theorem served_of_serveReadTime {s t : State} (he : s.engaged = false) (h : serveReadTime s = .ok t) : Served s t := by
  simp only [serveReadTime, he, Bool.false_eq_true, if_false] at h
  split at h
  · cases h; exact .replied _
  · cases h; exact .started _ (bound_of_ready (not_not.1 ‹_›))

theorem served_of_serveSetTime {τ : WallClock} {s t : State} (he : s.engaged = false) (h : serveSetTime τ s = .ok t) : Served s t := by
  simp only [serveSetTime, he, Bool.false_eq_true, if_false] at h
  split at h
  · cases h; exact .replied _
  · have hd : s.devState = .ready := not_not.1 ‹_›
    split at h
    · cases h; exact .replied _
    · split at h
      · cases h; exact .replied _
      · cases h; exact .started _ (bound_of_ready hd)

theorem served_of_serveUnbind {s t : State} (he : s.engaged = false) (h : serveUnbind s = .ok t) : Served s t := by
  simp only [serveUnbind, he, Bool.false_eq_true, if_false] at h
  cases h
  exact .unbound

/-- Everything that serving a request can do while nothing is in progress. -/
theorem served_of_serveRequest {r : Request} {s t : State} (he : s.engaged = false) (h : serveRequest r s = .ok t) : Served s t := by
  cases r with
  | transact c d n bytes => exact served_of_serveEngine he h
  | rdb a => exact served_of_serveField he (fun _ => served_of_serveEngine he) h
  | wrb a v => exact served_of_serveField he (fun _ => served_of_serveEngine he) h
  | rdBurst => exact served_of_serveEngine he h
  | wrBurst bytes => exact served_of_serveEngine he h
  | decode raw => cases h; exact .replied _
  | encode τ => cases h; exact served_encode τ s
  | clrWp => exact served_of_serveClrWp he h
  | init ce clk data burst m => exact served_of_serveInit he h
  | readTime => exact served_of_serveReadTime he h
  | setTime τ => exact served_of_serveSetTime he h
  | unbind => exact served_of_serveUnbind he h
  | powerCycle => exact .powerCycled h

/-- An instruction is one framed command, served as its transaction is. -/
theorem served_of_exec {i : Instr} {s t : State} (he : s.engaged = false) (h : exec i s = .next t) : Served s t := by
  obtain ⟨c, d, n, bytes, hx, -⟩ := exec_engineCommand i s
  rw [hx, toOutcome_eq_next] at h
  exact served_of_serveEngine he h

theorem served_refuseFrame (bytes : List Byte) (s : State) : Served s (refuseFrame bytes s) := by
  unfold refuseFrame
  split
  · exact .replied _
  · split
    · exact .replied _
    · split
      · exact .replied _
      · exact .replied _

/-- With nothing in progress a step does nothing, or takes the next waiting request from the queue and serves it. -/
theorem step_served {s t : State} (he : s.engaged = false) (h : step s = .next t) :
    t = s ∨ ∃ w rest, s.pending = w :: rest ∧ Served { s with pending := rest } t := by
  cases hq : s.pending with
  | nil =>
    simp only [step, he, hq, Bool.false_eq_true, if_false, Host.Outcome.next.injEq] at h
    exact .inl h.symm
  | cons w rest =>
    refine .inr ⟨w, rest, rfl, ?_⟩
    cases w with
    | request r =>
      rw [step_request he hq, toOutcome_eq_next] at h
      exact served_of_serveRequest he h
    | frame bytes =>
      by_cases hd : ∃ i, decode s.params bytes = some (i, [])
      · obtain ⟨i, hi⟩ := hd
        rw [step_frame he hq hi] at h
        exact served_of_exec he h
      · rw [step_badFrame he hq (not_exists.1 hd), Host.Outcome.next.injEq] at h
        rw [← h]
        exact served_refuseFrame bytes _

/-- A step with nothing in progress emits no event (log entries 6 and 10). -/
theorem step_served_emits_none {s t : State} (he : s.engaged = false) (h : step s = .next t) : t.trace = s.trace := by
  obtain rfl | ⟨w, rest, -, hs⟩ := step_served he h
  · rfl
  · exact hs.trace_eq

/-! ## The obligations -/

/-- Settles O11: a step of what is in progress by `turn_cases`, one that serves by `step_served`. -/
theorem busyStepEmitsOneEvent : Obligations.BusyStepEmitsOneEvent := by
  unfold Obligations.BusyStepEmitsOneEvent
  intro s t h
  refine ⟨fun hb hf => ?_, fun hi he => ?_, fun he hf => step_arrivalFails_emits he hf h, fun he => step_served_emits_none he h⟩
  · obtain ⟨e, htrace, hcr⟩ := step_busy_emits hb hf h
    exact ⟨e, htrace, hcr, step_busy_sameControl hb hf h⟩
  · cases hf : s.arrivalFails with
    | false => exact step_task_emits hi he hf h
    | true =>
      obtain ⟨htrace, -⟩ := step_arrivalFails_emits he hf h
      exact .inl htrace

/-- Settles O7: a frame that decodes is the step's second branch, `step_frame`. -/
theorem stepRunsTheDecodedFrame : Obligations.StepRunsTheDecodedFrame := by
  unfold Obligations.StepRunsTheDecodedFrame
  intro s bytes rest i he hq hd
  exact step_frame he hq hd

end Sys2Proof.Machine

/-! The invariant along every step, and who writes the configuration (10_state.md R22 to R40). A step that serves needs `Serves`, which says more than
`Served`: which of the waiting requests leads to which outcome, and which facade requests it can start. -/
namespace Sys2Proof.Machine

open Sys2Proof

/-! ## What serving each waiting request can do -/

/-- What becomes of `s` when `w` is served while nothing is in progress. Only INIT, unbind and the power cycle reach the life cycle's outcomes; every
other request or frame is answered at once, has its transaction accepted, or starts as a facade request of a Ready device. -/
inductive Serves (s : State) : Waiting → State → Prop
  | replied (w : Waiting) (r : Reply) : Serves s w (s.reply r)
  | accepted (w : Waiting) {c : Byte} {d : Direction} {n : Nat} {bytes : List Byte} (h : admission c d n bytes s = .accept) :
    Serves s w (accept c d bytes s)
  | started (w : Waiting) (k : Task) (hb : s.bound = true) (hd : k.devState = .ready) (hk : k.isLines = false) : Serves s w (s.start k)
  | bindingFailed (ce clk data : Binding) (burst : Bool) (m : HourMode) (h : s.devState = .unbound) :
    Serves s (.request (.init ce clk data burst m)) s.bindingFails
  | initStarted (ce clk data : Binding) (burst : Bool) (m : HourMode) (h : s.devState = .unbound) :
    Serves s (.request (.init ce clk data burst m)) ((s.latchInit ce clk data burst m).linesLeft initOps)
  | unbound : Serves s (.request .unbind) (s.unbound.reply (.ok .none))
  | powerCycled {t : State} (h : servePowerCycle s = .ok t) : Serves s (.request .powerCycle) t

theorem serves_of_serveEngine {w w' : Waiting} {c : Byte} {d : Direction} {n : Nat} {bytes : List Byte} {s t : State} (he : s.engaged = false)
    (h : serveEngine w' c d n bytes s = .ok t) : Serves s w t := by
  unfold serveEngine at h
  split at h
  · cases h; exact .replied _ _
  · exact absurd ‹_› (admission_ne_hold he c d n bytes)
  · cases h; exact .accepted _ ‹_›

theorem serves_of_serveField {w : Waiting} {a : Byte} {r : Request} {go : Reg → State → Except Fault State} {s t : State}
    (he : s.engaged = false) (hgo : ∀ q, go q s = .ok t → Serves s w t) (h : serveField a r go s = .ok t) : Serves s w t := by
  simp only [serveField, he, Bool.false_eq_true, if_false] at h
  split at h
  · cases h; exact .replied _ _
  · split at h
    · cases h; exact .replied _ _
    · exact hgo _ h

theorem serves_of_serveClrWp {s t : State} (he : s.engaged = false) (h : serveClrWp s = .ok t) : Serves s (.request .clrWp) t := by
  simp only [serveClrWp, he, Bool.false_eq_true, if_false] at h
  split at h
  · cases h; exact .replied _ _
  · cases h; exact .started _ _ (eq_true_of_ne_false ‹_›) rfl rfl

theorem serves_of_serveInit {ce clk data : Binding} {burst : Bool} {m : HourMode} {s t : State} (he : s.engaged = false)
    (h : serveInit ce clk data burst m s = .ok t) : Serves s (.request (.init ce clk data burst m)) t := by
  simp only [serveInit, he, Bool.false_eq_true, if_false] at h
  split at h
  · cases h; exact .replied _ _
  · have hd : s.devState = .unbound := not_not.1 ‹_›
    split at h
    · cases h; exact .bindingFailed ce clk data burst m hd
    · cases h; exact .initStarted ce clk data burst m hd

theorem serves_of_serveReadTime {s t : State} (he : s.engaged = false) (h : serveReadTime s = .ok t) : Serves s (.request .readTime) t := by
  simp only [serveReadTime, he, Bool.false_eq_true, if_false] at h
  split at h
  · cases h; exact .replied _ _
  · have hb := bound_of_ready (not_not.1 ‹_›)
    cases h
    split
    · exact .started _ _ hb rfl rfl
    · exact .started _ _ hb rfl rfl

theorem serves_of_serveSetTime {τ : WallClock} {s t : State} (he : s.engaged = false) (h : serveSetTime τ s = .ok t) :
    Serves s (.request (.setTime τ)) t := by
  simp only [serveSetTime, he, Bool.false_eq_true, if_false] at h
  split at h
  · cases h; exact .replied _ _
  · have hb := bound_of_ready (not_not.1 ‹_›)
    split at h
    · cases h; exact .replied _ _
    · split at h
      · cases h; exact .replied _ _
      · cases h
        unfold RawTime.writes
        split
        · exact .started _ _ hb rfl rfl
        · exact .started _ _ hb rfl rfl

theorem serves_encode (τ : WallClock) (s : State) : Serves s (.request (.encode τ)) (serveEncode τ s) := by
  unfold serveEncode
  split
  · exact .replied _ _
  · exact .replied _ _

theorem serves_of_serveRequest {r : Request} {s t : State} (he : s.engaged = false) (h : serveRequest r s = .ok t) : Serves s (.request r) t := by
  cases r with
  | transact c d n bytes => exact serves_of_serveEngine he h
  | rdb a => exact serves_of_serveField he (fun _ => serves_of_serveEngine he) h
  | wrb a v => exact serves_of_serveField he (fun _ => serves_of_serveEngine he) h
  | rdBurst => exact serves_of_serveEngine he h
  | wrBurst bytes => exact serves_of_serveEngine he h
  | decode raw => cases h; exact .replied _ _
  | encode τ => cases h; exact serves_encode τ s
  | clrWp => exact serves_of_serveClrWp he h
  | init ce clk data burst m => exact serves_of_serveInit he h
  | readTime => exact serves_of_serveReadTime he h
  | setTime τ => exact serves_of_serveSetTime he h
  | unbind =>
    simp only [serveRequest, serveUnbind, he, Bool.false_eq_true, if_false] at h
    cases h
    exact .unbound
  | powerCycle => exact .powerCycled h

theorem serves_refuseFrame (w : Waiting) (bytes : List Byte) (s : State) : Serves s w (refuseFrame bytes s) := by
  unfold refuseFrame
  split
  · exact .replied _ _
  · split
    · exact .replied _ _
    · split
      · exact .replied _ _
      · exact .replied _ _

/-- With nothing in progress a step does nothing, or serves the request or frame at the head of the queue. -/
theorem step_serves {s t : State} (he : s.engaged = false) (h : step s = .next t) :
    t = s ∨ ∃ w rest, s.pending = w :: rest ∧ Serves { s with pending := rest } w t := by
  cases hq : s.pending with
  | nil =>
    simp only [step, he, hq, Bool.false_eq_true, if_false, Host.Outcome.next.injEq] at h
    exact .inl h.symm
  | cons w rest =>
    refine .inr ⟨w, rest, rfl, ?_⟩
    cases w with
    | request r =>
      rw [step_request he hq, toOutcome_eq_next] at h
      exact serves_of_serveRequest he h
    | frame bytes =>
      by_cases hd : ∃ i, decode s.params bytes = some (i, [])
      · obtain ⟨i, hi⟩ := hd
        obtain ⟨c, d, n, bs, hx, -⟩ := exec_engineCommand i { s with pending := rest }
        rw [step_frame he hq hi, hx, toOutcome_eq_next] at h
        exact serves_of_serveEngine he h
      · rw [step_badFrame he hq (not_exists.1 hd), Host.Outcome.next.injEq] at h
        rw [← h]
        exact serves_refuseFrame _ bytes _

/-! ## Serving keeps the invariant -/

/-- A device that is not Ready has no write-protect record (10_state.md R34). -/
theorem Inv.record_unknown {s : State} (h : Inv s) (hd : s.devState ≠ .ready) : s.wpRecord = .unknown :=
  not_not.1 fun hw => hd (h.record.1 hw)

/-- An admitted transaction passed the checks A0, A2 and A3 (40_transfer_engine.md R102). -/
theorem admission_accept {c : Byte} {d : Direction} {n : Nat} {bytes : List Byte} {s : State} (h : admission c d n bytes s = .accept) :
    s.bound = true ∧ (decodeCommand s.params c).isSome = true ∧ d = dirOf s.params c := by
  unfold admission at h
  split at h
  · cases h
  · have hb := eq_true_of_ne_false ‹_›
    split at h
    · cases h
    · split at h
      · cases h
      · have hc : operandCheck s.params c d n bytes = none := ‹_›
        unfold operandCheck at hc
        split at hc
        · cases hc
        · have hk : ¬(decodeCommand s.params c).isNone = true := ‹_›
          split at hc
          · cases hc
          · exact ⟨hb, by simpa [Option.isSome_iff_ne_none] using hk, not_not.1 ‹_›⟩

/-- INIT's acquisition and latching, before its first idle-setting event, keeps the invariant. -/
theorem Inv.initStarted {s : State} (h : Inv s) (he : s.engaged = false) (hd : s.devState = .unbound) (ce clk data : Binding) (burst : Bool)
    (m : HourMode) : Inv ((s.latchInit ce clk data burst m).linesLeft initOps) :=
  Inv.linesLeft (s := s.latchInit ce clk data burst m) (n := 0) h.params h.memory (engaged_idle he) hd
    (h.record_unknown (by rw [hd]; decide)) ⟨rfl, rfl, rfl, rfl, rfl⟩ ⟨nofun, nofun, nofun, nofun, nofun⟩ rfl nofun

/-- The control block created afresh has the invariant (10_state.md R40). -/
theorem Inv.unbound {s : State} (h : Inv s) : Inv s.unbound :=
  ⟨h.params, h.memory, nofun, nofun, nofun, nofun, nofun, fun hb => hb.elim nofun nofun, fun _ _ => ⟨rfl, rfl, rfl, rfl, rfl⟩,
    ⟨fun hw => absurd rfl hw, nofun⟩⟩

/-- The registers a power cycle leaves are canonical, whatever the chip retained. -/
theorem Inv.powerCycle {s t : State} (h : Inv s) (ht : servePowerCycle s = .ok t) : Inv t := by
  cases ht
  exact h.unbound.update s.buf (setRegs_wf h.memory _ _) _ _ _ _ _

theorem Inv.serves {s t : State} {w : Waiting} (h : Inv s) (he : s.engaged = false) (hs : Serves s w t) : Inv t := by
  cases hs with
  | replied _ r => exact h.reply r
  | accepted _ ha =>
    obtain ⟨hb, hc, hd⟩ := admission_accept ha
    exact h.accept (engaged_idle he) hb _ hc hd fun k hk => by rw [engaged_task he] at hk; cases hk
  | started _ k hb hd hk => exact h.start he ((h.ready he hb).trans hd.symm) hk
  | bindingFailed _ _ _ _ _ hd => exact h.bindingFails hd
  | initStarted ce clk data burst m hd => exact h.initStarted he hd ce clk data burst m
  | unbound => exact h.unbound.reply _
  | powerCycled ht => exact h.powerCycle ht

/-! ## What a step writes of the configuration -/

/-- Serving anything but INIT, unbind and a power cycle writes nothing of the configuration; INIT makes no record, and unbind and a power cycle start it
afresh (10_state.md R31 to R35). -/
theorem Serves.config {s t : State} {w : Waiting} (h : Serves s w t) :
    (TurnFrame s t ∧ t.devState = s.devState ∧ t.wpRecord = s.wpRecord) ∨
      (t.params = s.params ∧
        ((t.wpRecord = s.wpRecord ∧ ∃ ce clk data burst m, w = .request (.init ce clk data burst m)) ∨
          (t.wpRecord = .unknown ∧ (w = .request .unbind ∨ w = .request .powerCycle)))) := by
  cases h with
  | replied _ r => exact .inl ⟨⟨rfl, rfl, rfl, rfl, rfl, rfl, rfl, rfl⟩, rfl, rfl⟩
  | accepted _ _ => exact .inl ⟨⟨rfl, rfl, rfl, rfl, rfl, rfl, rfl, rfl⟩, rfl, rfl⟩
  | started _ k _ _ _ =>
    obtain ⟨hf, -, hw, hd, -⟩ := proceed_frame k { s with task := some k }
    exact .inl ⟨⟨hf.params, hf.burstMode, hf.hourMode, hf.ceBinding, hf.clkBinding, hf.dataBinding, hf.pending, hf.arrivals⟩, hd, hw⟩
  | bindingFailed ce clk data burst m _ => exact .inr ⟨rfl, .inl ⟨rfl, ce, clk, data, burst, m, rfl⟩⟩
  | initStarted ce clk data burst m _ => exact .inr ⟨rfl, .inl ⟨rfl, ce, clk, data, burst, m, rfl⟩⟩
  | unbound => exact .inr ⟨rfl, .inr ⟨rfl, .inl rfl⟩⟩
  | powerCycled ht => cases ht; exact .inr ⟨rfl, .inr ⟨rfl, .inr rfl⟩⟩

/-- What is in progress makes a record only at the end of a transaction of the write-protect clear, and moves the device state only as INIT
(10_state.md R33, R35). -/
theorem turn_record {s t : State} (h : turn s = .ok t) :
    (t.devState = s.devState ∨ (∃ op rest, s.task = some (.lines op rest)) ∨ s.task = some (.readWp true) ∨ s.task = some (.clearWp true)) ∧
      (t.wpRecord = s.wpRecord ∨
        (t.wpRecord ≠ .unknown ∧ s.phase = .busy ∧ ∃ init, s.task = some (.readWp init) ∨ s.task = some (.clearWp init))) := by
  obtain ⟨-, -, rfl⟩ | ⟨op, s1, hb, -, h1, rfl⟩ | ⟨op, rest, s1, -, hk, h1, rfl⟩ | ⟨k, -, -, rfl⟩ := turn_cases h
  · exact ⟨.inl rfl, .inl rfl⟩
  · have hf := perform_frame h1
    split
    · obtain ⟨hw, hd⟩ | ⟨hw, init, hk, hd⟩ := settle_record { s1 with mpc := s.mpc + 1, phase := .idle }
      · exact ⟨.inl (hd.trans hf.devState), .inl (hw.trans hf.wpRecord)⟩
      · simp only [hf.task] at hk
        refine ⟨?_, .inr ⟨hw, hb, init, hk⟩⟩
        obtain hd | rfl := hd
        · exact .inl (hd.trans hf.devState)
        · exact .inr (.inr hk)
    · exact ⟨.inl hf.devState, .inl hf.wpRecord⟩
  · obtain ⟨-, -, hw, -⟩ := linesLeft_frame rest s1
    exact ⟨.inr (.inl ⟨op, rest, hk⟩), .inl (hw.trans (perform_frame h1).wpRecord)⟩
  · obtain ⟨-, -, hw, hd, -⟩ := proceed_frame k s
    exact ⟨.inl hd, .inl hw⟩

/-! ## The obligations -/

/-- Settles O57: what is in progress keeps the invariant by `Inv.step_engaged`, and what is served by `Inv.serves`. -/
theorem everyStepKeepsTheInvariant : Obligations.EveryStepKeepsTheInvariant := by
  unfold Obligations.EveryStepKeepsTheInvariant
  intro s t h ht
  cases he : s.engaged with
  | true =>
    obtain ⟨u, hu, hinv⟩ := h.step_engaged he
    rw [hu, Host.Outcome.next.injEq] at ht
    exact ht ▸ hinv
  | false =>
    obtain rfl | ⟨w, rest, -, hs⟩ := step_serves he ht
    · exact h
    · exact (h.queue rest).serves he hs

/-- Settles O59: a failed binding, a move of what is in progress (`turn_frame`, `turn_record`), or a request that is served (`Serves.config`). -/
theorem onlyLifeCycleRequestsWriteTheConfiguration : Obligations.OnlyLifeCycleRequestsWriteTheConfiguration := by
  unfold Obligations.OnlyLifeCycleRequestsWriteTheConfiguration
  intro s t h serves restarts begins fails
  cases he : s.engaged with
  | true =>
    cases hf : s.arrivalFails with
    | true =>
      rw [step_arrivalFails he hf, Host.Outcome.next.injEq] at h
      subst h
      exact ⟨rfl, fun _ => ⟨rfl, rfl, rfl, rfl, rfl, rfl⟩, fun _ _ hn => absurd ⟨he, hf⟩ hn, .inl rfl⟩
    | false =>
      have ht := turn_of_step he hf h
      have hframe := turn_frame ht
      obtain ⟨hdev, hrec⟩ := turn_record ht
      obtain ⟨as, ps, rs, ha⟩ := arrive_frame s
      rw [ha] at hframe hdev hrec
      refine ⟨hframe.params, fun hx => ?_, fun _ _ _ => ⟨hframe.burstMode, hframe.hourMode, hframe.ceBinding, hframe.clkBinding,
        hframe.dataBinding, hdev⟩, hrec.imp_right .inl⟩
      exact absurd (hf.symm.trans hx.2) nofun
  | false =>
    have hnf : ¬fails := fun hx => absurd (he.symm.trans hx.1) nofun
    obtain rfl | ⟨w, rest, hq, hs⟩ := step_serves he h
    · exact ⟨rfl, fun hx => absurd hx hnf, fun _ _ _ => ⟨rfl, rfl, rfl, rfl, rfl, .inl rfl⟩, .inl rfl⟩
    · have hserves : ∀ r, w = .request r → serves r := fun r hr => ⟨he, by rw [hq, hr]; rfl⟩
      obtain ⟨hframe, hdev, hrec⟩ | ⟨hp, ⟨hrec, ce, clk, data, burst, m, hw⟩ | ⟨hrec, hw⟩⟩ := hs.config
      · exact ⟨hframe.params, fun hx => absurd hx hnf, fun _ _ _ => ⟨hframe.burstMode, hframe.hourMode, hframe.ceBinding, hframe.clkBinding,
          hframe.dataBinding, .inl hdev⟩, .inl hrec⟩
      · exact ⟨hp, fun hx => absurd hx hnf, fun _ hn => absurd ⟨ce, clk, data, burst, m, hserves _ hw⟩ hn, .inl hrec⟩
      · have hr : restarts := hw.imp (hserves _) (hserves _)
        exact ⟨hp, fun hx => absurd hx hnf, fun hn => absurd hr hn, .inr (.inr ⟨hrec, hr⟩)⟩

end Sys2Proof.Machine

/-! The chip's register file across a transaction (20_memory.md R50 to R64): the wire order of a write's bits, what a read of the reference chip returns,
what a write leaves at every address, and what the chip's own timekeeping may change. -/
namespace Sys2Proof.Machine

open Sys2Proof

/-! ## The wire order (20_memory.md R53, R54) -/

/-- The start phase shows no rising edge of CLK and leaves DATA and CLK low. -/
theorem dataAtRise_start (es : List Event) : dataAtRise false false (eventsOf startOps [] ++ es) = dataAtRise false false es := rfl

theorem byteBits_eq :
    byteBits = fun v => [v.getLsbD 0, v.getLsbD 1, v.getLsbD 2, v.getLsbD 3, v.getLsbD 4, v.getLsbD 5, v.getLsbD 6, v.getLsbD 7] := rfl

/-- Settles O18: of the three phases only the shift-out has rising edges, and it shows one bit at each. -/
theorem writeShowsBitsLeastSignificantFirst : Obligations.WriteShowsBitsLeastSignificantFirst := by
  unfold Obligations.WriteShowsBitsLeastSignificantFirst
  intro c n b
  rw [eventsOf_write, dataAtRise_start, dataAtRise_shiftBits, dataAtRise_stop, List.append_nil, byteBits_eq]

/-! ## Reads of the reference chip (20_memory.md R60) -/

theorem bufBytes_one (b : Vector Byte 8) : bufBytes b .one = [bufByte b 0] := rfl

/-- Settles O29: the accepted read runs to its end (`run_readOf`), and the byte sampled is the register's (`afterRead_byte`). -/
theorem referenceReadReturnsTheRegister : Obligations.ReferenceReadReturnsTheRegister := by
  unfold Obligations.ReferenceReadReturnsTheRegister
  intro r s hs ha ho
  have hp := canTransact_params hs
  refine ⟨_, _, exec_readOf_next hs r, run_readOf hs ha r, ?_, afterRead_reference_cr ho _⟩
  rw [State.deliver_replies, afterRead_result, dataLen_cmdRead hp, bufBytes_one, afterRead_byte hp ho, afterRead_replies]

/-- Settles O32: as for a discrete read, with the eight bytes of `afterRead_burst`. -/
theorem referenceBurstReadReturnsAllRegisters : Obligations.ReferenceBurstReadReturnsAllRegisters := by
  unfold Obligations.ReferenceBurstReadReturnsAllRegisters
  intro s hs ha ho
  refine ⟨_, _, exec_rdBurst_next hs, run_rdBurst hs ha, afterRead_reference_cr ho _, ?_⟩
  rw [State.deliver_replies, afterRead_result, dataLen_burstRead, afterRead_burst (canTransact_params hs) ho, afterRead_replies]
  rfl

/-! ## What a discrete write leaves at every address (20_memory.md R58, R59) -/

/-- A write's events are those of the buffer it leaves: a write samples nothing into it. -/
theorem afterWrite_trace_buf (s : State) (c : Byte) (bytes : List Byte) :
    (s.afterWrite c bytes).trace =
      (eventsOf (transactionOps c .write (dataLen s.params c) (s.afterWrite c bytes).buf) []).reverse ++ s.trace :=
  afterWrite_trace s c bytes

/-- After a discrete write only its own register can differ from what the timekeeping left, and it holds the byte unless the guard bit blocks it. -/
theorem afterWrite_read {s : State} (hp : s.params.wf = true) (hm : s.chip.cr.wf = true) (r : Reg) (v : Byte) (a : Nat) :
    (s.afterWrite (cmdWrite s.params (r.field s.params)) [v]).chip.cr.read a =
      if a = r.addr ∧ (s.chip.cr.guarded s.params = false ∨ r = .wp) then v else (s.chip.tick s.draws).1.cr.read a := by
  rw [afterWrite_reg hp, tick_guarded hm]
  cases hg : s.chip.cr.guarded s.params with
  | false => simp [read_setReg (tick_wf hm _)]
  | true =>
    by_cases hr : r = .wp
    · simp [hr, read_setReg (tick_wf hm _)]
    · simp [hr]

/-- A discrete write latches its byte in the first buffer entry alone. -/
theorem afterWrite_bufByte_one {s : State} (hp : s.params.wf = true) (r : Reg) (v : Byte) (k : Nat) :
    bufByte (s.afterWrite (cmdWrite s.params (r.field s.params)) [v]).buf k = if k = 0 then v else bufByte s.buf k := by
  rw [afterWrite_buf, dataLen_cmdWrite hp, bufByte_latch]
  cases k with
  | zero => rfl
  | succ k => simp

/-- Settles O30: the accepted write runs to its end (`run_writeOf`), and `afterWrite_read` gives every address. -/
theorem discreteWriteEffectAndFrame : Obligations.DiscreteWriteEffectAndFrame := by
  unfold Obligations.DiscreteWriteEffectAndFrame
  intro r v s hs ha hm
  have hp := canTransact_params hs
  have hread := afterWrite_read hp hm r v
  have hlen := dataLen_cmdWrite hp r
  have hbuf := afterWrite_bufByte_one hp r v
  refine ⟨_, _, exec_writeOf_next hs r v, rfl, rfl, run_writeOf hs ha r v, rfl, ?_, fun hg => ?_, fun hg hr => ?_, fun a hne => ?_, rfl, rfl, hlen,
    hbuf 0, fun k hk => ?_, rfl, rfl, (afterWrite_frame _ _ _).deliver⟩
  · have htrace := afterWrite_trace_buf s (cmdWrite s.params (r.field s.params)) [v]
    rwa [hlen] at htrace
  · exact (hread r.addr).trans (if_pos ⟨rfl, hg⟩)
  · exact (hread r.addr).trans (if_neg (by simp [hg, hr]))
  · exact (hread a).trans (if_neg fun h => hne h.1)
  · exact (hbuf k).trans (if_neg (by omega))

/-- Settles O35: the written register holds `v` (`afterWrite_read`), and the read is that of the reference chip the write left. -/
theorem readAfterWriteReturnsTheValue : Obligations.ReadAfterWriteReturnsTheValue := by
  unfold Obligations.ReadAfterWriteReturnsTheValue
  intro r v s hs ha hm ho hg
  have hs' : (s.afterWrite (cmdWrite s.params (r.field s.params)) [v]).deliver.canTransact = true := by
    rw [State.deliver_canTransact, afterWrite_canTransact hs]
  have ho' : (s.afterWrite (cmdWrite s.params (r.field s.params)) [v]).deliver.chip.oracle = .reference := by
    rw [State.deliver_chip, afterWrite_oracle, ho]
  obtain ⟨b, u, hexec, hrun, hreplies, -⟩ := referenceReadReturnsTheRegister r _ hs' ha ho'
  have hreg : (s.afterWrite (cmdWrite s.params (r.field s.params)) [v]).chip.cr.reg r = v :=
    (afterWrite_read (canTransact_params hs) hm r v r.addr).trans (if_pos ⟨rfl, .inl hg⟩)
  refine ⟨_, _, b, u, exec_writeOf_next hs r v, run_writeOf hs ha r v, hexec, hrun, ?_⟩
  rw [hreplies, State.deliver_chip, hreg, State.deliver_replies, afterWrite_result, afterWrite_replies]

/-! ## What a burst write leaves (20_memory.md R51, R58, R59) -/

/-- Whatever the guard bit, a burst write touches no address that is no register's. -/
theorem afterWrite_burst_read_outside {s : State} (hp : s.params.wf = true) (hm : s.chip.cr.wf = true) (bytes : List Byte) {a : Nat}
    (ha : ∀ r : Reg, a ≠ r.addr) :
    (s.afterWrite (burstWriteAddr s.params) bytes).chip.cr.read a = (s.chip.tick s.draws).1.cr.read a := by
  rw [afterWrite_burst hp]
  split
  · exact read_setRegs_outside (tick_wf hm _) _ _ ha
  · exact read_setRegs_outside (tick_wf hm _) _ _ ha

/-- A burst write latches all eight buffer entries. -/
theorem bufByte_latch_eight (bytes : List Byte) (b : Vector Byte 8) {k : Nat} (hk : k < 8) :
    bufByte (latch .write .eight bytes b) k = bytes.getD k 0#8 := (bufByte_latch _ _ _ _ _).trans (if_pos hk)

/-- With the guard bit clear register `k` takes byte `k`. -/
theorem afterWrite_burst_reg {s : State} (hp : s.params.wf = true) (hm : s.chip.cr.wf = true) (hg : s.chip.cr.guarded s.params = false)
    (bytes : List Byte) (r : Reg) : (s.afterWrite (burstWriteAddr s.params) bytes).chip.cr.reg r = bytes.getD r.index 0#8 := by
  rw [afterWrite_burst hp, tick_guarded hm, hg, if_neg Bool.false_ne_true, reg_setRegs (tick_wf hm _), if_pos (mem_all r),
    bufByte_latch_eight bytes _ (index_lt r)]

theorem afterWrite_burst_bufByte (s : State) (bytes : List Byte) {k : Nat} (hk : k < 8) :
    bufByte (s.afterWrite (burstWriteAddr s.params) bytes).buf k = bytes.getD k 0#8 := by
  rw [afterWrite_buf, dataLen_burstWrite, bufByte_latch_eight bytes _ hk]

theorem afterWrite_burst_trace (s : State) (bytes : List Byte) :
    (s.afterWrite (burstWriteAddr s.params) bytes).trace =
      (eventsOf (transactionOps (burstWriteAddr s.params) .write .eight (s.afterWrite (burstWriteAddr s.params) bytes).buf) []).reverse ++ s.trace := by
  have htrace := afterWrite_trace_buf s (burstWriteAddr s.params) bytes
  rwa [dataLen_burstWrite] at htrace

/-- Settles O33: the accepted burst runs to its end (`run_wrBurst`), and its bytes are in the registers (`afterWrite_burst_reg`). -/
theorem burstWriteEffectAndFrame : Obligations.BurstWriteEffectAndFrame := by
  unfold Obligations.BurstWriteEffectAndFrame
  intro bytes s hs ha hm hlen hg
  have hp := canTransact_params hs
  exact ⟨_, _, exec_wrBurst_next hs hlen, rfl, rfl, run_wrBurst hs ha bytes, rfl, afterWrite_burst_trace s bytes,
    afterWrite_burst_reg hp hm hg bytes, fun _ => afterWrite_burst_read_outside hp hm bytes, rfl, rfl, dataLen_burstWrite,
    fun _ => afterWrite_burst_bufByte s bytes, rfl, rfl, (afterWrite_frame _ _ _).deliver⟩

/-- Settles O34: the burst completes as an unguarded one does; of the registers it is said that they stay canonical (`takeWrite_wf`). -/
theorem guardedBurstWriteCompletes : Obligations.GuardedBurstWriteCompletes := by
  unfold Obligations.GuardedBurstWriteCompletes
  intro bytes s hs ha hm hlen _
  exact ⟨_, _, exec_wrBurst_next hs hlen, rfl, rfl, run_wrBurst hs ha bytes, rfl, afterWrite_burst_trace s bytes,
    takeWrite_wf (tick_wf hm _) _ _ _ _, fun _ => afterWrite_burst_read_outside (canTransact_params hs) hm bytes,
    fun _ => afterWrite_burst_bufByte s bytes, rfl, rfl, (afterWrite_frame _ _ _).deliver⟩

/-! ## The chip's timekeeping, premise by premise (20_memory.md R61) -/

/-- The reference chip alone is frozen. -/
theorem frozen_eq_false_iff {o : Oracle} : o.frozen = false ↔ o ≠ .reference := by cases o <;> simp [Oracle.frozen]

section RunningTime
variable {x : Chip} (hf : x.oracle.frozen = false) (n : Nat)
include hf

/-- A premise that is a calendar becomes the contents of `CR[0..6]`. -/
theorem tick_calendar {t : RawTime} {ts : List (Option RawTime)} (h : x.ticks = some t :: ts) :
    x.tick n = ({ x with ticks := ts, cr := x.cr.setRegs (fun k => t.toList.getD k 0#8) Reg.calendar }, n) := by
  simp [Chip.tick, hf, h]

/-- A premise that is none is used up, and nothing else changes. -/
theorem tick_none {ts : List (Option RawTime)} (h : x.ticks = none :: ts) : x.tick n = ({ x with ticks := ts }, n) := by
  simp [Chip.tick, hf, h]

/-- With no premise left the calendar registers are drawn. -/
theorem tick_drawn (h : x.ticks = []) :
    x.tick n = ({ x with cr := x.cr.setRegs (fun k => Config.freeByte (n + k)) Reg.calendar }, n + 7) := by
  simp [Chip.tick, hf, h]

end RunningTime

/-- Writing the seven bytes of `t` in register order makes `t` the calendar. -/
theorem calendar_setRegs {m : Memory} (hm : m.wf = true) (t : RawTime) :
    (m.setRegs (fun k => t.toList.getD k 0#8) Reg.calendar).calendar = t := by
  simp only [Memory.calendar, reg_setRegs hm, mem_calendar, ne_eq, reduceCtorEq, not_false_eq_true, if_true]
  rfl

/-- Settles O37: what stays is `tick_wf`, `tick_wp`, `tick_oracle` and `tick_bitPos`; the rest is by the oracle and the next premise. -/
theorem ticksTouchTheCalendarAlone : Obligations.TicksTouchTheCalendarAlone := by
  unfold Obligations.TicksTouchTheCalendarAlone
  intro x n hm
  refine ⟨tick_wf hm n, tick_wp hm n, tick_oracle x n, tick_bitPos x n, fun ho => ?_, fun ho => ?_⟩
  · rw [tick_reference ho]
    exact ⟨rfl, rfl⟩
  · have hf := frozen_eq_false_iff.2 ho
    refine ⟨fun t ts h => ?_, fun ts h => ?_, fun h => ?_⟩
    · rw [tick_calendar hf n h]
      exact ⟨calendar_setRegs hm t, rfl, rfl⟩
    · rw [tick_none hf n h]
      exact ⟨rfl, rfl, rfl⟩
    · rw [tick_drawn hf n h]
      exact ⟨fun r hr => (reg_setRegs hm _ _ r).trans (if_pos ((mem_calendar r).2 hr)), h, rfl⟩

end Sys2Proof.Machine

/-! The encoding (30_encoding.md R70 to R76): the decoder and the encoder are inverse, and which command bytes are refused under the defaults. -/
namespace Sys2Proof.Machine

open Sys2Proof

/-! ## What the decoder answers, by the command of the first byte (30_encoding.md R70) -/

section DecodeCons
variable {p : Params} {c : Byte}

theorem decode_refused (h : decodeCommand p c = none) (bs : List Byte) : decode p (c :: bs) = none := by
  simp only [decode, h]

theorem decode_read {r : Reg} (h : decodeCommand p c = some (.read r)) (bs : List Byte) : decode p (c :: bs) = some (.readOf r, bs) := by
  simp only [decode, h]

theorem decode_readBurst (h : decodeCommand p c = some .readBurst) (bs : List Byte) : decode p (c :: bs) = some (.rdBurst, bs) := by
  simp only [decode, h]

theorem decode_write_nil {r : Reg} (h : decodeCommand p c = some (.write r)) : decode p [c] = none := by
  simp only [decode, h]

theorem decode_write_cons {r : Reg} (h : decodeCommand p c = some (.write r)) (v : Byte) (bs : List Byte) :
    decode p (c :: v :: bs) = some (.writeOf r v, bs) := by
  simp only [decode, h]

theorem decode_writeBurst (h : decodeCommand p c = some .writeBurst) (bs : List Byte) :
    decode p (c :: bs) = if 8 ≤ bs.length then some (.wrBurst (bs.take 8), bs.drop 8) else none := by
  simp only [decode, h]

end DecodeCons

theorem wellFormed_readOf (r : Reg) : WellFormed (.readOf r) := by cases r <;> rfl

theorem wellFormed_writeOf (r : Reg) (v : Byte) : WellFormed (.writeOf r v) := by cases r <;> rfl

theorem wellFormed_wrBurst_iff {bytes : List Byte} : WellFormed (.wrBurst bytes) ↔ bytes.length = 8 := beq_iff_eq

/-! ## The two are inverse -/

/-- Settles O1: by the instruction's shape, since its command byte decodes to its command (`decodeCommand_byte`). -/
theorem decodeInvertsEncode : Obligations.DecodeInvertsEncode := by
  unfold Obligations.DecodeInvertsEncode
  intro p i rest hp hw
  obtain ⟨r, rfl⟩ | ⟨r, v, rfl⟩ | rfl | ⟨bytes, rfl⟩ := instr_shapes i
  · rw [encode_readOf]
    exact decode_read (decodeCommand_cmdRead hp r) rest
  · rw [encode_writeOf]
    exact decode_write_cons (decodeCommand_cmdWrite hp r) v rest
  · exact decode_readBurst (decodeCommand_burstRead hp) rest
  · have hlen : bytes.length = 8 := wellFormed_wrBurst_iff.1 hw
    refine (decode_writeBurst (decodeCommand_burstWrite hp) (bytes ++ rest)).trans ?_
    rw [if_pos (by simp [hlen]), List.take_left' hlen, List.drop_left' hlen]

/-- Settles O2: by the command of the first byte, which is that command's byte (`byte_of_decode`). -/
theorem decodedBytesAreAnEncoding : Obligations.DecodedBytesAreAnEncoding := by
  unfold Obligations.DecodedBytesAreAnEncoding
  intro p bs rest i h
  cases bs with
  | nil => cases h
  | cons c bs =>
    cases hk : decodeCommand p c with
    | none =>
      rw [decode_refused hk] at h
      cases h
    | some k =>
      obtain rfl : k.byte p = c := byte_of_decode hk
      cases k with
      | read r =>
        rw [decode_read hk] at h
        cases h
        rw [encode_readOf]
        exact ⟨wellFormed_readOf r, rfl⟩
      | write r =>
        cases bs with
        | nil =>
          rw [decode_write_nil hk] at h
          cases h
        | cons v bs =>
          rw [decode_write_cons hk] at h
          cases h
          rw [encode_writeOf]
          exact ⟨wellFormed_writeOf r v, rfl⟩
      | readBurst =>
        rw [decode_readBurst hk] at h
        cases h
        exact ⟨rfl, rfl⟩
      | writeBurst =>
        rw [decode_writeBurst hk] at h
        split at h
        · cases h
          exact ⟨wellFormed_wrBurst_iff.2 (List.length_take_of_le ‹_›), congrArg _ (List.take_append_drop 8 bs).symm⟩
        · cases h

/-! ## The refused command bytes (30_encoding.md R74, R76) -/

/-- A byte is refused when it is no command's. -/
theorem decodeCommand_eq_none_iff {p : Params} {c : Byte} : decodeCommand p c = none ↔ ∀ k : Command, k.byte p ≠ c := by
  simp only [decodeCommand, List.find?_eq_none, beq_iff_eq]
  exact ⟨fun h k => h k (mem_commands k), fun h k _ => h k⟩

theorem decodeCommand_isSome_iff {p : Params} {c : Byte} : (decodeCommand p c).isSome = true ↔ ∃ k : Command, k.byte p = c := by
  rw [← Option.ne_none_iff_isSome, Ne, decodeCommand_eq_none_iff, not_forall_not]

/-- Of the 256 bytes 18 are admitted, one for each command. -/
theorem countP_admitted {p : Params} (hp : p.wf = true) :
    ((List.range 256).countP fun n => (decodeCommand p (BitVec.ofNat 8 n)).isSome) = 18 := by
  have hnodup : (Command.all.map fun k => (k.byte p).toNat).Nodup :=
    .map (fun _ _ h => byte_inj hp (BitVec.eq_of_toNat_eq h)) (by decide)
  have hperm : ((List.range 256).filter fun n => (decodeCommand p (BitVec.ofNat 8 n)).isSome).Perm
      (Command.all.map fun k => (k.byte p).toNat) := by
    refine (List.perm_ext_iff_of_nodup (List.nodup_range.filter _) hnodup).2 fun n => ?_
    simp only [List.mem_filter, List.mem_range, List.mem_map, decodeCommand_isSome_iff]
    constructor
    · rintro ⟨hn, k, hk⟩
      exact ⟨k, mem_commands k, by rw [hk, BitVec.toNat_ofNat, Nat.mod_eq_of_lt hn]⟩
    · rintro ⟨k, -, rfl⟩
      exact ⟨(k.byte p).isLt, k, by simp⟩
  rw [List.countP_eq_length_filter, hperm.length_eq, List.length_map]
  rfl

/-- The other 238 are refused. -/
theorem countP_refused {p : Params} (hp : p.wf = true) :
    ((List.range 256).countP fun n => (decodeCommand p (BitVec.ofNat 8 n)).isNone) = 238 := by
  have hsplit := List.length_eq_countP_add_countP (fun n => (decodeCommand p (BitVec.ofNat 8 n)).isSome) (l := List.range 256)
  simp only [countP_admitted hp, List.length_range, decide_not, Bool.decide_eq_true, Option.not_isSome] at hsplit
  omega

/-- The register select of a command in the default layout: its register's index, or 31 for the burst (30_encoding.md R70). -/
def commandSelect : Command → Nat
  | .read r => r.index
  | .write r => r.index
  | .readBurst => 31
  | .writeBurst => 31

/-- The four fields of a command's byte in the default layout (30_encoding.md R70): frame bit, RAM bit, select and direction bit. -/
theorem default_byte_fields (k : Command) :
    (k.byte .default).getLsbD 7 = true ∧ (k.byte .default).getLsbD 6 = false ∧ regSelect (k.byte .default) = commandSelect k ∧
      ((k.byte .default).getLsbD 0 = true ↔ k.direction = .read) := by
  cases k with
  | read r => cases r <;> decide
  | write r => cases r <;> decide
  | readBurst => decide
  | writeBurst => decide

/-- The four fields determine the byte. -/
theorem byte_eq_of_fields {b c : Byte} (h7 : b.getLsbD 7 = c.getLsbD 7) (h6 : b.getLsbD 6 = c.getLsbD 6) (hs : regSelect b = regSelect c)
    (h0 : b.getLsbD 0 = c.getLsbD 0) : b = c := by
  have hA : b.extractLsb 5 1 = c.extractLsb 5 1 := BitVec.eq_of_toNat_eq hs
  have hbit (j : Nat) (hj : j ≤ 4) : b.getLsbD (1 + j) = c.getLsbD (1 + j) := by
    simpa [BitVec.getLsbD_extractLsb, hj] using congrArg (·.getLsbD j) hA
  refine BitVec.eq_of_getLsbD_eq fun i hi => ?_
  obtain rfl | ⟨h1, h5⟩ | rfl | rfl : i = 0 ∨ (1 ≤ i ∧ i - 1 ≤ 4) ∨ i = 6 ∨ i = 7 := by omega
  · exact h0
  · simpa [Nat.add_sub_cancel' h1] using hbit (i - 1) h5
  · exact h6
  · exact h7

/-- Every select of a register or of the burst has a command in each direction. -/
theorem exists_command {n : Nat} (hn : n < 8 ∨ n = 31) (read : Bool) :
    ∃ k : Command, commandSelect k = n ∧ (k.direction = .read ↔ read = true) := by
  obtain hn | rfl := hn
  · obtain ⟨r, rfl⟩ : ∃ r : Reg, r.index = n := ⟨Reg.all[n], by interval_cases n <;> rfl⟩
    cases read with
    | true => exact ⟨.read r, rfl, iff_of_true rfl rfl⟩
    | false => exact ⟨.write r, rfl, iff_of_false nofun nofun⟩
  · cases read with
    | true => exact ⟨.readBurst, rfl, iff_of_true rfl rfl⟩
    | false => exact ⟨.writeBurst, rfl, iff_of_false nofun nofun⟩

/-- A command selects a register or the burst. -/
theorem commandSelect_range (k : Command) : commandSelect k < 8 ∨ commandSelect k = 31 := by
  cases k with
  | read r => exact .inl (index_lt r)
  | write r => exact .inl (index_lt r)
  | readBurst => exact .inr rfl
  | writeBurst => exact .inr rfl

/-- The admitted bytes under the defaults, by their fields (30_encoding.md R70, R74). -/
theorem default_admitted_iff {c : Byte} :
    (∃ k : Command, k.byte .default = c) ↔ c.getLsbD 7 = true ∧ c.getLsbD 6 = false ∧ (regSelect c < 8 ∨ regSelect c = 31) := by
  constructor
  · rintro ⟨k, rfl⟩
    obtain ⟨h7, h6, hs, -⟩ := default_byte_fields k
    exact ⟨h7, h6, hs ▸ commandSelect_range k⟩
  · rintro ⟨h7, h6, hs⟩
    obtain ⟨k, hk, hd⟩ := exists_command hs (c.getLsbD 0)
    obtain ⟨k7, k6, ks, k0⟩ := default_byte_fields k
    exact ⟨k, byte_eq_of_fields (k7.trans h7.symm) (k6.trans h6.symm) (ks.trans hk) (Bool.eq_iff_iff.2 (k0.trans hd))⟩

/-- The refused bytes under the defaults: R76's three classes. -/
theorem default_refused_iff {c : Byte} :
    decodeCommand .default c = none ↔ c.getLsbD 7 = false ∨ c.getLsbD 6 = true ∨ (8 ≤ regSelect c ∧ regSelect c ≤ 30) := by
  have hlt : regSelect c < 32 := (c.extractLsb 5 1).isLt
  rw [decodeCommand_eq_none_iff, ← not_exists, default_admitted_iff, not_and_or, not_and_or, Bool.not_eq_true, Bool.not_eq_false]
  refine or_congr_right (or_congr_right ?_)
  omega

/-- A transaction of a byte no command has is refused at check A2 (40_transfer_engine.md R102). -/
theorem admission_unknownCommand {c : Byte} {s : State} (hb : s.bound = true) (he : s.engaged = false) (hc : decodeCommand s.params c = none)
    (d : Direction) (n : Nat) (bytes : List Byte) : admission c d n bytes s = .refuse .unknownCommand := by
  simp [admission, operandCheck, hb, he, hc]

/-- Settles O4: the classes by the fields of R70 (`default_refused_iff`), the count as 256 less the 18 commands, and the refusal by check A2. -/
theorem unknownCommandBytesAreRefused : Obligations.UnknownCommandBytesAreRefused := by
  unfold Obligations.UnknownCommandBytesAreRefused
  refine ⟨fun c => default_refused_iff, countP_refused default_wf, fun c d n bytes s hp hc hb he => ?_⟩
  rw [step_ask he, serveRequest, serveEngine, admission_unknownCommand hb he (hp ▸ hc)]
  rfl

/-! ## The admitted command bytes (30_encoding.md R72 to R75) -/

/-- A byte outside a list that holds every command's byte is refused. -/
theorem refused_of_notMem {p : Params} {c : Byte} {bytes : List Byte} (hall : ∀ k ∈ Command.all, k.byte p ∈ bytes) (hc : c ∉ bytes) :
    decodeCommand p c = none :=
  decodeCommand_eq_none_iff.2 fun k hk => hc (hk ▸ hall k (mem_commands k))

/-- Settles O3: the 18 rows are evaluated; a byte outside them is no command's, so it is refused. -/
theorem admittedCommandSet : Obligations.AdmittedCommandSet := by
  unfold Obligations.AdmittedCommandSet
  refine ⟨by decide, fun c hc => ?_⟩
  have hnone := refused_of_notMem (p := .default) (by decide) hc
  exact ⟨hnone, decode_refused hnone⟩

/-- R73's mask singles out the two burst commands. -/
theorem default_byte_mask (k : Command) : k.byte .default &&& 0xFE = 0xBE ↔ k.len = .eight := by
  cases k with
  | read r => cases r <;> decide
  | write r => cases r <;> decide
  | readBurst => decide
  | writeBurst => decide

theorem len_eq_eight_iff (k : Command) : k.len = .eight ↔ k = .readBurst ∨ k = .writeBurst := by cases k <;> simp [Command.len]

theorem count_eq_ite (l : DataLen) : l.count = if l = .eight then 8 else 1 := by cases l <;> rfl

/-- Settles O5: an admitted byte is its command's, whose length and direction are known (`dataLen_byte`, `dirOf_byte`). -/
theorem lengthFollowsFromCommand : Obligations.LengthFollowsFromCommand := by
  unfold Obligations.LengthFollowsFromCommand
  intro c k hk
  obtain rfl : k.byte .default = c := byte_of_decode hk
  obtain ⟨-, -, -, h0⟩ := default_byte_fields k
  rw [dataLen_byte default_wf, dirOf_byte default_wf, h0, ← len_eq_eight_iff, count_eq_ite]
  exact ⟨by simp only [default_byte_mask], by simp, .rfl⟩

/-- Settles O6: the five words are encodings (O1), and the three refused ones have a command byte of one of R76's classes. -/
theorem writtenOutWordsDecode : Obligations.WrittenOutWordsDecode := by
  unfold Obligations.WrittenOutWordsDecode
  have hrt (i : Instr) (h : WellFormed i) : decode .default (encode .default i ++ []) = some (i, []) :=
    decodeInvertsEncode .default i [] default_wf h
  exact ⟨hrt (.wrSec 0xB0) rfl, hrt .rdWp rfl, hrt .rdWday rfl, hrt .rdBurst rfl, hrt (.wrBurst [5, 0x33, 0x19, 0x11, 0x11, 4, 0x26, 0]) rfl,
    decode_refused (default_refused_iff.2 (.inr (.inl rfl))) [], decode_refused (default_refused_iff.2 (.inr (.inr (by decide)))) [],
    decode_refused (default_refused_iff.2 (.inl rfl)) []⟩

end Sys2Proof.Machine

/-! The transfer engine's event sequence (40_transfer_engine.md R100 to R113): what one event does to the lines, where each event of a transaction
stands, and how many there are of each kind. -/
namespace Sys2Proof.Machine

open Sys2Proof

/-! ## One event (40_transfer_engine.md R100) -/

@[simp] theorem State.line_setLine (s : State) (l : LineId) (x : Line) : (s.setLine l x).line l = x := by cases l <;> rfl

theorem State.line_setLine_of_ne (s : State) {l l' : LineId} (x : Line) (h : l' ≠ l) : (s.setLine l x).line l' = s.line l' := by
  revert h
  cases l <;> cases l' <;> simp [State.setLine, State.line]

@[simp] theorem State.line_emit (s : State) (e : Event) (l : LineId) : (s.emit e).line l = s.line l := by cases l <;> rfl

@[simp] theorem State.setLine_trace (s : State) (l : LineId) (x : Line) : (s.setLine l x).trace = s.trace := by cases l <;> rfl

/-- What the chip sees is no part of the line handles. -/
@[simp] theorem State.line_chip (s : State) (x : Chip) (n : Nat) (l : LineId) : ({ s with chip := x, draws := n } : State).line l = s.line l := by
  cases l <;> rfl

theorem perform_set_inp {s : State} {l : LineId} (h : (s.line l).dir = .inp) (v : Bool) : perform (.set l v) s = .error (.setOnInput l) := by
  simp only [perform, h]

theorem perform_sample_out {s : State} (h : s.data.dir = .out) (k i : Nat) : perform (.sample k i) s = .error (.getOnOutput .data) := by
  simp only [perform, h]

/-- Settles O10: DIR and SET write one line (`State.line_setLine`), a GET is `perform_sample`, and each precondition that fails is an equation. -/
theorem oneEventChangesLineState : Obligations.OneEventChangesLineState := by
  unfold Obligations.OneEventChangesLineState
  intro s
  refine ⟨fun l d => ⟨_, rfl, by simp, fun l' hne => ?_, by simp⟩,
    fun l v hout => ⟨_, perform_set hout v, by simp, fun l' hne => ?_, by simp⟩,
    fun l v hin => perform_set_inp hin v, fun k i hin => ⟨_, _, perform_sample hin k i, rfl, rfl, rfl, rfl, rfl⟩,
    fun k i hout => perform_sample_out hout k i, fun T => ⟨_, rfl, rfl⟩⟩
  · rw [State.line_emit, State.line_setLine_of_ne _ _ hne]
  · rw [State.line_emit, State.line_setLine_of_ne _ _ hne, State.line_chip]

/-! ## The phases (40_transfer_engine.md R103 to R111) -/

/-- Bit `i` of byte `k` of a shift-out (R105 to R107). -/
theorem shiftBytes_at {bs : List Byte} {k i : Nat} (hk : k < bs.length) (hi : i < 8) (rest : List MicroOp) :
    ((shiftBytes bs ++ rest).drop (48 * k + 6 * i)).take 6 = shiftBit (bs[k].getLsbD i) := by
  have hlen : 8 * k + i < (bs.flatMap byteBits).length := by rw [length_flatMap_byteBits]; omega
  rw [show 48 * k + 6 * i = 6 * (8 * k + i) by omega, shiftBytes, shiftBits_at _ _ rest hlen, bits_at bs k i hk hi]

theorem drop_startOps (rest : List MicroOp) (m : Nat) : (startOps ++ rest).drop (5 + m) = rest.drop m := by
  rw [← List.drop_drop]
  rfl

/-- A write shifts out its command byte and its data as one byte list. -/
theorem transactionOps_write (c : Byte) (n : DataLen) (b : Vector Byte 8) :
    transactionOps c .write n b = startOps ++ (shiftBytes (c :: bufBytes b n) ++ stopOps) := by
  simp [transactionOps, dataOps, shiftBytes]

/-- A transaction ends with the stop phase, which begins at its index (R111). -/
theorem drop_stopIndex (c : Byte) (d : Direction) (n : DataLen) (b : Vector Byte 8) :
    (transactionOps c d n b).drop (stopIndex d n) = stopOps := by
  have hsplit : transactionOps c d n b = (startOps ++ (shiftBytes [c] ++ dataOps d n b)) ++ stopOps := by simp [transactionOps]
  have hlen := length_transactionOps c d n b
  rw [hsplit, List.length_append, length_eq_stop] at hlen
  rw [hsplit]
  exact List.drop_left' (Nat.add_right_cancel hlen)

/-- A direction changes at the start, at a read's turnaround and in the stop phase, nowhere else. -/
theorem index_of_dir {c : Byte} {d : Direction} {n : DataLen} {b : Vector Byte 8} {m : Nat} {l : LineId} {x : LineDir}
    (h : (transactionOps c d n b)[m]? = some (.dir l x)) : m = 0 ∨ (d = .read ∧ m = 53) ∨ m = stopIndex d n + 2 := by
  have hp := (placed_of_get h).1
  cases l with
  | ce => simp [MicroOp.shape, placed] at hp
  | clk => simp [MicroOp.shape, placed] at hp
  | data =>
    cases x with
    | out => exact (by simpa [MicroOp.shape, placed] using hp : m = 0 ∨ m = stopIndex d n + 2).imp_right .inr
    | inp => exact .inr (.inl (by simpa [MicroOp.shape, placed] using hp))

/-- A read drives DATA before the turnaround, and by its last event. -/
theorem index_of_setData {c : Byte} {n : DataLen} {b : Vector Byte 8} {m : Nat} {v : Bool}
    (h : (transactionOps c .read n b)[m]? = some (.set .data v)) : m < 53 ∨ m = stopIndex .read n + 3 := by
  obtain ⟨⟨-, hm⟩, -⟩ : (1 ≤ m ∧ (m < 53 ∨ m = stopIndex .read n + 3)) ∧ m ≠ stopIndex .read n + 1 := by
    simpa [MicroOp.shape, placed] using (placed_of_get h).1
  exact hm

/-- Settles O13: the start phase is the sequence's first five events, and after it the command byte is shifted out (`shiftBytes_at`). -/
theorem startAndCommandPhase : Obligations.StartAndCommandPhase := by
  unfold Obligations.StartAndCommandPhase
  intro c d n b
  refine ⟨rfl, fun i hi => ?_⟩
  rw [transactionOps, drop_startOps]
  have hbit := shiftBytes_at (bs := [c]) Nat.one_pos hi (dataOps d n b ++ stopOps)
  rwa [Nat.mul_zero, Nat.zero_add] at hbit

/-- Settles O14: byte `k` of the data is byte `k + 1` of what is shifted out; no direction changes there (`index_of_dir`). -/
theorem writeDataPhase : Obligations.WriteDataPhase := by
  unfold Obligations.WriteDataPhase
  intro c n b
  refine ⟨fun k i hk hi => ?_, fun m l d h1 h2 hop => ?_⟩
  · have hlen : k + 1 < (c :: bufBytes b n).length := by simpa [length_bufBytes] using hk
    rw [transactionOps_write, show 53 + 48 * k + 6 * i = 5 + (48 * (k + 1) + 6 * i) by omega, drop_startOps, shiftBytes_at hlen hi]
    simp [bufBytes, shiftBit]
  · obtain h | ⟨h, -⟩ | h := index_of_dir hop
    · omega
    · cases h
    · rw [stopIndex] at h
      omega

/-- A read's data phase after the turnaround. -/
theorem drop_turnaround (c : Byte) (n : DataLen) (b : Vector Byte 8) (m : Nat) :
    (transactionOps c .read n b).drop (54 + m) = (readOps n.count ++ stopOps).drop m := by
  rw [← List.drop_drop]
  rfl

/-- Settles O15: the turnaround is evaluated; DATA is driven before it and by the last event alone (`index_of_setData`); each read bit stands at its
sample's place (`samplePlaces_at`). -/
theorem readDataPhase : Obligations.ReadDataPhase := by
  unfold Obligations.ReadDataPhase
  intro c n b
  refine ⟨rfl, fun m v h1 h2 hop => ?_, fun k i hk hi => ?_⟩
  · have hm := index_of_setData hop
    rw [stopIndex] at hm
    omega
  · have hlen : 8 * k + i < (samplePlaces n.count).length := by rw [length_samplePlaces]; omega
    have hplace := samplePlaces_at n.count k i hk hi
    rw [List.getElem?_eq_getElem hlen, Option.some.injEq] at hplace
    rw [show 54 + 32 * k + 4 * i = 54 + 4 * (8 * k + i) by omega, drop_turnaround, readOps, readBits_at _ _ _ hlen, hplace]
    rfl

/-- Settles O16: `drop_stopIndex` and `length_transactionOps` for each direction. -/
theorem stopPhaseAndLength : Obligations.StopPhaseAndLength := by
  unfold Obligations.StopPhaseAndLength
  intro c n b
  exact ⟨drop_stopIndex c .write n b, drop_stopIndex c .read n b, length_transactionOps c .write n b, length_transactionOps c .read n b⟩

/-! ## Counts (40_transfer_engine.md R113) -/

section Counts
variable (p : Event → Bool) (hset : ∀ l, p (.set l true) = p (.set l false)) (c : Byte) (n : DataLen) (b : Vector Byte 8) (ss : List Bool)
include hset

/-- A count of a write's events, by phase. -/
theorem countP_write :
    (eventsOf (transactionOps c .write n b) ss).countP p =
      (eventsOf startOps []).countP p + (8 * (1 + n.count) * (eventsOf (shiftBit false) []).countP p + (eventsOf stopOps []).countP p) := by
  have hset' : ∀ l, (p (.set l true)).toNat = (p (.set l false)).toNat := fun l => by rw [hset l]
  have hlen : ((c :: bufBytes b n).flatMap byteBits).length = 8 * (1 + n.count) := by
    rw [length_flatMap_byteBits, List.length_cons, length_bufBytes, Nat.add_comm]
  rw [eventsOf_write, List.countP_append, List.countP_append, countP_eq_sum p (eventsOf (List.flatMap _ _) []), sum_shiftBits _ hset', hlen,
    countP_eq_sum p (eventsOf (shiftBit false) [])]
  simp [shiftBit, eventsOf, hset', Nat.add_assoc]

/-- A count of a read's events, by phase. -/
theorem countP_read (hget : p (.get .data true) = p (.get .data false)) :
    (eventsOf (transactionOps c .read n b) ss).countP p =
      (eventsOf startOps []).countP p + (8 * (eventsOf (shiftBit false) []).countP p + ((p (.dir .data .inp)).toNat +
        (8 * n.count * (eventsOf (readBit 0 0) []).countP p + (eventsOf stopOps []).countP p))) := by
  have hset' : ∀ l, (p (.set l true)).toNat = (p (.set l false)).toNat := fun l => by rw [hset l]
  have hdir : ∀ es : List Event, (.dir .data .inp :: es : List Event).countP p = (p (.dir .data .inp)).toNat + es.countP p := fun es => by
    rw [countP_eq_sum, countP_eq_sum]
    rfl
  rw [eventsOf_read, List.countP_append, List.countP_append, hdir, List.countP_append, countP_eq_sum p (eventsOf (List.flatMap _ _) []),
    sum_shiftBits _ hset', length_byteBits, countP_eq_sum p (eventsOf (List.flatMap _ _) ss),
    sum_readBits _ hset' (congrArg Bool.toNat hget), length_samplePlaces, countP_eq_sum p (eventsOf (shiftBit false) []),
    countP_eq_sum p (eventsOf (readBit 0 0) [])]
  simp [shiftBit, readBit, eventsOf, hset', Nat.add_assoc]

end Counts

/-- A write has a rising edge for each bit it shifts out. -/
theorem length_dataAtRise_write (c : Byte) (n : DataLen) (b : Vector Byte 8) (ss : List Bool) :
    (dataAtRise false false (eventsOf (transactionOps c .write n b) ss)).length = 8 + 8 * n.count := by
  rw [eventsOf_write, dataAtRise_start, dataAtRise_shiftBits, dataAtRise_stop, List.append_nil, length_flatMap_byteBits, List.length_cons,
    length_bufBytes]
  omega

/-- A read has one for each command bit and each sample. -/
theorem length_dataAtRise_read (c : Byte) (n : DataLen) (b : Vector Byte 8) (ss : List Bool) :
    (dataAtRise false false (eventsOf (transactionOps c .read n b) ss)).length = 8 + 8 * n.count := by
  rw [eventsOf_read, dataAtRise_start, dataAtRise_shiftBits, dataAtRise, List.length_append, length_dataAtRise_readBits, length_byteBits,
    length_samplePlaces]

/-- Settles O17: each count phase by phase (`countP_write`, `countP_read`), with what the fixed phases hold evaluated. -/
theorem eventCounts : Obligations.EventCounts := by
  unfold Obligations.EventCounts
  intro c n b ss w r
  have hw (p : Event → Bool) (hset : ∀ l, p (.set l true) = p (.set l false)) := countP_write p hset c n b ss
  have hr (p : Event → Bool) (hset : ∀ l, p (.set l true) = p (.set l false)) := countP_read p hset c n b ss
  refine ⟨(hw _ fun _ => rfl).trans ?_, (hw _ fun _ => rfl).trans ?_, (hw _ fun _ => rfl).trans ?_, (hw _ fun _ => rfl).trans ?_,
    length_dataAtRise_write c n b ss, (hr _ (fun _ => rfl) rfl).trans ?_, (hr _ (fun _ => rfl) rfl).trans ?_, (hr _ (fun _ => rfl) rfl).trans ?_,
    (hr _ (fun _ => rfl) rfl).trans ?_, length_dataAtRise_read c n b ss⟩
  all_goals
    simp only [startOps, shiftBit, readBit, stopOps, eventsOf, List.countP_cons, List.countP_nil, Event.isDir, Event.isSet, Event.isGet, Event.isWait,
      Bool.toNat, cond_true, cond_false, if_true, Bool.false_eq_true, if_false]
    omega

end Sys2Proof.Machine

/-! Admission of a transaction (40_transfer_engine.md R102, 60_exceptions.md R234 to R242): each check of A0 to A5 as an equation, for a TRANSACT, the
register requests, an instruction and a frame alike. -/
namespace Sys2Proof.Machine

open Sys2Proof

/-! ## The device state (10_state.md R33) -/

theorem bound_eq_false_iff {s : State} : s.bound = false ↔ s.devState = .unbound ∨ s.devState = .failed := by
  cases h : s.devState <;> simp [State.bound, h]

theorem bound_eq_true_iff {s : State} : s.bound = true ↔ s.devState = .initialising ∨ s.devState = .ready := by
  cases h : s.devState <;> simp [State.bound, h]

/-! ## The checks, in order -/

section Checks
variable {c : Byte} {d : Direction} {n : Nat} {bytes : List Byte} {s : State}

/-- A0. -/
theorem admission_notBound (hb : s.bound = false) : admission c d n bytes s = .refuse .notBound := if_pos hb

/-- A1. -/
theorem admission_hold (hb : s.bound = true) (he : s.engaged = true) : admission c d n bytes s = .hold := by
  simp [admission, hb, he]

/-- A2 to A5 decide when a bound device has nothing in progress: one fails. -/
theorem admission_refuse (hb : s.bound = true) (he : s.engaged = false) {why : RefusalReason}
    (h : operandCheck s.params c d n bytes = some why) : admission c d n bytes s = .refuse why := by
  simp [admission, hb, he, h]

/-- All of them pass. -/
theorem admission_pass (hb : s.bound = true) (he : s.engaged = false) (h : operandCheck s.params c d n bytes = none) :
    admission c d n bytes s = .accept := by
  simp [admission, hb, he, h]

/-- A command byte carries Read when it is a read's, and Write otherwise (30_encoding.md R72). -/
theorem eq_dirOf_iff {p : Params} : d = dirOf p c ↔ (d = .read ↔ isRead p c = true) := by
  cases d <;> cases h : isRead p c <;> simp [dirOf, h]

variable {p : Params}

/-- A3. -/
theorem operandCheck_direction (hc : decodeCommand p c ≠ none) (hd : d ≠ dirOf p c) : operandCheck p c d n bytes = some .directionMismatch := by
  simp [operandCheck, hc, hd]

/-- A4. -/
theorem operandCheck_count (hc : decodeCommand p c ≠ none) (hd : d = dirOf p c) (hn : n ≠ (dataLen p c).count) :
    operandCheck p c d n bytes = some .lengthMismatch := by
  simp [operandCheck, hc, hd, hn]

/-- A5. -/
theorem operandCheck_bytes (hc : decodeCommand p c ≠ none) (hd : d = dirOf p c) (hn : n = (dataLen p c).count) (hw : d = .write)
    (hl : bytes.length ≠ n) : operandCheck p c d n bytes = some .lengthMismatch := by
  simp [operandCheck, hc, ← hd, ← hn, hw, hl]

/-- All checks pass. -/
theorem operandCheck_passes (hc : decodeCommand p c ≠ none) (hd : d = dirOf p c) (hn : n = (dataLen p c).count)
    (hl : d = .write → bytes.length = n) : operandCheck p c d n bytes = none := by
  simp only [operandCheck, Option.isNone_iff_eq_none, hc, ← hd, ← hn, ne_eq, not_true_eq_false, if_false]
  exact if_neg fun h => h.2 (hl h.1)

/-! ## What serving a transaction does with the answer -/

theorem serveEngine_refuse {w : Waiting} {why : RefusalReason} (h : admission c d n bytes s = .refuse why) :
    serveEngine w c d n bytes s = .ok (s.refuse why) := by simp only [serveEngine, h]

theorem serveEngine_hold {w : Waiting} (h : admission c d n bytes s = .hold) : serveEngine w c d n bytes s = .ok (s.hold w) := by
  simp only [serveEngine, h]

theorem serveEngine_admitted {w : Waiting} (h : admission c d n bytes s = .accept) :
    serveEngine w c d n bytes s = .ok (accept c d bytes s) := by simp only [serveEngine, h]

end Checks

/-- A request asked while another is in progress stays the first of those that wait, unless the binding fails (log entries 11, 25). -/
theorem step_engaged_pending {s t : State} (he : s.engaged = true) (hf : s.arrivalFails = false) (h : step s = .next t) :
    ∃ ws, t.pending = s.pending ++ ws := by
  rw [(turn_frame (turn_of_step he hf h)).pending]
  unfold State.arrive
  split
  · exact ⟨[], (List.append_nil _).symm⟩
  · exact ⟨[], (List.append_nil _).symm⟩
  · split
    · exact ⟨[], (List.append_nil _).symm⟩
    · exact ⟨_, rfl⟩

/-- Settles O21: each check is an equation of `admission`; a refusal and an acceptance are what `serveEngine` does with it, and a request that
must wait stays where it was put (`step_engaged_pending`). -/
theorem admissionChecksInOrder : Obligations.AdmissionChecksInOrder := by
  unfold Obligations.AdmissionChecksInOrder
  intro c d n bytes s
  refine ⟨fun why he h => ?_, fun hd => admission_notBound (bound_eq_false_iff.2 hd), fun hd => ?_⟩
  · rw [step_ask he, serveRequest, serveEngine_refuse h]
    rfl
  have hb : s.bound = true := bound_eq_true_iff.2 hd
  refine ⟨fun he => ⟨admission_hold hb he, fun t ht => ?_⟩, fun he hc => admission_unknownCommand hb he hc d n bytes,
    fun he hc hdir => admission_refuse hb he (operandCheck_direction hc (mt eq_dirOf_iff.1 hdir)),
    fun he hc hdir hn => admission_refuse hb he (operandCheck_count hc (eq_dirOf_iff.2 hdir) hn),
    fun he hc hdir hn hw hl => admission_refuse hb he (operandCheck_bytes hc (eq_dirOf_iff.2 hdir) hn hw hl), fun he hc hdir hn hl => ?_⟩
  · obtain ⟨ws, hws⟩ := step_engaged_pending (s := s.ask (.transact c d n bytes)) he (arrivalFails_bound hb) ht
    rw [hws]
    rfl
  · have ha : admission c d n bytes s = .accept := admission_pass hb he (operandCheck_passes hc (eq_dirOf_iff.2 hdir) hn hl)
    refine ⟨ha, accept c d bytes s, ?_, rfl, rfl, hn.symm, fun k hk => ?_, fun k hk => ?_, rfl, rfl, rfl, rfl, rfl, rfl, rfl⟩
    · rw [step_ask he, serveRequest, serveEngine_admitted ha, toOutcome_ok]
    · rw [accept_buf, bufByte_latch, if_pos (hn ▸ hk)]
      rfl
    · rw [accept_buf, bufByte_latch, if_neg (by omega)]

/-! ## Instructions (40_transfer_engine.md R120 to R123) -/

/-- A0 for an instruction. -/
theorem exec_notBound {s : State} (hb : s.bound = false) (i : Instr) : exec i s = .next (s.refuse .notBound) := by
  obtain ⟨c, d, n, bytes, hx, -⟩ := exec_engineCommand i s
  rw [hx, engineCommand, serveEngine_refuse (admission_notBound hb), toOutcome_ok]

/-- A1 for an instruction. -/
theorem exec_engaged {s : State} (hb : s.bound = true) (he : s.engaged = true) (i : Instr) :
    exec i s = .next (s.hold (.frame (encode s.params i))) := by
  obtain ⟨c, d, n, bytes, hx, henc⟩ := exec_engineCommand i s
  rw [hx, engineCommand, serveEngine_hold (admission_hold hb he), toOutcome_ok, henc]

/-- A5 for the burst write. -/
theorem operandCheck_burstWrite_length {p : Params} (hp : p.wf = true) {bytes : List Byte} (h : bytes.length ≠ 8) :
    operandCheck p (burstWriteAddr p) .write 8 bytes = some .lengthMismatch :=
  operandCheck_bytes (by simp [hp]) (dirOf_burstWrite hp).symm (by rw [dataLen_burstWrite, count_eight]) rfl h

/-- Settles O22: check A0 (`exec_notBound`). -/
theorem unboundDeviceRefusesEveryInstruction : Obligations.UnboundDeviceRefusesEveryInstruction := by
  unfold Obligations.UnboundDeviceRefusesEveryInstruction
  intro i s hd
  exact exec_notBound (bound_eq_false_iff.2 hd) i

/-- Settles O23: check A1 (`exec_engaged`). -/
theorem busyEngineHoldsEveryInstruction : Obligations.BusyEngineHoldsEveryInstruction := by
  unfold Obligations.BusyEngineHoldsEveryInstruction
  intro i s hd he
  exact exec_engaged (bound_eq_true_iff.2 hd) he i

/-- Settles O24: check A5 (`operandCheck_burstWrite_length`). -/
theorem burstWriteOfAnotherLengthIsRefused : Obligations.BurstWriteOfAnotherLengthIsRefused := by
  unfold Obligations.BurstWriteOfAnotherLengthIsRefused
  intro bytes s hb he hp hl
  rw [exec_wrBurst, engineCommand, serveEngine_refuse (admission_refuse hb he (operandCheck_burstWrite_length hp hl))]
  rfl

/-! ## Frames (log entry 26) -/

/-- A frame that is one whole instruction has the number of data bytes its command asks for (30_encoding.md R70, R75). -/
theorem decode_whole_length {p : Params} {c : Byte} {bs : List Byte} {k : Command} {i : Instr} (hk : decodeCommand p c = some k)
    (h : decode p (c :: bs) = some (i, [])) :
    bs.length = if k.direction = .read then 0 else k.len.count := by
  cases k with
  | read r =>
    rw [decode_read hk] at h
    cases h
    rfl
  | readBurst =>
    rw [decode_readBurst hk] at h
    cases h
    rfl
  | write r =>
    cases bs with
    | nil =>
      rw [decode_write_nil hk] at h
      cases h
    | cons v bs =>
      rw [decode_write_cons hk] at h
      cases h
      rfl
  | writeBurst =>
    rw [decode_writeBurst hk] at h
    split at h
    · have hdrop : bs.drop 8 = [] := (Prod.mk.inj (Option.some.inj h)).2
      exact le_antisymm (List.drop_eq_nil_iff.1 hdrop) ‹_›
    · cases h

section RefuseFrame
variable {s : State}

theorem refuseFrame_notBound (hb : s.bound = false) (bytes : List Byte) : refuseFrame bytes s = s.refuse .notBound := if_pos hb

theorem refuseFrame_nil (hb : s.bound = true) : refuseFrame [] s = s.refuse .unknownCommand := by
  simp [refuseFrame, hb]

theorem refuseFrame_unknown (hb : s.bound = true) {c : Byte} (hc : decodeCommand s.params c = none) (bs : List Byte) :
    refuseFrame (c :: bs) s = s.refuse .unknownCommand := by
  simp [refuseFrame, hb, hc]

theorem refuseFrame_length (hb : s.bound = true) {c : Byte} {k : Command} (hc : decodeCommand s.params c = some k) (bs : List Byte) :
    refuseFrame (c :: bs) s = s.refuse .lengthMismatch := by
  simp [refuseFrame, hb, hc]

end RefuseFrame

/-- On a device that is not bound a frame is refused NotBound, whether it is an instruction or not. -/
theorem step_frame_notBound {s : State} {bytes : List Byte} {rest : List Waiting} (he : s.engaged = false)
    (hq : s.pending = .frame bytes :: rest) (hb : s.bound = false) : step s = .next (({ s with pending := rest } : State).refuse .notBound) := by
  by_cases hd : ∃ i, decode s.params bytes = some (i, [])
  · obtain ⟨i, hi⟩ := hd
    rw [step_frame he hq hi, exec_notBound (s := { s with pending := rest }) hb]
  · rw [step_badFrame he hq (not_exists.1 hd), refuseFrame_notBound (s := { s with pending := rest }) hb]

/-- Settles O8: a frame of no bytes, of an unknown command or of another length is no whole instruction (`decode_whole_length`), and
`refuseFrame` says why. -/
theorem illFormedFramesAreRefused : Obligations.IllFormedFramesAreRefused := by
  unfold Obligations.IllFormedFramesAreRefused
  intro s bytes rest he hq refusedFor
  refine ⟨fun hd => step_frame_notBound he hq (bound_eq_false_iff.2 hd), fun hd => ?_⟩
  have hb : ({ s with pending := rest } : State).bound = true := bound_eq_true_iff.2 hd
  refine ⟨?_, ?_⟩
  · rintro rfl
    exact (step_badFrame he hq nofun).trans (congrArg _ (refuseFrame_nil hb))
  · rintro c bs rfl
    refine ⟨fun hc => ?_, fun k hk hl => ?_⟩
    · have hbad : ∀ i, decode s.params (c :: bs) ≠ some (i, []) := fun i hi => by
        rw [decode_refused hc] at hi
        cases hi
      exact (step_badFrame he hq hbad).trans (congrArg _ (refuseFrame_unknown hb hc bs))
    · have hbad : ∀ i, decode s.params (c :: bs) ≠ some (i, []) := fun i hi =>
        hl ((decode_whole_length hk hi).trans (by cases k <;> rfl))
      exact (step_badFrame he hq hbad).trans (congrArg _ (refuseFrame_length hb hk bs))

/-! ## The register requests (40_transfer_engine.md R120 to R123) -/

/-- The five register requests need a bound device. -/
theorem stateRefusal_notBound {s : State} (hb : s.bound = false) {a v : Byte} {bytes : List Byte} {r : Request}
    (hr : r ∈ [Request.rdb a, .wrb a v, .rdBurst, .wrBurst bytes, .clrWp]) : (Waiting.request r).stateRefusal s = some .notBound := by
  have hlacks : s.lacksBinding = some .notBound := by simp [State.lacksBinding, hb]
  simp only [List.mem_cons, List.not_mem_nil, or_false] at hr
  obtain rfl | rfl | rfl | rfl | rfl := hr <;> exact hlacks

section Field
variable {a : Byte} {w : Request} {go : Reg → State → Except Fault State} {s : State}

theorem serveField_none (hb : s.bound = true) (he : s.engaged = false) (ha : ∀ r : Reg, r.field s.params ≠ a) :
    serveField a w go s = .ok (s.refuse .unknownCommand) := by
  simp [serveField, hb, he, regOfField_none ha]

theorem serveField_field (hb : s.bound = true) (he : s.engaged = false) (hp : s.params.wf = true) (r : Reg) :
    serveField (r.field s.params) w go s = go r s := by
  simp [serveField, hb, he, hp]

end Field

/-- Settles O25: the field check is `serveField_none`, and before it comes the refusal for the device state (`serve_stateRefusal`). -/
theorem fieldIsCheckedBeforeFraming : Obligations.FieldIsCheckedBeforeFraming := by
  unfold Obligations.FieldIsCheckedBeforeFraming
  intro a v bytes s he
  refine ⟨fun hb ha => ⟨?_, ?_⟩, fun hd r hr => ?_⟩
  · rw [step_ask he, serveRequest, serveField_none hb he ha]
    rfl
  · rw [step_ask he, serveRequest, serveField_none hb he ha]
    rfl
  · rw [step_ask he, serve_stateRefusal (stateRefusal_notBound (bound_eq_false_iff.2 hd) hr)]
    rfl

end Sys2Proof.Machine

/-! Steps and whole transactions (40_transfer_engine.md R112, R114 to R124): the step of a Busy engine, that every step from the invariant answers,
and each request's transaction run from its acceptance to its result. -/
namespace Sys2Proof.Machine

open Sys2Proof

/-! ## Single steps (40_transfer_engine.md R114, R116) -/

/-- With nothing in progress and nothing waiting a step changes nothing (log entry 10). -/
theorem step_idle {s : State} (he : s.engaged = false) (hq : s.pending = []) : step s = .next s := by
  simp [step, he, hq]

/-- Settles O9: `step_busy` while nobody asks anything, with the end of the transaction as `settle` has it for each kind of requester. -/
theorem busyStepPerformsTheNextEvent : Obligations.BusyStepPerformsTheNextEvent := by
  unfold Obligations.BusyStepPerformsTheNextEvent
  refine ⟨fun s s1 op hb ha hop hp => ?_, fun s => step_idle⟩
  have hf := perform_frame hp
  have hstep := step_busy hb (arrivalFails_nil ha) hop (by rwa [arrive_nil ha])
  refine ⟨fun hne => by rw [hstep, if_neg hne], fun hlast => ?_⟩
  rw [hstep, if_pos hlast]
  refine ⟨fun ht => ?_, fun k hk => ?_⟩
  · rw [settle_none (s := { s1 with mpc := s.mpc + 1, phase := .idle }) (hf.task.trans ht), ← hf.dir, ← hf.len]
    rfl
  · rw [settle_some (s := { s1 with mpc := s.mpc + 1, phase := .idle }) (hf.task.trans hk)]

/-- Serving a transaction, a field or a facade request never faults: the faults are the events', and serving emits none. -/
theorem serveEngine_total (w : Waiting) (c : Byte) (d : Direction) (n : Nat) (bytes : List Byte) (s : State) :
    ∃ t, serveEngine w c d n bytes s = .ok t := by
  cases h : admission c d n bytes s with
  | refuse why => exact ⟨_, serveEngine_refuse h⟩
  | hold => exact ⟨_, serveEngine_hold h⟩
  | accept => exact ⟨_, serveEngine_admitted h⟩

theorem serveField_total {go : Reg → State → Except Fault State} {s : State} (hgo : ∀ r, ∃ t, go r s = .ok t) (a : Byte) (w : Request) :
    ∃ t, serveField a w go s = .ok t := by
  unfold serveField
  split
  · exact ⟨_, rfl⟩
  · split
    · exact ⟨_, rfl⟩
    · split
      · exact ⟨_, rfl⟩
      · exact hgo _

theorem serveClrWp_total (s : State) : ∃ t, serveClrWp s = .ok t := by
  unfold serveClrWp
  split
  · exact ⟨_, rfl⟩
  · split <;> exact ⟨_, rfl⟩

theorem serveInit_total (ce clk data : Binding) (burst : Bool) (m : HourMode) (s : State) : ∃ t, serveInit ce clk data burst m s = .ok t := by
  unfold serveInit
  split
  · exact ⟨_, rfl⟩
  · split
    · exact ⟨_, rfl⟩
    · split <;> exact ⟨_, rfl⟩

theorem serveReadTime_total (s : State) : ∃ t, serveReadTime s = .ok t := by
  unfold serveReadTime
  split
  · exact ⟨_, rfl⟩
  · split <;> exact ⟨_, rfl⟩

theorem serveSetTime_total (τ : WallClock) (s : State) : ∃ t, serveSetTime τ s = .ok t := by
  unfold serveSetTime
  split
  · exact ⟨_, rfl⟩
  · split
    · exact ⟨_, rfl⟩
    · split
      · exact ⟨_, rfl⟩
      · split <;> exact ⟨_, rfl⟩

theorem serveUnbind_total (s : State) : ∃ t, serveUnbind s = .ok t := by
  unfold serveUnbind
  split <;> exact ⟨_, rfl⟩

theorem serveRequest_total (r : Request) (s : State) : ∃ t, serveRequest r s = .ok t := by
  cases r with
  | transact c d n bytes => exact serveEngine_total _ _ _ _ _ s
  | rdb a => exact serveField_total (fun _ => serveEngine_total _ _ _ _ _ s) _ _
  | wrb a v => exact serveField_total (fun _ => serveEngine_total _ _ _ _ _ s) _ _
  | rdBurst => exact serveEngine_total _ _ _ _ _ s
  | wrBurst bytes => exact serveEngine_total _ _ _ _ _ s
  | decode raw => exact ⟨_, rfl⟩
  | encode τ => exact ⟨_, rfl⟩
  | clrWp => exact serveClrWp_total s
  | init ce clk data burst m => exact serveInit_total ce clk data burst m s
  | readTime => exact serveReadTime_total s
  | setTime τ => exact serveSetTime_total τ s
  | unbind => exact serveUnbind_total s
  | powerCycle => exact ⟨_, rfl⟩

theorem exec_total (i : Instr) (s : State) : ∃ t, exec i s = .next t := by
  obtain ⟨c, d, n, bytes, hx, -⟩ := exec_engineCommand i s
  obtain ⟨t, ht⟩ := serveEngine_total (.frame (c :: bytes)) c d n bytes s
  exact ⟨t, by rw [hx, engineCommand, ht, toOutcome_ok]⟩

/-- In every state, with nothing in progress a step answers a next state. -/
theorem step_total {s : State} (he : s.engaged = false) : ∃ t, step s = .next t := by
  cases hq : s.pending with
  | nil => exact ⟨s, step_idle he hq⟩
  | cons w rest =>
    cases w with
    | request r =>
      obtain ⟨t, ht⟩ := serveRequest_total r { s with pending := rest }
      exact ⟨t, by rw [step_request he hq, ht, toOutcome_ok]⟩
    | frame bytes =>
      by_cases hd : ∃ i, decode s.params bytes = some (i, [])
      · obtain ⟨i, hi⟩ := hd
        rw [step_frame he hq hi]
        exact exec_total i _
      · exact ⟨_, step_badFrame he hq (not_exists.1 hd)⟩

/-- Settles O58: what is in progress goes on by `Inv.step_engaged`; serving never faults (`step_total`). -/
theorem invariantStatesNeverFault : Obligations.InvariantStatesNeverFault := by
  unfold Obligations.InvariantStatesNeverFault
  intro s h
  cases he : s.engaged with
  | true =>
    obtain ⟨t, ht, -⟩ := h.step_engaged he
    exact ⟨t, ht⟩
  | false => exact step_total he

/-! ## A whole transaction, of either direction (40_transfer_engine.md R112, R115) -/

/-- The state a whole transaction leaves. -/
def State.afterTransaction (s : State) (c : Byte) (d : Direction) (bytes : List Byte) : State :=
  match d with
  | .read => s.afterRead c
  | .write => s.afterWrite c bytes

section AfterTransaction
variable (s : State) (c : Byte) (d : Direction) (bytes : List Byte)

@[simp] theorem afterTransaction_phase : (s.afterTransaction c d bytes).phase = .idle := by cases d <;> rfl
@[simp] theorem afterTransaction_linesIdle : (s.afterTransaction c d bytes).linesIdle = true := by cases d <;> rfl

@[simp] theorem afterTransaction_cmd : (s.afterTransaction c d bytes).cmd = c := by
  cases d with
  | read => exact afterRead_cmd s c
  | write => exact afterWrite_cmd s c bytes

@[simp] theorem afterTransaction_replies : (s.afterTransaction c d bytes).replies = s.replies := by
  cases d with
  | read => exact afterRead_replies s c
  | write => exact afterWrite_replies s c bytes

theorem afterTransaction_frame : SameControl s (s.afterTransaction c d bytes) := by
  cases d with
  | read => exact afterRead_frame s c
  | write => exact afterWrite_frame s c bytes

@[simp] theorem afterTransaction_task : (s.afterTransaction c d bytes).task = s.task := by
  obtain ⟨-, -, -, -, -, -, -, -, -, htask, -⟩ := afterTransaction_frame s c d bytes
  exact htask

/-- The events are the fixed sequence, for some sampled levels. -/
theorem afterTransaction_trace :
    ∃ ss, (s.afterTransaction c d bytes).trace = (eventsOf (accept c d bytes s).ops ss).reverse ++ s.trace := by
  cases d with
  | read => exact ⟨_, afterRead_trace s c⟩
  | write => exact ⟨_, afterWrite_trace s c bytes⟩

end AfterTransaction

/-- A read's byte list is ignored (log entry 29). -/
theorem transact_read_bytes (c : Byte) (bytes : List Byte) (s : State) : transact c .read bytes s = transact c .read [] s := rfl

/-- Every transaction completes, whatever the oracle. -/
theorem transact_completes {s : State} (ho : s.outputs = true) (c : Byte) (d : Direction) (bytes : List Byte) :
    transact c d bytes s = .ok (s.afterTransaction c d bytes) := by
  cases d with
  | read => rw [transact_read_bytes, transact_read ho, State.afterTransaction]
  | write => rw [transact_write ho, State.afterTransaction]

/-- The steps of an accepted transaction that no facade request asked for, one an event. -/
theorem run_transaction {s : State} (hs : s.canTransact = true) (ha : s.arrivals = []) (c : Byte) (d : Direction) (bytes : List Byte) :
    Host.Core.run Sys2Proof.core (transactionLength d (dataLen s.params c)) (accept c d bytes s) =
      .next (s.afterTransaction c d bytes).deliver := by
  obtain ⟨-, he, ho, -⟩ := canTransact_iff.1 hs
  rw [run_accepted ha (transact_completes ho c d bytes), settle_none (by rw [afterTransaction_task, engaged_task he])]

/-- A request that is asked, and then the steps of what it started. -/
theorem run_ask {s a : State} {r : Request} (h : step (s.ask r) = .next a) (k : Nat) :
    Host.Core.run Sys2Proof.core (1 + k) (s.ask r) = Host.Core.run Sys2Proof.core k a := by
  rw [Nat.add_comm, run_next h]

/-- Settles O36: the acceptance is a step, and the steps after it are `run_transaction`. -/
theorem wholeTransactionIsItsEngineSteps : Obligations.WholeTransactionIsItsEngineSteps := by
  unfold Obligations.WholeTransactionIsItsEngineSteps
  intro c d n bytes s hs ha hadm
  obtain ⟨-, he, ho, -⟩ := canTransact_iff.1 hs
  have hstep : step (s.ask (.transact c d n bytes)) = .next (accept c d bytes s) := by
    rw [step_ask he, serveRequest, serveEngine_admitted hadm, toOutcome_ok]
  exact ⟨_, transact_completes ho c d bytes, afterTransaction_phase s c d bytes,
    (run_ask hstep _).trans (run_transaction hs ha c d bytes)⟩

/-- Settles O27: an instruction is one framed command that passes the checks (`exec_eq_engineCommand`), and its transaction completes
(`run_transaction`). -/
theorem everyInstructionCompletesWithIdleLines : Obligations.EveryInstructionCompletesWithIdleLines := by
  unfold Obligations.EveryInstructionCompletesWithIdleLines
  intro i s hw hs ha
  obtain ⟨c, d, n, bytes, hx, henc, hn, hd, hc, -, hl⟩ := exec_eq_engineCommand i (canTransact_params hs)
  have hcheck : operandCheck s.params c d n bytes = none := operandCheck_passes (Option.isSome_iff_ne_none.1 hc) hd hn (hl hw)
  obtain ⟨ss, htrace⟩ := afterTransaction_trace s c d bytes
  refine ⟨accept c d bytes s, (s.afterTransaction c d bytes).deliver, (s.afterTransaction c d bytes).result, ss, ?_, rfl, rfl, rfl, rfl,
    by rw [henc]; rfl, run_transaction hs ha c d bytes, by simp, by simp, (afterTransaction_frame s c d bytes).deliver, by simp, by simp, htrace⟩
  rw [hx, engineCommand_accept hs hcheck, toOutcome_ok]

/-! ## Reads: the result and the frame (40_transfer_engine.md R110, R120, R122) -/

/-- A read's events, whatever the buffer held. -/
theorem afterRead_trace_buf (s : State) (c : Byte) :
    (s.afterRead c).trace = (eventsOf (transactionOps c .read (dataLen s.params c) s.buf) (s.readSamples c)).reverse ++ s.trace :=
  afterRead_trace s c

/-- A read leaves every address as the chip's timekeeping had it. -/
theorem afterRead_read (s : State) (c : Byte) (a : Nat) : (s.afterRead c).chip.cr.read a = (s.chip.tick s.draws).1.cr.read a := by
  rw [afterRead_cr]

/-- Settles O28: the accepted read runs to its end (`run_readOf`); its byte is that of the levels sampled (`afterRead_bufByte`), the first eight of a
test double's list (`readSamples_replay`). -/
theorem discreteReadResultAndFrame : Obligations.DiscreteReadResultAndFrame := by
  unfold Obligations.DiscreteReadResultAndFrame
  intro r s hs ha
  have hlen := dataLen_cmdRead (canTransact_params hs) r
  have hcount := length_readSamples s (cmdRead s.params (r.field s.params))
  have htrace := afterRead_trace_buf s (cmdRead s.params (r.field s.params))
  have hbuf := afterRead_bufByte s (cmdRead s.params (r.field s.params))
  have hreplay (ls : List Bool) (ho : s.chip.oracle = .replay ls) := readSamples_replay ho (cmdRead s.params (r.field s.params))
  simp only [hlen, count_one, Nat.mul_one] at hcount htrace hbuf hreplay
  refine ⟨_, _, _, exec_readOf_next hs r, rfl, rfl, run_readOf hs ha r, hcount, ?_, htrace, afterRead_read s _, afterRead_cmd s _, afterRead_dir s _,
    (afterRead_len s _).trans hlen, hbuf 0, fun k hk => (hbuf k).trans (if_neg (by omega)), rfl, rfl, (afterRead_frame s _).deliver, hreplay⟩
  rw [State.deliver_replies, afterRead_result, hlen, bufBytes_one, hbuf 0, afterRead_replies]
  rfl

/-- Settles O31: as for a discrete read, with the eight bytes of `afterRead_bytes`. -/
theorem burstReadResultAndFrame : Obligations.BurstReadResultAndFrame := by
  unfold Obligations.BurstReadResultAndFrame
  intro s hs ha
  have hcount := length_readSamples s (burstReadAddr s.params)
  have htrace := afterRead_trace_buf s (burstReadAddr s.params)
  have hbuf := afterRead_bufByte s (burstReadAddr s.params)
  have hbytes := afterRead_bytes s (burstReadAddr s.params)
  have hreplay (ls : List Bool) (ho : s.chip.oracle = .replay ls) := readSamples_replay ho (burstReadAddr s.params)
  simp only [dataLen_burstRead, count_eight, Nat.reduceMul] at hcount htrace hbuf hbytes hreplay
  refine ⟨_, _, _, exec_rdBurst_next hs, rfl, rfl, run_rdBurst hs ha, hcount, ?_, htrace, afterRead_read s _, afterRead_cmd s _, afterRead_dir s _,
    (afterRead_len s _).trans dataLen_burstRead, fun k hk => (hbuf k).trans (if_pos hk), rfl, rfl, (afterRead_frame s _).deliver, hreplay⟩
  rw [State.deliver_replies, afterRead_result, dataLen_burstRead, hbytes, afterRead_replies]

/-! ## The register requests as their instruction (40_transfer_engine.md R120 to R123, log entry 22) -/

/-- With nothing in progress nothing is held, so the form of a request does not matter to what serves its transaction. -/
theorem serveEngine_form {s : State} (he : s.engaged = false) (w : Waiting) (c : Byte) (d : Direction) (n : Nat) (bytes : List Byte) :
    serveEngine w c d n bytes s = engineCommand c d n bytes s := by
  cases h : admission c d n bytes s with
  | refuse why => rw [engineCommand, serveEngine_refuse h, serveEngine_refuse h]
  | hold => exact absurd h (admission_ne_hold he c d n bytes)
  | accept => rw [engineCommand, serveEngine_admitted h, serveEngine_admitted h]

section Forms
variable {s : State} (he : s.engaged = false)
include he

theorem step_ask_transact (c : Byte) (d : Direction) (n : Nat) (bytes : List Byte) :
    step (s.ask (.transact c d n bytes)) = toOutcome (engineCommand c d n bytes s) := by
  rw [step_ask he, serveRequest, serveEngine_form he]

theorem step_ask_rdBurst : step (s.ask .rdBurst) = exec .rdBurst s := by
  rw [step_ask he, serveRequest, serveEngine_form he, exec_rdBurst]

theorem step_ask_wrBurst (bytes : List Byte) : step (s.ask (.wrBurst bytes)) = exec (.wrBurst bytes) s := by
  rw [step_ask he, serveRequest, serveEngine_form he, exec_wrBurst]

variable (hb : s.bound = true) (hp : s.params.wf = true)
include hb hp

theorem step_ask_rdb (r : Reg) : step (s.ask (.rdb (r.field s.params))) = exec (.readOf r) s := by
  rw [step_ask he, serveRequest, serveField_field hb he hp, serveEngine_form he, exec_readOf]

theorem step_ask_wrb (r : Reg) (v : Byte) : step (s.ask (.wrb (r.field s.params) v)) = exec (.writeOf r v) s := by
  rw [step_ask he, serveRequest, serveField_field hb he hp, serveEngine_form he, exec_writeOf]

end Forms

/-- A transaction that no facade request asked for ends with nothing in progress. -/
theorem afterTransaction_engaged {s : State} (he : s.engaged = false) (c : Byte) (d : Direction) (bytes : List Byte) :
    (s.afterTransaction c d bytes).deliver.engaged = false :=
  engaged_of (afterTransaction_phase s c d bytes) ((afterTransaction_task s c d bytes).trans (engaged_task he))

/-- A read delivers the first `n` buffer bytes. -/
theorem afterRead_deliver_replies (s : State) (c : Byte) :
    (s.afterRead c).deliver.replies = .ok (.bytes (bufBytes (s.afterRead c).buf (dataLen s.params c))) :: s.replies := by
  rw [State.deliver_replies, afterRead_result, afterRead_replies]

/-- Settles O26: with nothing in progress each request is served as its instruction is (`step_ask_rdb` and the like), and the transaction runs to its
end. -/
theorem registerRequestsRunTheirInstruction : Obligations.RegisterRequestsRunTheirInstruction := by
  unfold Obligations.RegisterRequestsRunTheirInstruction
  intro r v bytes s hs
  obtain ⟨hb, he, -, hp⟩ := canTransact_iff.1 hs
  have hrdb := step_ask_rdb he hb hp r
  have hwrb := step_ask_wrb he hb hp r v
  have hrdBurst := step_ask_rdBurst he
  have hwrBurst := step_ask_wrBurst he bytes
  refine ⟨⟨?_, ?_, ?_, ?_⟩, ⟨hrdb, hwrb, hrdBurst, hwrBurst⟩, fun ha => ⟨?_, ?_, ?_, fun hl => ?_⟩⟩
  · rw [hrdb, step_ask_transact he, exec_readOf]
  · rw [hwrb, step_ask_transact he, exec_writeOf]
  · rw [hrdBurst, step_ask_transact he, exec_rdBurst]
  · rw [hwrBurst, step_ask_transact he, exec_wrBurst]
  · have hreplies := afterRead_deliver_replies s (cmdRead s.params (r.field s.params))
    rw [dataLen_cmdRead hp, bufBytes_one] at hreplies
    exact ⟨_, (run_ask (hrdb.trans (exec_readOf_next hs r)) 90).trans (run_readOf hs ha r), afterTransaction_engaged he _ .read [], hreplies⟩
  · exact ⟨_, (run_ask (hwrb.trans (exec_writeOf_next hs r v)) 105).trans (run_writeOf hs ha r v), afterTransaction_engaged he _ .write [v], rfl⟩
  · have hreplies := afterRead_deliver_replies s (burstReadAddr s.params)
    rw [dataLen_burstRead] at hreplies
    exact ⟨_, (run_ask (hrdBurst.trans (exec_rdBurst_next hs)) 314).trans (run_rdBurst hs ha), afterTransaction_engaged he _ .read [], hreplies⟩
  · exact ⟨_, (run_ask (hwrBurst.trans (exec_wrBurst_next hs hl)) 441).trans (run_wrBurst hs ha bytes),
      afterTransaction_engaged he _ .write bytes, rfl⟩

/-- Settles O19: 0x00 is the seconds' field under the defaults, the request runs as WR_SEC does, and its 16 edges are those of every such write (O18),
evaluated for this byte. -/
theorem sourcesBitOrderExample : Obligations.SourcesBitOrderExample := by
  unfold Obligations.SourcesBitOrderExample
  intro s hs hp ha
  obtain ⟨hb, he, -, hwf⟩ := canTransact_iff.1 hs
  have hfield : Reg.sec.field s.params = 0x00 := by rw [hp]; rfl
  have hstep := (step_ask_wrb he hb hwf .sec 0b10110000).trans (exec_writeOf_next hs .sec 0b10110000)
  have hevents := afterWrite_events s (cmdWrite s.params (Reg.sec.field s.params)) [0b10110000]
  rw [dataLen_cmdWrite hwf] at hevents
  refine ⟨(s.afterWrite (cmdWrite s.params (Reg.sec.field s.params)) [0b10110000]).deliver, writeEvents s.params .sec 0b10110000, ?_, rfl,
    hevents, ?_⟩
  · rw [← hfield, run_ask hstep, run_writeOf hs ha]
  · rw [hp]
    exact (writeShowsBitsLeastSignificantFirst _ .one _).trans (by decide)

end Sys2Proof.Machine

/-! The calendar codec (41_calendar_codec.md R150 to R176): the BCD primitives by their decimal digits, `decode` and `encode` field by field from them, and
the requests that use the codec or clear the write protection. -/
namespace Sys2Proof.Machine

open Sys2Proof

/-! ## The BCD primitives by their digits (41_calendar_codec.md R150, R151) -/

/-- High nibble times ten plus low nibble. -/
theorem bcd2bin_digits (b : Byte) : bcd2bin b = 10 * ((b.toNat : Int) / 16) + (b.toNat : Int) % 16 := by
  have hb := b.isLt
  simp only [bcd2bin, BitVec.extractLsb_toNat, Nat.shiftRight_eq_div_pow]
  omega

/-- Tens in the high nibble, of which four bits are kept, and units in the low one. -/
theorem bin2bcd_toNat (v : Nat) : (bin2bcd v).toNat = 16 * (v / 10 % 16) + v % 10 := by
  have htens : (BitVec.ofNat 8 (v / 10 % 16) <<< 4).toNat = (v / 10 % 16) <<< 4 := by
    simp only [BitVec.toNat_shiftLeft, BitVec.toNat_ofNat, Nat.shiftLeft_eq]
    omega
  have hunits : (BitVec.ofNat 8 (v % 10)).toNat = v % 10 := Nat.mod_eq_of_lt (by omega)
  rw [bin2bcd, BitVec.toNat_or, htens, hunits, ← Nat.shiftLeft_add_eq_or_of_lt (by omega), Nat.shiftLeft_eq, Nat.mul_comm]

/-- The tens may be any nibble: `bin2bcd` keeps four bits of them. -/
theorem bin2bcd_bcd2bin {b : Byte} (hlo : (b.extractLsb 3 0).toNat ≤ 9) :
    bin2bcd (bcd2bin b).toNat = b := by
  apply BitVec.eq_of_toNat_eq
  have hb := b.isLt
  have hdigits := bcd2bin_digits b
  simp only [BitVec.extractLsb_toNat, Nat.shiftRight_eq_div_pow] at hlo
  rw [bin2bcd_toNat]
  omega

/-- Settles O38: one way the laws are those of `bcd2bin_bin2bcd`, the other way the digits come back one by one (`bin2bcd_bcd2bin`). -/
theorem bcdPrimitivesInvertEachOther : Obligations.BcdPrimitivesInvertEachOther := by
  unfold Obligations.BcdPrimitivesInvertEachOther
  exact ⟨bcd2bin_bin2bcd, fun _ _ => bin2bcd_bcd2bin, bcd2bin_range⟩

/-- The digits of an integer that has a code. -/
theorem bcdOf_digits {v : Int} {b : Byte} (h : bcdOf v = some b) : (b.toNat : Int) = 16 * (v / 10 % 16) + v % 10 := by
  obtain ⟨hv, rfl⟩ : 0 ≤ v ∧ bin2bcd v.toNat = b := by simpa [bcdOf] using h
  rw [bin2bcd_toNat]
  omega

/-! ## Decoding (41_calendar_codec.md R153 to R161) -/

/-- The five low bits of an hours byte, by their digits. -/
theorem decodeHour_h12_digits (b : Byte) :
    decodeHour .h12 b = 12 * (b.toNat / 32 % 2 : Nat) + (10 * ((b.toNat % 32 : Nat) / 16 : Int) + ((b.toNat % 32 : Nat) : Int) % 16) - 1 := by
  have hlow : (b &&& 0x1F#8).toNat = b.toNat % 32 := Nat.and_two_pow_sub_one_eq_mod b.toNat 5
  have hpm : (if pmBit b then 1 else 0 : Int) = (b.toNat / 32 % 2 : Nat) := by
    rw [pmBit, BitVec.getLsbD, Config.hour12PmBit, Nat.testBit_eq_decide_div_mod_eq]
    rcases Nat.mod_two_eq_zero_or_one (b.toNat / 2 ^ 5) with h | h <;> simp_all
  rw [decodeHour, bcd2bin_digits, hlow, hpm]

theorem decodeHour_range (m : HourMode) (b : Byte) :
    (m = .h24 → 0 ≤ decodeHour m b ∧ decodeHour m b ≤ 165) ∧ (m = .h12 → -1 ≤ decodeHour m b ∧ decodeHour m b ≤ 36) := by
  cases m with
  | h24 => exact ⟨fun _ => bcd2bin_range b, nofun⟩
  | h12 =>
    refine ⟨nofun, fun _ => ?_⟩
    rw [decodeHour_h12_digits]
    omega

/-- Settles O39: each field by the digits of its byte, and the ranges from those of `bcd2bin`. -/
theorem decodeOutputRanges : Obligations.DecodeOutputRanges := by
  unfold Obligations.DecodeOutputRanges
  intro m raw t digits
  have hmonth := bcd2bin_range raw.month
  have hwday := bcd2bin_range raw.wday
  have hyear := bcd2bin_range raw.year
  obtain ⟨h24, h12⟩ := decodeHour_range m raw.hour
  refine ⟨⟨bcd2bin_digits _, bcd2bin_digits _, bcd2bin_digits _, congrArg (· - 1) (bcd2bin_digits _), congrArg (· - 1) (bcd2bin_digits _),
    congrArg (100 + ·) (bcd2bin_digits _), ?_, ?_⟩, bcd2bin_range _, bcd2bin_range _, bcd2bin_range _, h24, h12, ?_, ?_, ?_⟩
  · rintro rfl
    exact bcd2bin_digits _
  · rintro rfl
    exact decodeHour_h12_digits _
  all_goals
    simp only [t, decodeTime, Config.yearBase]
    omega

/-! ## Encoding (41_calendar_codec.md R162 to R172) -/

/-- `encode` succeeds exactly when each of its fields does. -/
theorem encodeTime_eq_some {m : HourMode} {t : WallClock} {raw : RawTime} : encodeTime m t = some raw ↔
    bcdOf t.sec = some raw.sec ∧ bcdOf t.min = some raw.min ∧ encodeHour m t.hour = some raw.hour ∧ bcdOf t.mday = some raw.date ∧
      bcdOf (t.mon + 1) = some raw.month ∧ bcdOf (t.wday + 1) = some raw.wday ∧ bcdOf (t.year - 100) = some raw.year := by
  unfold encodeTime Config.yearBase
  split
  · next hsec hmin hhour hdate hmonth hwday hyear =>
    cases raw
    simp [hsec, hmin, hhour, hdate, hmonth, hwday, hyear]
  · next hnone =>
    refine ⟨nofun, fun ⟨hsec, hmin, hhour, hdate, hmonth, hwday, hyear⟩ => ?_⟩
    exact (hnone _ _ _ _ _ _ _ hsec hmin hhour hdate hmonth hwday hyear).elim

/-- R166: bit 7, bit 5 from noon on, and the code of the hour 1..12, merged by OR. -/
theorem encodeHour_h12 {h : Int} {b : Byte} (hb : encodeHour .h12 h = some b) :
    ∃ d, bcdOf ((if 12 ≤ h then h - 12 else h) + 1) = some d ∧ b = 0x80 ||| (if 12 ≤ h then 0x20 else 0x00) ||| d := by
  obtain ⟨d, hd, rfl⟩ := Option.map_eq_some_iff.1 hb
  by_cases hpm : 12 ≤ h
  · refine ⟨d, ?_, ?_⟩
    · rw [← hd, hour12, if_pos hpm, if_pos hpm, mul_one]
    · rw [if_pos hpm, decide_eq_true hpm]
      rfl
  · refine ⟨d, ?_, ?_⟩
    · rw [← hd, hour12, if_neg hpm, if_neg hpm, mul_zero, sub_zero]
    · rw [if_neg hpm, decide_eq_false hpm]
      rfl

/-- A code of at most one ten, as that of an hour 1..12, takes the five low bits. -/
theorem bcdOf_toNat_lt {v : Int} {b : Byte} (h : bcdOf v = some b) (h0 : 0 ≤ v) (h19 : v ≤ 19) : b.toNat < 32 := by
  have hcode := bcdOf_digits h
  rw [Int.emod_eq_of_lt (a := v / 10) (by omega) (by omega)] at hcode
  omega

/-- A code below 32 meets neither bit 7 nor bit 5. -/
theorem flags_or_toNat {d : Byte} (hd : d.toNat < 32) (a : Nat) (ha : a < 8) : (BitVec.ofNat 8 (32 * a) ||| d).toNat = 32 * a + d.toNat := by
  rw [BitVec.toNat_or, BitVec.toNat_ofNat, Nat.mod_eq_of_lt (by omega)]
  exact (Nat.two_pow_add_eq_or_of_lt (i := 5) hd a).symm

/-- Settles O40: each byte by the digits of its field (`bcdOf_digits`), the hour of H12 by its three parts (`encodeHour_h12`). -/
theorem encodeWritesTheDecimalDigits : Obligations.EncodeWritesTheDecimalDigits := by
  unfold Obligations.EncodeWritesTheDecimalDigits
  intro m t raw h digits
  obtain ⟨hsec, hmin, hhour, hdate, hmonth, hwday, hyear⟩ := encodeTime_eq_some.1 h
  refine ⟨bcdOf_digits hsec, bcdOf_digits hmin, bcdOf_digits hdate, bcdOf_digits hmonth, bcdOf_digits hwday, bcdOf_digits hyear, ?_, ?_, ?_, ?_⟩
  · rintro rfl
    exact bcdOf_digits hhour
  · rintro rfl
    obtain ⟨d, hd, hor⟩ := encodeHour_h12 hhour
    have hcode : BitVec.ofInt 8 (digits ((if 12 ≤ t.hour then t.hour - 12 else t.hour) + 1)) = d := by
      rw [← show (d.toNat : Int) = digits _ from bcdOf_digits hd, BitVec.ofInt_natCast, BitVec.ofNat_toNat, BitVec.setWidth_eq]
    rw [hcode]
    exact hor
  · rintro rfl hmidnight hnoon
    obtain ⟨d, hd, hor⟩ := encodeHour_h12 hhour
    rw [if_neg (by omega)] at hd hor
    have hcode := bcdOf_digits hd
    have hsum : raw.hour.toNat = 128 + d.toNat := hor ▸ flags_or_toNat (bcdOf_toNat_lt hd (by omega) (by omega)) 4 (by omega)
    simp only [digits]
    omega
  · rintro rfl hnoon hday
    obtain ⟨d, hd, hor⟩ := encodeHour_h12 hhour
    rw [if_pos hnoon] at hd hor
    have hcode := bcdOf_digits hd
    have hsum : raw.hour.toNat = 160 + d.toNat := hor ▸ flags_or_toNat (bcdOf_toNat_lt hd (by omega) (by omega)) 5 (by omega)
    simp only [digits]
    omega

/-- Settles O42: `encode` fails where one of its fields does (`encodeTime_none`), and `bin2bcd` where its operand is negative (`bcdOf_none`); the two sides list the
hour at different places. -/
theorem encodeRefusesNegativesAlone : Obligations.EncodeRefusesNegativesAlone := by
  unfold Obligations.EncodeRefusesNegativesAlone
  intro m t
  cases m <;> simp only [encodeTime_none, encodeHour_none, bcdOf_none, Config.yearBase] <;> tauto

/-! ## The round trip (41_calendar_codec.md R173) -/

/-- The ranges of R201, each field alone. -/
theorem valid_iff {t : WallClock} : t.valid = true ↔
    (0 ≤ t.sec ∧ t.sec ≤ 59) ∧ (0 ≤ t.min ∧ t.min ≤ 59) ∧ (0 ≤ t.hour ∧ t.hour ≤ 23) ∧ (1 ≤ t.mday ∧ t.mday ≤ 31) ∧
      (0 ≤ t.mon ∧ t.mon ≤ 11) ∧ (0 ≤ t.wday ∧ t.wday ≤ 6) ∧ (100 ≤ t.year ∧ t.year ≤ 199) := by
  simp only [WallClock.valid, Bool.and_eq_true, decide_eq_true_eq, and_assoc]

/-- Settles O41: every field of a valid time has a code that reads back as the field (`bcdOf_ok`, `encodeHour_ok`). -/
theorem decodeOfEncodeIsTheTime : Obligations.DecodeOfEncodeIsTheTime := by
  unfold Obligations.DecodeOfEncodeIsTheTime
  intro m t hvalid
  obtain ⟨hsec, hmin, hhour, hmday, hmon, hwday, hyear⟩ := valid_iff.1 hvalid
  obtain ⟨sec, hsec, sec_eq⟩ := bcdOf_ok hsec.1 (by omega)
  obtain ⟨min, hmin, min_eq⟩ := bcdOf_ok hmin.1 (by omega)
  obtain ⟨hour, hhour, hour_eq⟩ := encodeHour_ok m hhour.1 hhour.2
  obtain ⟨date, hmday, date_eq⟩ := bcdOf_ok (v := t.mday) (by omega) (by omega)
  obtain ⟨month, hmon, month_eq⟩ := bcdOf_ok (v := t.mon + 1) (by omega) (by omega)
  obtain ⟨wday, hwday, wday_eq⟩ := bcdOf_ok (v := t.wday + 1) (by omega) (by omega)
  obtain ⟨year, hyear, year_eq⟩ := bcdOf_ok (v := t.year - 100) (by omega) (by omega)
  refine ⟨⟨sec, min, hour, date, month, wday, year⟩, encodeTime_eq_some.2 ⟨hsec, hmin, hhour, hmday, hmon, hwday, hyear⟩, ?_⟩
  simp only [decodeTime, Config.yearBase, sec_eq, min_eq, hour_eq, date_eq, month_eq, wday_eq, year_eq, add_sub_cancel_right,
    add_sub_cancel]

/-! ## DECODE and ENCODE (41_calendar_codec.md R152, R162, R171, R172) -/

/-- Seven bytes, and the filler after them in burst mode. -/
theorem encodedBytes_eq (burst : Option Bool) (raw : RawTime) :
    encodedBytes (burst.getD false) raw =
      [raw.sec, raw.min, raw.hour, raw.date, raw.month, raw.wday, raw.year] ++ if burst = some true then [0x00] else [] := by
  cases burst with
  | none => rfl
  | some b => cases b <;> rfl

theorem serveEncode_some {t : WallClock} {s : State} {raw : RawTime} (h : encodeTime s.hours t = some raw) :
    serveEncode t s = s.reply (.ok (.bytes (encodedBytes s.burst raw))) := by simp only [serveEncode, h]

theorem serveEncode_none {t : WallClock} {s : State} (h : encodeTime s.hours t = none) : serveEncode t s = s.refuse .negativeEncode := by
  simp only [serveEncode, h]

/-- Settles O43: with nothing in progress both are served (`step_ask`), and serving them only puts the answer on record. -/
theorem codecRequestsAnswerAndChangeNothing : Obligations.CodecRequestsAnswerAndChangeNothing := by
  unfold Obligations.CodecRequestsAnswerAndChangeNothing
  intro raw t s he
  refine ⟨step_ask he _, fun r hr => ?_, fun hr => ?_⟩
  · rw [step_ask he, serveRequest, serveEncode_some hr, State.burst, encodedBytes_eq, toOutcome_ok, State.reply]
  · rw [step_ask he, serveRequest, serveEncode_none hr, toOutcome_ok, State.refuse, State.reply]

/-! ## The write-protect clear (41_calendar_codec.md R174, R175) -/

/-- The write comes after the acceptance that follows the read. -/
theorem clearSteps_eq (p : Params) (ss : List Bool) : clearSteps p ss = 90 + if guardSet p (byteOf ss) = true then 1 + 105 else 0 := by
  unfold clearSteps
  split <;> rfl

section Clear
variable {p : Params} {ss : List Bool}

theorem clearRecord_eq_wasSet_iff : clearRecord p ss = .wasSet ↔ guardSet p (byteOf ss) = true := by simp [clearRecord]

theorem clearRecord_eq_wasClear_iff : clearRecord p ss = .wasClear ↔ guardSet p (byteOf ss) = false := by simp [clearRecord]

/-- What a clear shows when the byte it read has the guard bit set: RD_WP and then WR_WP of 0x00. -/
theorem clearEvents_set (h : guardSet p (byteOf ss) = true) :
    clearEvents p ss = transactionEvents (cmdRead p p.aWp) .read .one [] ss ++ transactionEvents (cmdWrite p p.aWp) .write .one [0x00] [] ∧
      commandsOf (clearEvents p ss) = [cmdRead p p.aWp, cmdWrite p p.aWp] := by
  have hevents : clearEvents p ss =
      transactionEvents (cmdRead p p.aWp) .read .one [] ss ++ transactionEvents (cmdWrite p p.aWp) .write .one [0x00] [] := by
    rw [clearEvents, if_pos h]
    rfl
  exact ⟨hevents, by rw [hevents, commandsOf_append, commandsOf_transaction]⟩

/-- And when it has it clear: RD_WP alone. -/
theorem clearEvents_clear (h : guardSet p (byteOf ss) = false) :
    clearEvents p ss = transactionEvents (cmdRead p p.aWp) .read .one [] ss ∧ commandsOf (clearEvents p ss) = [cmdRead p p.aWp] := by
  have hevents : clearEvents p ss = transactionEvents (cmdRead p p.aWp) .read .one [] ss := by
    rw [clearEvents, if_neg (by simp [h]), List.append_nil]
    rfl
  exact ⟨hevents, by rw [hevents, commandsOf_transaction]⟩

end Clear

/-- Under the reference oracle the byte read shows `CR[7]`'s guard bit, and the clear leaves that bit clear and the other registers alone. -/
theorem ClearsGuard.registers {s u : State} {ss : List Bool} (h : ClearsGuard s u (clearRecord s.params ss)) (ho : s.chip.oracle = .reference)
    (hm : s.chip.cr.wf = true) :
    guardSet s.params (byteOf ss) = s.chip.cr.guarded s.params ∧ (∀ r, r ≠ .wp → u.chip.cr.reg r = s.chip.cr.reg r) ∧
      u.chip.cr.reg .wp = if s.chip.cr.guarded s.params = true then 0x00 else s.chip.cr.reg .wp := by
  obtain ⟨hset, hclear⟩ := h ho
  cases hg : s.chip.cr.guarded s.params with
  | true =>
    obtain ⟨hrecord, hcr⟩ := hset hg
    refine ⟨clearRecord_eq_wasSet_iff.1 hrecord, fun r hr => ?_, ?_⟩
    · rw [hcr, reg_setReg hm, if_neg hr]
    · rw [hcr, reg_setReg hm, if_pos rfl, if_pos rfl]
      rfl
  | false =>
    obtain ⟨hrecord, hcr⟩ := hclear hg
    refine ⟨clearRecord_eq_wasClear_iff.1 hrecord, fun r _ => by rw [hcr], ?_⟩
    rw [hcr, if_neg Bool.false_ne_true]

/-- A clear that has ended leaves nothing in progress. -/
theorem cleared_engaged {u : State} (hi : u.phase = .idle) (w : WpRecord) (init : Bool) : (u.cleared w init).engaged = false := engaged_of hi rfl

/-- Settles O44: CLRWP runs to its end (`run_clrWp`) with the events of `clearEvents`, and under the reference oracle it leaves the registers of
`ClearsGuard.registers`. -/
theorem clearWriteProtectClearsTheGuard : Obligations.ClearWriteProtectClearsTheGuard := by
  unfold Obligations.ClearWriteProtectClearsTheGuard
  intro s hs ha
  obtain ⟨u, ss, hlen, hrun, hran, hguard⟩ := run_clrWp hs ha
  rw [clearSteps_eq, ← Nat.add_assoc] at hrun
  refine ⟨_, ss, clearEvents s.params ss, hlen, hrun, congrArg (Reply.ok .none :: ·) hran.replies, hran.events, hran.idle,
    cleared_engaged hran.phase _ _, fun hset => ⟨clearRecord_eq_wasSet_iff.2 hset, clearEvents_set hset⟩,
    fun hclear => ⟨clearRecord_eq_wasClear_iff.2 hclear, clearEvents_clear hclear⟩, hguard.registers⟩

end Sys2Proof.Machine

/-! The facade (42_rtc_facade.md R200 to R211): INIT, READTIME, SETTIME and unbind from the runs of their transactions (`run_init`, `run_readTime`,
`run_setTime`), and what a facade request is refused for. -/
namespace Sys2Proof.Machine

open Sys2Proof

/-! ## Access mode and hour encoding (10_state.md R31, R32) -/

theorem burst_iff {s : State} : s.burst = true ↔ s.burstMode = some true := by
  unfold State.burst
  cases s.burstMode with
  | none => simp
  | some b => simp

theorem burst_false_iff {s : State} : s.burst = false ↔ s.burstMode ≠ some true := by rw [ne_eq, ← burst_iff, Bool.not_eq_true]

theorem hours_congr {s u : State} (h : s.hourMode = u.hourMode) : s.hours = u.hours := by rw [State.hours, h, State.hours]

theorem readTimeSteps_eq (s : State) : s.readTimeSteps = if s.burstMode = some true then 314 else 7 * 90 + 6 := by
  simp only [State.readTimeSteps, burst_iff]

theorem setTimeSteps_eq (s : State) : s.setTimeSteps = if s.burstMode = some true then 441 else 7 * 105 + 6 := by
  simp only [State.setTimeSteps, burst_iff]

/-! ## The end of a facade request (60_exceptions.md R230) -/

section Finish
variable {s u : State} {es : List Event} (h : Ran s u es)
include h

/-- What ran for a request leaves the control block as the request found it. -/
theorem Ran.finish_sameControl (ht : s.task = none) (r : Result) : SameControl s (u.finish r) := by
  obtain ⟨hburst, hhour, hdev, hwp, hce, hclk, hdata, hpending, hparams, -, harrivals⟩ := h.control
  exact ⟨hburst, hhour, hdev, hwp, hce, hclk, hdata, hpending, hparams, ht.symm, harrivals⟩

theorem Ran.finish_replies (r : Result) : (u.finish r).replies = .ok r :: s.replies := congrArg _ h.replies

theorem Ran.burstMode : u.burstMode = s.burstMode := by
  obtain ⟨hburst, -⟩ := h.control
  exact hburst

theorem Ran.hours : u.hours = s.hours := by
  obtain ⟨-, hhour, -⟩ := h.control
  exact hours_congr hhour

theorem Ran.devState : u.devState = s.devState := by
  obtain ⟨-, -, hdev, -⟩ := h.control
  exact hdev

/-- The device is ready for the next request. -/
theorem Ran.finish_canTransact (hs : s.canTransact = true) (r : Result) : (u.finish r).canTransact = true := by
  obtain ⟨hb, -, -, hp⟩ := canTransact_iff.1 hs
  exact canTransact_iff.2 ⟨bound_eq_true_iff.2 (h.devState ▸ bound_eq_true_iff.1 hb), engaged_of h.phase rfl, h.outputs, h.params ▸ hp⟩

/-- READTIME decodes its bytes under the encoding that was configured when it was asked (41_calendar_codec.md R176). -/
theorem Ran.timeRead_replies (bs : List Byte) :
    (u.timeRead bs).replies = .ok (.time (decodeTime s.hours (RawTime.ofList bs))) :: s.replies := by
  rw [State.timeRead, h.finish_replies, h.hours]

end Finish

/-! ## READTIME (42_rtc_facade.md R203, R204, R208) -/

/-- The calendar is the first seven bytes of a list, whatever follows: the burst's eighth byte is discarded (R203). -/
theorem toList_ofList {bs : List Byte} (h : 7 ≤ bs.length) : (RawTime.ofList bs).toList = bs.take 7 := by
  match bs, h with
  | _ :: _ :: _ :: _ :: _ :: _ :: _ :: _, _ => rfl

/-- The command bytes of a READTIME. -/
theorem commandsOf_readTimeEvents {burst : Bool} {sss : List (List Bool)} (p : Params) (h : sss.length = if burst = true then 1 else 7) :
    commandsOf (readTimeEvents p burst sss) =
      if burst = true then [burstReadAddr p] else Reg.calendar.map fun r => cmdRead p (r.field p) := by
  cases burst with
  | true =>
    obtain ⟨ss, rfl⟩ := List.length_eq_one_iff.1 h
    simp only [readTimeEvents, if_true, List.flatMap_singleton, commandsOf_transaction]
  | false =>
    have hfst : (Reg.calendar.zip sss).map Prod.fst = Reg.calendar := List.map_fst_zip (by simp [h, Reg.calendar])
    simp only [readTimeEvents, readEvents, Bool.false_eq_true, if_false, commandsOf_flatMap]
    conv_rhs => rw [← hfst, List.map_map]
    rfl

/-- Settles O47: READTIME runs to its end (`run_readTime`) with some samples, and its bytes are theirs in either access mode. -/
theorem readTimeNeverFails : Obligations.ReadTimeNeverFails := by
  unfold Obligations.ReadTimeNeverFails
  intro s hd hs ha
  obtain ⟨sss, bs, u, hrun, hburst, hdiscrete, hran, href⟩ := run_readTime hs ha hd
  obtain ⟨-, he, -, -⟩ := canTransact_iff.1 hs
  rw [readTimeSteps_eq] at hrun
  refine ⟨_, RawTime.ofList bs, readTimeEvents s.params s.burst sss, hrun, hran.timeRead_replies bs, hran.events, fun hb => ?_, fun hb => ?_,
    hran.finish_sameControl (engaged_task he) _, hran.idle, hran.phase, fun ho => (href ho).1⟩
  · have hb : s.burst = true := burst_iff.2 hb
    obtain ⟨hone, hlen, rfl⟩ := hburst hb
    obtain ⟨ss, rfl⟩ := List.length_eq_one_iff.1 hone
    refine ⟨ss, hlen ss List.mem_cons_self, ?_, ?_⟩
    · simp [readTimeEvents, hb]
    · rw [List.flatMap_singleton, toList_ofList (by simp [bytesOfSamples])]
  · have hb : s.burst = false := burst_false_iff.2 hb
    obtain ⟨hseven, hlen, rfl⟩ := hdiscrete hb
    refine ⟨sss, hseven, hlen, ?_, ?_⟩
    · rw [readTimeEvents, hb, if_neg Bool.false_ne_true]
      rfl
    · rw [toList_ofList (by simp [hseven]), List.take_of_length_le (by simp [hseven])]

/-- READTIME of a reference chip: the record is the decoding of the calendar registers. -/
theorem run_readTime_reference {s : State} (hs : s.canTransact = true) (ha : s.arrivals = []) (hd : s.devState = .ready)
    (ho : s.chip.oracle = .reference) :
    ∃ t sss, Host.Core.run Sys2Proof.core (1 + s.readTimeSteps) (s.ask .readTime) = .next t ∧
      t.replies = .ok (.time (decodeTime s.hours s.chip.cr.calendar)) :: s.replies ∧
      t.trace = (readTimeEvents s.params s.burst sss).reverse ++ s.trace ∧ sss.length = if s.burst = true then 1 else 7 := by
  obtain ⟨sss, bs, u, hrun, hburst, hdiscrete, hran, href⟩ := run_readTime hs ha hd
  obtain ⟨-, hbs⟩ := href ho
  refine ⟨_, sss, hrun, by rw [hran.timeRead_replies, hbs], hran.events, ?_⟩
  cases hb : s.burst with
  | true => exact (hburst hb).1
  | false => exact (hdiscrete hb).1

/-- Settles O48: `run_readTime_reference`, with the command bytes of its events. -/
theorem readTimeDecodesTheRegisters : Obligations.ReadTimeDecodesTheRegisters := by
  unfold Obligations.ReadTimeDecodesTheRegisters
  intro s hd hs ha ho
  obtain ⟨t, sss, hrun, hreplies, htrace, hlen⟩ := run_readTime_reference hs ha hd ho
  rw [readTimeSteps_eq] at hrun
  refine ⟨t, _, hrun, hreplies, htrace, ?_⟩
  rw [commandsOf_readTimeEvents s.params hlen]
  simp only [burst_iff]
  rfl

/-! ## SETTIME (42_rtc_facade.md R205, R206) -/

/-- The command bytes of a SETTIME. -/
theorem commandsOf_setTimeEvents (p : Params) (burst : Bool) (raw : RawTime) :
    commandsOf (setTimeEvents p burst raw) =
      if burst = true then [burstWriteAddr p] else Reg.calendar.map fun r => cmdWrite p (r.field p) := by
  cases burst with
  | true => exact commandsOf_transaction _ _ _ _ _
  | false => exact commandsOf_flatMap _ _ _ _ _ _

/-- Settles O50: a valid time has an encoding (O41), and SETTIME of it runs to its end (`run_setTime`). -/
theorem setTimeWritesTheEncoding : Obligations.SetTimeWritesTheEncoding := by
  unfold Obligations.SetTimeWritesTheEncoding
  intro τ s hv hd hs ha
  obtain ⟨raw, henc, -⟩ := decodeOfEncodeIsTheTime s.hours τ hv
  obtain ⟨u, hrun, hran, href⟩ := run_setTime hs ha hd hv henc
  obtain ⟨-, he, -, -⟩ := canTransact_iff.1 hs
  have hcommands := commandsOf_setTimeEvents s.params s.burst raw
  simp only [burst_iff] at href
  rw [setTimeSteps_eq] at hrun
  refine ⟨_, setTimeEvents s.params s.burst raw, raw, hrun, henc, hran.finish_replies _, hran.events,
    hran.finish_sameControl (engaged_task he) _, hran.idle, fun hb => ?_, fun hb => ?_, href⟩
  · rw [burst_iff.2 hb] at hcommands ⊢
    exact ⟨hcommands, rfl⟩
  · rw [burst_false_iff.2 hb] at hcommands ⊢
    exact ⟨hcommands, rfl⟩

/-- The calendar is what the seven registers hold. -/
theorem calendar_congr {m m' : Memory} (h : ∀ r : Reg, r ≠ .wp → m.reg r = m'.reg r) : m.calendar = m'.calendar := by
  simp [Memory.calendar, h]

/-- Settles O49: by `run_readTime_reference` both read the decoding of equal registers, and by `run_setTime` both leave the same encoding. -/
theorem burstAndDiscreteReadTimeAgree : Obligations.BurstAndDiscreteReadTimeAgree := by
  unfold Obligations.BurstAndDiscreteReadTimeAgree
  intro s u hds hdu hss hsu has hau hos hou hms hmu hm hcr
  have hhours : s.hours = u.hours := hours_congr hm
  have hbs : s.burst = true := burst_iff.2 hms
  have hbu : u.burst = false := burst_false_iff.2 (by simp [hmu])
  refine ⟨?_, fun τ hv hws hwu hgs hgu => ?_⟩
  · obtain ⟨t, -, hrun, hreplies, -⟩ := run_readTime_reference hss has hds hos
    obtain ⟨w, -, hrun', hreplies', -⟩ := run_readTime_reference hsu hau hdu hou
    rw [← hhours, ← calendar_congr hcr] at hreplies'
    rw [State.readTimeSteps, hbs] at hrun
    rw [State.readTimeSteps, hbu] at hrun'
    exact ⟨t, w, _, hrun, hrun', hreplies, hreplies'⟩
  · obtain ⟨raw, henc, -⟩ := decodeOfEncodeIsTheTime s.hours τ hv
    obtain ⟨t, hrun, -, href⟩ := run_setTime hss has hds hv henc
    obtain ⟨w, hrun', -, href'⟩ := run_setTime hsu hau hdu hv (hhours ▸ henc)
    obtain ⟨hcal, hwp⟩ := href hos hws hgs
    obtain ⟨hcal', hwp'⟩ := href' hou hwu hgu
    rw [State.setTimeSteps, hbs] at hrun
    rw [State.setTimeSteps, hbu] at hrun'
    rw [hbs] at hwp
    rw [hbu] at hwp'
    exact ⟨_, _, hrun, hrun', hcal.trans hcal'.symm, hwp, hwp'⟩

/-- Settles O52: SETTIME leaves the encoding in the registers (`run_setTime`) and the device ready for READTIME, which decodes them
(`run_readTime_reference`); the round trip is O41. -/
theorem readTimeReturnsTheTimeSet : Obligations.ReadTimeReturnsTheTimeSet := by
  unfold Obligations.ReadTimeReturnsTheTimeSet
  intro τ s hv hd hs ha hm ho hg
  obtain ⟨raw, henc, hdec⟩ := decodeOfEncodeIsTheTime s.hours τ hv
  obtain ⟨v, hset, hran, href⟩ := run_setTime hs ha hd hv henc
  obtain ⟨hcal, -⟩ := href ho hm hg
  obtain ⟨u, -, hread, hreplies, -⟩ := run_readTime_reference (hran.finish_canTransact hs .none) (hran.arrivals.trans ha)
    (hran.devState.trans hd) (hran.oracle ho)
  rw [setTimeSteps_eq] at hset
  rw [readTimeSteps_eq, State.finish_burstMode, hran.burstMode] at hread
  refine ⟨_, u, hset, hread, ?_⟩
  rw [hreplies, State.finish_chip, hcal, hran.finish_replies, show (v.finish .none).hours = s.hours from hran.hours, hdec]

/-! ## INIT (42_rtc_facade.md R202) -/

/-- Settles O45: INIT runs to its end (`run_init`): the lines are set, and then the write-protect clear runs as CLRWP's does. -/
theorem initMakesTheDeviceReady : Obligations.InitMakesTheDeviceReady := by
  unfold Obligations.InitMakesTheDeviceReady
  intro ce clk data burst m s hd he ha hp hce hclk hdata
  obtain ⟨u, ss, hlen, hrun, hran, hguard⟩ := run_init burst m he hd ha hp hce hclk hdata
  obtain ⟨hburst, hhour, -, -, hceB, hclkB, hdataB, hpending, -⟩ := hran.control
  rw [clearSteps_eq, ← Nat.add_assoc] at hrun
  exact ⟨_, ss, clearEvents s.params ss, hlen, hrun, congrArg _ hran.replies, rfl, cleared_engaged hran.phase _ _, hburst, hhour, hceB, hclkB,
    hdataB, hran.idle, hpending, hran.events.trans (List.append_assoc _ _ _).symm,
    fun hset => ⟨clearRecord_eq_wasSet_iff.2 hset, clearEvents_set hset⟩,
    fun hclear => ⟨clearRecord_eq_wasClear_iff.2 hclear, clearEvents_clear hclear⟩, hguard.registers⟩

/-! ## Rejections (42_rtc_facade.md R207, R211) -/

/-- A facade request that is asked of a device that is not Ready is refused. -/
theorem step_ask_notReady {s : State} (he : s.engaged = false) (hd : s.devState ≠ .ready) {r : Request}
    (hr : (Waiting.request r).stateRefusal s = s.lacksInit) : step (s.ask r) = .next (s.refuse .notReady) := by
  rw [step_ask he, serve_stateRefusal (hr.trans (if_neg hd)), toOutcome_ok]

/-- An invalid time is rejected before it is encoded. -/
theorem serveSetTime_invalid {s : State} (hd : s.devState = .ready) (he : s.engaged = false) {τ : WallClock} (hv : τ.valid = false) :
    serveSetTime τ s = .ok (s.reply .invalidArgument) := by
  simp [serveSetTime, hd, he, hv]

/-- Settles O51: `serveSetTime_invalid`, and the refusal for the device state (`step_ask_notReady`). -/
theorem facadeRejectionsChangeNothing : Obligations.FacadeRejectionsChangeNothing := by
  unfold Obligations.FacadeRejectionsChangeNothing
  intro τ s he
  refine ⟨fun hd hv => ?_, fun hd => ⟨step_ask_notReady he hd rfl, step_ask_notReady he hd rfl⟩⟩
  rw [step_ask he, serveRequest, serveSetTime_invalid hd he hv]
  rfl

/-! ## Unbind (42_rtc_facade.md R210) -/

theorem serveUnbind_idle {s : State} (he : s.engaged = false) : serveUnbind s = .ok (s.unbound.reply (.ok .none)) := by
  simp [serveUnbind, he]

/-- What arrives touches no line binding. -/
theorem arrive_bindings (s : State) :
    s.arrive.ceBinding = s.ceBinding ∧ s.arrive.clkBinding = s.clkBinding ∧ s.arrive.dataBinding = s.dataBinding := by
  obtain ⟨_, _, _, h⟩ := arrive_frame s
  rw [h]
  exact ⟨rfl, rfl, rfl⟩

/-- Settles O53: with nothing in progress unbind is served (`serveUnbind_idle`); else it stays the first of those that wait, and the step is one of
what is in progress (`turn_frame`) or fails the binding (`step_arrivalFails`). -/
theorem unbindReleasesTheLines : Obligations.UnbindReleasesTheLines := by
  unfold Obligations.UnbindReleasesTheLines
  intro s
  refine ⟨fun he => ?_, fun he t ht => ?_⟩
  · refine ⟨s.unbound.reply (.ok .none), ?_, rfl, rfl, rfl, rfl, rfl, rfl, rfl, rfl⟩
    rw [step_ask he, serveRequest, serveUnbind_idle he, toOutcome_ok]
  · have hfails : (s.ask .unbind).arrivalFails = s.arrivalFails := rfl
    cases hf : s.arrivalFails with
    | false =>
      obtain ⟨ws, hws⟩ := step_engaged_pending (s := s.ask .unbind) he (hfails.trans hf) ht
      obtain ⟨hce, hclk, hdata⟩ := arrive_bindings (s.ask .unbind)
      have hframe := turn_frame (turn_of_step (s := s.ask .unbind) he (hfails.trans hf) ht)
      rw [hws]
      exact ⟨rfl, fun _ => ⟨hframe.ceBinding.trans hce, hframe.clkBinding.trans hclk, hframe.dataBinding.trans hdata⟩, nofun⟩
    | true =>
      rw [step_arrivalFails (s := s.ask .unbind) he (hfails.trans hf), Host.Outcome.next.injEq] at ht
      subst ht
      exact ⟨rfl, nofun, fun _ => ⟨rfl, rfl, rfl, rfl⟩⟩

end Sys2Proof.Machine

/-! Refusals and failures (60_exceptions.md R231 to R242): requests that arrive while another is in progress, requests that are refused when they are
served, an INIT that fails the binding, and the host's power cycle. -/
namespace Sys2Proof.Machine

open Sys2Proof

/-! ## The device state each request needs (60_exceptions.md R234) -/

/-- A request that runs a transaction on its own, or a frame. -/
def Waiting.Transacts (w : Waiting) : Prop :=
  (∃ bytes, w = .frame bytes) ∨ (∃ c d n bytes, w = .request (.transact c d n bytes)) ∨ (∃ a, w = .request (.rdb a)) ∨
    (∃ a v, w = .request (.wrb a v)) ∨ w = .request .rdBurst ∨ (∃ bytes, w = .request (.wrBurst bytes)) ∨ w = .request .clrWp

def Waiting.Inits (w : Waiting) : Prop := ∃ ce clk data b h, w = .request (.init ce clk data b h)

/-- A request that reads or sets the time. -/
def Waiting.Keeps (w : Waiting) : Prop := w = .request .readTime ∨ ∃ τ, w = .request (.setTime τ)

/-- An INIT without one of its lines (60_exceptions.md R231). -/
def Waiting.Lacks (w : Waiting) : Prop :=
  ∃ ce clk data b h, w = .request (.init ce clk data b h) ∧ ¬(ce.acquirable = true ∧ clk.acquirable = true ∧ data.acquirable = true)

section Refusal
variable {s : State} {why : RefusalReason}

theorem lacksBinding_eq_some_iff :
    s.lacksBinding = some why ↔ (s.devState = .unbound ∨ s.devState = .failed) ∧ why = .notBound := by
  rw [← bound_eq_false_iff]
  cases hb : s.bound <;> simp [State.lacksBinding, hb, eq_comm]

theorem alreadyBound_eq_some_iff : s.alreadyBound = some why ↔ s.devState ≠ .unbound ∧ why = .notUnbound := by
  by_cases hd : s.devState = .unbound <;> simp [State.alreadyBound, hd, eq_comm]

theorem lacksInit_eq_some_iff : s.lacksInit = some why ↔ s.devState ≠ .ready ∧ why = .notReady := by
  by_cases hd : s.devState = .ready <;> simp [State.lacksInit, hd, eq_comm]

/-- Every refusal for the device state, and its reason. -/
theorem stateRefusal_eq_some_iff {w : Waiting} : w.stateRefusal s = some why ↔
    (w.Transacts ∧ (s.devState = .unbound ∨ s.devState = .failed) ∧ why = .notBound) ∨
      (w.Inits ∧ s.devState ≠ .unbound ∧ why = .notUnbound) ∨ (w.Keeps ∧ s.devState ≠ .ready ∧ why = .notReady) := by
  rw [← lacksBinding_eq_some_iff, ← alreadyBound_eq_some_iff, ← lacksInit_eq_some_iff]
  cases w with
  | frame bytes => simp [Waiting.stateRefusal, Waiting.Transacts, Waiting.Inits, Waiting.Keeps]
  | request r => cases r <;> simp [Waiting.stateRefusal, Waiting.Transacts, Waiting.Inits, Waiting.Keeps]

end Refusal

/-! ## What arrives (60_exceptions.md R236, R242) -/

section Arrival
variable {s : State} {w : Waiting} {as : List (Option Waiting)}

theorem arrivalFails_cons (ha : s.arrivals = some w :: as) : s.arrivalFails = true ↔ w.Lacks ∧ s.devState = .unbound := by
  simp [arrivalFails_iff, ha, Waiting.Lacks, and_comm]

/-- The refusal for the device state comes before BindingError, which an Unbound device alone can answer. -/
theorem arrivalFails_of_stateRefusal {why : RefusalReason} (ha : s.arrivals = some w :: as) (h : w.stateRefusal s = some why) :
    s.arrivalFails = false := by
  by_contra hf
  obtain ⟨⟨ce, clk, data, b, m, rfl, -⟩, hd⟩ := (arrivalFails_cons ha).1 (eq_true_of_ne_false hf)
  exact (alreadyBound_eq_some_iff.1 h).1 hd

theorem arrive_refused {why : RefusalReason} (ha : s.arrivals = some w :: as) (h : w.stateRefusal s = some why) :
    s.arrive = { s with arrivals := as }.refuse why := by simp only [State.arrive, ha, h]

theorem arrive_waits (ha : s.arrivals = some w :: as) (h : w.stateRefusal s = none) :
    s.arrive = { s with arrivals := as, pending := s.pending ++ [w] } := by simp only [State.arrive, ha, h]

/-- A step takes what arrives, or what stands in its place, and goes on with what is in progress: two states that differ in nothing else have the
same step. -/
theorem step_eq_of_arrive_eq {u : State} (he : s.engaged = true) (hf : s.arrivalFails = false) (he' : u.engaged = true)
    (hf' : u.arrivalFails = false) (h : s.arrive = u.arrive) : step s = step u := by
  rw [step_engaged he hf, step_engaged he' hf', h]

/-- A request that is refused as it arrives leaves its mark, and the step is the one in which nobody asks. -/
theorem step_arrival_refused {why : RefusalReason} (he : s.engaged = true) (ha : s.arrivals = some w :: as)
    (h : w.stateRefusal s = some why) : step s = step { s with arrivals := none :: as, replies := .refused why :: s.replies } :=
  step_eq_of_arrive_eq he (arrivalFails_of_stateRefusal ha h) he rfl (arrive_refused ha h)

/-- A request that waits as it arrives is put last, and the step is the one in which nobody asks. -/
theorem step_arrival_waits (he : s.engaged = true) (ha : s.arrivals = some w :: as) (hf : s.arrivalFails = false)
    (h : w.stateRefusal s = none) : step s = step { s with arrivals := none :: as, pending := s.pending ++ [w] } :=
  step_eq_of_arrive_eq he hf he rfl (arrive_waits ha h)

/-- What arrives is taken, and either waits last or does not wait. -/
theorem arrive_queue (ha : s.arrivals = some w :: as) :
    s.arrive.arrivals = as ∧ (s.arrive.pending = s.pending ∨ s.arrive.pending = s.pending ++ [w]) := by
  cases h : w.stateRefusal s with
  | none =>
    rw [arrive_waits ha h]
    exact ⟨rfl, .inr rfl⟩
  | some why =>
    rw [arrive_refused ha h]
    exact ⟨rfl, .inl rfl⟩

/-- None that waits is served while something is in progress. -/
theorem step_engaged_queue {t : State} (he : s.engaged = true) (ha : s.arrivals = some w :: as) (h : step s = .next t) :
    t.arrivals = as ∧ (t.pending = s.pending ∨ t.pending = s.pending ++ [w]) := by
  cases hf : s.arrivalFails with
  | true =>
    rw [step_arrivalFails he hf, Host.Outcome.next.injEq] at h
    subst h
    exact ⟨congrArg List.tail ha, .inl rfl⟩
  | false =>
    have hframe := turn_frame (turn_of_step he hf h)
    rw [hframe.arrivals, hframe.pending]
    exact arrive_queue ha

end Arrival

/-! ## A failed binding (60_exceptions.md R231) -/

/-- An INIT in progress ends with the one that fails (log entry 32). -/
theorem bindingFails_replies (s : State) :
    s.bindingFails.replies = .bindingError :: if s.engaged = true then .bindingError :: s.replies else s.replies := rfl

/-- No transaction is ever admitted on a Failed device. -/
theorem admission_bindingFails (s : State) (c : Byte) (d : Direction) (n : Nat) (bytes : List Byte) :
    admission c d n bytes s.bindingFails = .refuse .notBound := admission_notBound rfl

/-- Settles O12: what arrives is refused for the device state (`step_arrival_refused`), fails the binding (`step_arrivalFails`) or waits
(`step_arrival_waits`), as `stateRefusal_eq_some_iff` and `arrivalFails_cons` tell them apart. -/
theorem arrivingRequestsAreRefusedOrWait : Obligations.ArrivingRequestsAreRefusedOrWait := by
  unfold Obligations.ArrivingRequestsAreRefusedOrWait
  intro w as s he ha transacts inits lacks keeps refusedFor
  have hrefused : ∀ {why}, w.stateRefusal s = some why → refusedFor why := step_arrival_refused he ha
  refine ⟨fun hw hd => hrefused (stateRefusal_eq_some_iff.2 (.inl ⟨hw, hd, rfl⟩)),
    fun hw hd => hrefused (stateRefusal_eq_some_iff.2 (.inr (.inl ⟨hw, hd, rfl⟩))),
    fun hw hd => hrefused (stateRefusal_eq_some_iff.2 (.inr (.inr ⟨hw, hd, rfl⟩))),
    fun hl hd => ?_, fun hl ht hi hk => ?_, fun t => step_engaged_queue he ha⟩
  · refine ⟨_, step_arrivalFails he ((arrivalFails_cons ha).2 ⟨hl, hd⟩), ?_, rfl, rfl, rfl, rfl, rfl, rfl, rfl, rfl, rfl, rfl, rfl,
      admission_bindingFails _⟩
    exact (bindingFails_replies _).trans (congrArg _ (if_pos he))
  · have hf : s.arrivalFails = false := eq_false_of_ne_true (mt (arrivalFails_cons ha).1 hl)
    refine step_arrival_waits he ha hf (Option.eq_none_iff_forall_ne_some.2 fun why hwhy => ?_)
    obtain ⟨hw, hd, -⟩ | ⟨hw, hd, -⟩ | ⟨hw, hd, -⟩ := stateRefusal_eq_some_iff.1 hwhy
    · exact ht ⟨hw, hd⟩
    · exact hi ⟨hw, hd⟩
    · exact hk ⟨hw, hd⟩

/-- Settles O46: the INIT that fails the binding is `serve_arrivalFails`, the one that is refused `serve_stateRefusal`. -/
theorem initFailsOrIsRefused : Obligations.InitFailsOrIsRefused := by
  unfold Obligations.InitFailsOrIsRefused
  intro ce clk data burst m s he
  refine ⟨fun hd hl => ⟨s.bindingFails, ?_, rfl, ?_, rfl, rfl, rfl, rfl, rfl, admission_bindingFails s⟩, fun hd => ?_⟩
  · rw [step_ask he, serve_arrivalFails hd ((lacksLine_init ce clk data burst m).2 hl), toOutcome_ok]
  · rw [bindingFails_replies, he, if_neg Bool.false_ne_true]
  · have href : (Waiting.request (.init ce clk data burst m)).stateRefusal s = some .notUnbound := alreadyBound_eq_some_iff.2 ⟨hd, rfl⟩
    rw [step_ask he, serve_stateRefusal href, toOutcome_ok]
    rfl

/-! ## Refusals when a request is served (60_exceptions.md R234, R238) -/

/-- Among all that serving can do only a reply puts a refusal on record. -/
theorem Serves.eq_refuse {s t : State} {w : Waiting} {why : RefusalReason} (h : Serves s w t)
    (hr : t.replies = .refused why :: s.replies) : t = s.refuse why := by
  cases h with
  | replied _ r => exact congrArg s.reply (List.cons.inj hr).1
  | accepted _ _ => exact absurd hr.symm (List.cons_ne_self _ _)
  | started _ k _ _ _ =>
    have hsame : (s.start k).replies = s.replies := by
      unfold State.start State.proceed
      split <;> rfl
    exact absurd (hr.symm.trans hsame) (List.cons_ne_self _ _)
  | bindingFailed _ _ _ _ _ _ => exact nomatch (List.cons.inj hr).1
  | initStarted _ _ _ _ _ _ => exact absurd hr.symm (List.cons_ne_self _ _)
  | unbound => exact nomatch (List.cons.inj hr).1
  | powerCycled ht =>
    cases ht
    exact absurd hr.symm (List.cons_ne_self _ _)

/-- Settles O60: the step served the head of the queue (`step_serves`), and of what serving does only a refusal leaves that mark
(`Serves.eq_refuse`). -/
theorem refusalChangesNothingElse : Obligations.RefusalChangesNothingElse := by
  unfold Obligations.RefusalChangesNothingElse
  intro s t why he h hr
  obtain rfl | ⟨w, rest, hq, hs⟩ := step_serves he h
  · exact absurd hr.symm (List.cons_ne_self _ _)
  · rw [hs.eq_refuse hr, hq]
    rfl

/-! ## The host's power cycle (60_exceptions.md R248) -/

/-- Settles O54: the block starts afresh, and each register takes a byte, which keeps the canonical form (`setRegs_wf`) and every other address
(`read_setRegs_outside`). -/
theorem powerCycleStartsFromUnbound : Obligations.PowerCycleStartsFromUnbound := by
  unfold Obligations.PowerCycleStartsFromUnbound
  intro s he hm
  exact ⟨_, step_ask he .powerCycle, rfl, rfl, rfl, rfl, rfl, rfl, rfl, rfl, rfl, rfl, setRegs_wf hm _ _,
    fun a ha => read_setRegs_outside hm _ _ ha⟩

end Sys2Proof.Machine

/-! The control block at its creation (70_reset_and_hazards.md R260) and the least time a transaction's waits take (R273). -/
namespace Sys2Proof.Machine

open Sys2Proof

/-! ## Reset (70_reset_and_hazards.md R260) -/

/-- Settles O55: each value is the one `State.reset` writes. -/
theorem resetIsTheCreationOfABinding : Obligations.ResetIsTheCreationOfABinding :=
  ⟨rfl, rfl, rfl, rfl, rfl, rfl⟩

/-- Settles O56: after reset the device is not bound and nothing is in progress, so what the invariant asks of a bound or a busy one does not apply;
the default parameters tell the commands apart and the empty register space is canonical, by evaluation. -/
theorem resetSatisfiesTheInvariant : Obligations.ResetSatisfiesTheInvariant where
  params := by decide
  memory := rfl
  idle := nofun
  busy := nofun
  starting := nofun
  task := nofun
  initialising := nofun
  latched := fun h => h.elim nofun nofun
  unlatched := fun _ _ => ⟨rfl, rfl, rfl, rfl, rfl⟩
  record := ⟨fun h => absurd rfl h, nofun⟩

/-! ## Least durations (70_reset_and_hazards.md R273) -/

@[simp] theorem minDuration_append (es fs : List Event) : minDuration (es ++ fs) = minDuration es + minDuration fs := by
  simp [minDuration]

@[simp] theorem minDuration_dir_cons (l : LineId) (d : LineDir) (es : List Event) : minDuration (.dir l d :: es) = minDuration es := by
  simp [minDuration, Event.minNs]

/-- The one wait of the start phase (40_transfer_engine.md R103). -/
@[simp] theorem minDuration_start : minDuration (eventsOf startOps []) = Config.tCeSetup := by
  simp [startOps, eventsOf, minDuration, Event.minNs, Delay.ns]

/-- The stop phase has no wait (40_transfer_engine.md R111). -/
@[simp] theorem minDuration_stop : minDuration (eventsOf stopOps []) = 0 := rfl

/-- Each bit shifted out takes the three waits of `SHIFTBIT` (40_transfer_engine.md R106). -/
theorem minDuration_shiftBits (bits : List Bool) :
    minDuration (eventsOf (bits.flatMap shiftBit) []) = bits.length * (Config.tDataSetup + Config.tClkHigh + Config.tClkLow) := by
  simp [minDuration, sum_shiftBits Event.minNs fun _ => rfl, Event.minNs, Delay.ns]

/-- Each bit sampled takes one wait (40_transfer_engine.md R109). -/
theorem minDuration_readBits (ps : List (Nat × Nat)) (ss : List Bool) :
    minDuration (eventsOf (ps.flatMap fun p => readBit p.1 p.2) ss) = ps.length * Config.tClkLow := by
  simp [minDuration, sum_readBits Event.minNs (fun _ => rfl) rfl, Event.minNs, Delay.ns]

theorem minDuration_write (c : Byte) (n : DataLen) (b : Vector Byte 8) (ss : List Bool) :
    minDuration (eventsOf (transactionOps c .write n b) ss) =
      Config.tCeSetup + 8 * (1 + n.count) * (Config.tDataSetup + Config.tClkHigh + Config.tClkLow) := by
  have hlen : ((c :: bufBytes b n).flatMap byteBits).length = 8 * (1 + n.count) := by
    rw [length_flatMap_byteBits, List.length_cons, length_bufBytes, Nat.add_comm]
  simp only [eventsOf_write, minDuration_append, minDuration_start, minDuration_shiftBits, hlen, minDuration_stop, Nat.add_zero]

theorem minDuration_read (c : Byte) (n : DataLen) (b : Vector Byte 8) (ss : List Bool) :
    minDuration (eventsOf (transactionOps c .read n b) ss) =
      Config.tCeSetup + 8 * (Config.tDataSetup + Config.tClkHigh + Config.tClkLow) + 8 * n.count * Config.tClkLow := by
  simp only [eventsOf_read, minDuration_append, minDuration_start, minDuration_shiftBits, length_byteBits, minDuration_dir_cons,
    minDuration_readBits, length_samplePlaces, minDuration_stop, Nat.add_zero, Nat.add_assoc]

/-- Settles O20: the waits are summed phase by phase, for a write (`minDuration_write`) and for a read (`minDuration_read`). -/
theorem minimumDurations : Obligations.MinimumDurations := by
  unfold Obligations.MinimumDurations
  exact fun c n b ss => ⟨minDuration_write c n b ss, minDuration_read c n b ss⟩

end Sys2Proof.Machine
